-- ==== Sys2Proof/Word.lean ====
section
/-! DEFINITION. The words of the engine: bytes, byte strings and 32-bit register words (00_scope.md R15, R17). -/

namespace Sys2Proof

/-- A byte: 8 bits, value 0 to 255 (R15). -/
abbrev Byte := BitVec 8

/-- A byte string: `b[0]` is the first byte as written left to right (R15). -/
abbrev Bytes := List Byte

/-- A 32-bit register word, bit 0 the least significant (R17). -/
abbrev Word := BitVec 32

end Sys2Proof
end

