-- ==== Sys2Proof/Config.lean ====
section
/-! DEFINITION. The OPEN parameters of the block (00_scope.md R6; 92_eei_decisions.md section 6), fixed for the life of a machine. -/

namespace Sys2Proof

/-- An HMAC digest: `DIGEST_SIZE = 64` bytes, by its type (R6, R8). -/
abbrev Digest := Vector Byte 64

/-- The two admitted values of `KEYSIZE_GRANULE` (R6, R10; D9: "1024 | 16"). -/
inductive Granule where
  | g1024
  | g16
deriving DecidableEq, Repr, Inhabited

/-- The OPEN parameters of R6. Nothing is assumed of `hmac` but that it is a total function to 64 bytes (R8), and
nothing of `primeOracle` but that it is a total function of the candidate (R9). The limits are bounded as D5, D8
and D9 bound them under the address map of R71. `PSE_BASE` is no field: every address of the model is an offset from
it, and nothing depends on it (log entry 6). -/
structure Config where
  /-- `HMAC(key, message)` (R8). -/
  hmac : Bytes → Bytes → Digest
  /-- `PRIME_ORACLE` (R9). -/
  primeOracle : Nat → Bool
  /-- `KEYSIZE_GRANULE` (R10). -/
  granule : Granule
  /-- `KEYSIZE_MAX`, at most 4096 (R10, D9). -/
  keySizeMax : Fin 4097
  /-- `SEED_MAX`, at most 256 (R11, D8). -/
  seedMax : Fin 257
  /-- `DID_MAX`, at most 256 (R11, D8). -/
  didMax : Fin 257
  /-- `PEER_MAX`, at most 256 (R11, D8). -/
  peerMax : Fin 257
  /-- `KTYPE_MAX`, at most 256 (R11, D8). -/
  ktypeMax : Fin 257
  /-- `ITER_CAP`: `none`, or `some k` for the cap `k + 1`, so that the cap is 1 to 2^32-1 (R6, R163). -/
  iterCapPred : Option (Fin 4294967295)
  /-- `HAS_COUNTERS` (R246). -/
  hasCounters : Bool
deriving Inhabited

/-- The configuration of the machine at hand: a FREE VALUE (log entry 1). It has no body, so every statement about it
holds for every admitted setting of the OPEN parameters. -/
opaque Config.platform : Config

/-- `KEYSIZE_GRANULE` as a number (R10). -/
def Config.granuleBits (c : Config) : Nat :=
  match c.granule with
  | .g1024 => 1024
  | .g16 => 16

/-- `ITER_CAP` as a number, when there is one (R163). -/
def Config.iterCap (c : Config) : Option Nat :=
  c.iterCapPred.map fun k => k.val + 1

/-- The suggested defaults of R6 around a keyed hash and an oracle; used by tests, never by the machine. -/
def Config.defaults (hmac : Bytes → Bytes → Digest) (oracle : Nat → Bool) : Config where
  hmac := hmac
  primeOracle := oracle
  granule := .g1024
  keySizeMax := 4096
  seedMax := 256
  didMax := 256
  peerMax := 256
  ktypeMax := 16
  iterCapPred := none
  hasCounters := true

end Sys2Proof
end

