-- ==== Sys2Proof/Syntax.lean ====
section
/-! DEFINITION. The fourteen commands, one constructor per row of the opcode map (30_encoding.md R101). -/

namespace Sys2Proof

/-- The commands. None has an operand field: every operand is an implicit, named register (R100, R102). -/
inductive Instr where
  /-- Discard all derived state (R220). -/
  | clr
  /-- Discard everything (R222). -/
  | wipe
  /-- Derive the master key (R150). -/
  | mkey
  /-- Derive the pairwise secret (R194). -/
  | psec
  /-- Generate the raw candidate bytes of p (R156). -/
  | pgen
  /-- Generate the raw candidate bytes of q (R157). -/
  | qgen
  /-- Search the prime p (R160). -/
  | psrch
  /-- Search the prime q (R161). -/
  | qsrch
  /-- Compute the RSA key components (R175). -/
  | rsaasm
  /-- Encode the RSA key record (R178). -/
  | rsaexp
  /-- Reduce the secret to the private scalar (R195). -/
  | ecred
  /-- Scalar-to-point multiplication (R196). -/
  | ecmul
  /-- Encode the EC key record (R197). -/
  | ecexp
  /-- The whole derivation, dispatched on the key type (R215). -/
  | gen
deriving DecidableEq, Repr

end Sys2Proof
end

