-- ==== Sys2Proof/WellFormed.lean ====
section
/-! DEFINITION. Well-formedness: of a command (nothing to check: no operand fields, R102) and of a command word (R100, R103). -/

namespace Sys2Proof

/-- A command has no operand field (R100, R102), so every constructor is well-formed. -/
def Instr.wellFormed (_ : Instr) : Bool := true

/-- The operation codes in use (R101). -/
def opcodesInUse : List Byte :=
  [0x01, 0x02, 0x10, 0x11, 0x12, 0x13, 0x14, 0x15, 0x16, 0x17, 0x18, 0x19, 0x1A, 0x20]

/-- Field `ZERO` of format C: bits 31:8 of a command word are 0 (R100). -/
def zeroFieldOk (w : Word) : Bool := w.extractLsb' 8 24 == 0

/-- Field `OPC` of format C: bits 7:0 are an operation code in use (R100, R101). -/
def opcFieldOk (w : Word) : Bool := opcodesInUse.contains (w.extractLsb' 0 8)

/-- A word is a command exactly when both fields are legal (R103). -/
def commandWordOk (w : Word) : Bool := zeroFieldOk w && opcFieldOk w

end Sys2Proof
end

