-- ==== Sys2Proof/Decode.lean ====
section
/-! DEFINITION. Decoding a command word, total on every word, and the encoder written from the same map (30_encoding.md R100, R101, R103). -/

namespace Sys2Proof

/-- One row of the opcode map: a word `w` selects the row when `w AND mask = pattern` (R101). -/
structure OpcodeRow where
  mask : Word
  pattern : Word
  instr : Instr
deriving DecidableEq, Repr

/-- The opcode map of R101, in its order; every mask is the whole word. -/
def opcodeMap : List OpcodeRow := [
  ⟨0xFFFFFFFF, 0x00000001, .clr⟩,
  ⟨0xFFFFFFFF, 0x00000002, .wipe⟩,
  ⟨0xFFFFFFFF, 0x00000010, .mkey⟩,
  ⟨0xFFFFFFFF, 0x00000011, .psec⟩,
  ⟨0xFFFFFFFF, 0x00000012, .pgen⟩,
  ⟨0xFFFFFFFF, 0x00000013, .qgen⟩,
  ⟨0xFFFFFFFF, 0x00000014, .psrch⟩,
  ⟨0xFFFFFFFF, 0x00000015, .qsrch⟩,
  ⟨0xFFFFFFFF, 0x00000016, .rsaasm⟩,
  ⟨0xFFFFFFFF, 0x00000017, .rsaexp⟩,
  ⟨0xFFFFFFFF, 0x00000018, .ecred⟩,
  ⟨0xFFFFFFFF, 0x00000019, .ecmul⟩,
  ⟨0xFFFFFFFF, 0x0000001A, .ecexp⟩,
  ⟨0xFFFFFFFF, 0x00000020, .gen⟩]

/-- Does the word select the row (R101)? -/
def OpcodeRow.selects (r : OpcodeRow) (w : Word) : Bool := w &&& r.mask == r.pattern

/-- Decoding reads nothing but the word (R104): the row it selects, or `none` for an illegal word (R103). -/
def decode (w : Word) : Option Instr :=
  (opcodeMap.find? fun r => r.selects w).map fun r => r.instr

/-- The operation code of a command (R101). -/
def opcode (i : Instr) : Byte :=
  match i with
  | .clr => 0x01
  | .wipe => 0x02
  | .mkey => 0x10
  | .psec => 0x11
  | .pgen => 0x12
  | .qgen => 0x13
  | .psrch => 0x14
  | .qsrch => 0x15
  | .rsaasm => 0x16
  | .rsaexp => 0x17
  | .ecred => 0x18
  | .ecmul => 0x19
  | .ecexp => 0x1A
  | .gen => 0x20

/-- The word of a command: `ZERO` in 31:8, `OPC` in 7:0 (R100). -/
def encode (i : Instr) : Word := (0 : BitVec 24) ++ opcode i

/-- Field `OPC` of a word, `W[7:0]` (R100). -/
def opcField (w : Word) : Byte := w.extractLsb' 0 8

/-- The word a running command was accepted by, rebuilt from `SEQ.CUR` (R36, R107). -/
def wordOfOpcode (b : Byte) : Word := (0 : BitVec 24) ++ b

/-- The decoder on a word numbered as the opcode table numbers it: one 32-bit word, bits above `nbits` zero. -/
def decodeTableWord (nbits w : Nat) : Option Instr :=
  decode (BitVec.ofNat 32 (w % 2 ^ nbits))

end Sys2Proof
end

