-- ==== Sys2Proof/Machine/State.lean ====
section
/-! DEFINITION. The state of one engine instance (10_state.md R30), the host's coming moves, reset (R41), and the reasons a step can stop. -/

namespace Sys2Proof.Machine

/-- Who raises a fault of the MODEL. The seven faults of the block (60_exceptions.md R230) are no such stop: their entry
(R240) is a next state. -/
inductive Fault where
  /-- Raised by the step when the host's next move is an access whose offset is no multiple of 4. Safe: the spec says
  that such an access "is not a move of the host agent" and "in the model: the host has no such step" (R74), so there is
  no next state to miss. -/
  | misalignedAccess (offset : Nat)
  /-- Raised by the step when the host's next move is an access above `0x3FFC`, outside the register space (R70, R72).
  Safe: the spec gives no such access. -/
  | outsideSpace (offset : Nat)
  /-- Raised by the engine's turn when `BUSY = 1` and `SEQ.CUR` is no operation code. Safe: `BUSY` is set only when a
  command is accepted, which sets `SEQ.CUR` to its operation code (R107), so no run reaches such a state. -/
  | noCommandRunning (cur : Byte)
deriving DecidableEq, Repr

/-- Why an instruction has no meaning. -/
inductive Refusal where
  /-- Raised by an arm of `exec` that gives its instruction no meaning yet. Safe: nothing is said of such a step. -/
  | notModelled (mnemonic : String)
deriving DecidableEq, Repr

/-- One of the four input buffers (R31). -/
inductive Buf where
  | seed
  | did
  | peer
  | ktype
deriving DecidableEq, Repr

/-- Length register and valid bit of an input buffer (R31). Its bytes are in `State.mem`. -/
structure InputReg where
  len : Word
  valid : Bool
deriving DecidableEq, Repr

/-- The derived registers (R33). `none` is "invalid": the value is dropped, not kept (D36). -/
structure Derived where
  ofRegs ::
  /-- MasterKey. -/
  mk : Option Bytes
  /-- PairwiseSecret. -/
  ps : Option Bytes
  /-- pBase, the raw, unforced candidate bytes of p. -/
  pbase : Option Bytes
  /-- qBase, the raw, unforced candidate bytes of q. -/
  qbase : Option Bytes
  p : Option Nat
  q : Option Nat
  /-- The modulus n. -/
  nmod : Option Nat
  /-- The private exponent d. -/
  dexp : Option Nat
  dp : Option Nat
  dq : Option Nat
  qi : Option Nat
  /-- The EC private scalar d. -/
  ecd : Option Nat
  qx : Option Nat
  qy : Option Nat
  /-- The prime byte length L latched by PGEN. -/
  lb : Option Nat
  /-- The candidate under test. -/
  cand : Option Nat
deriving DecidableEq, Repr

/-- Every derived register invalid (R41, R219, R220, R240). -/
def Derived.invalid : Derived where
  mk := none
  ps := none
  pbase := none
  qbase := none
  p := none
  q := none
  nmod := none
  dexp := none
  dp := none
  dq := none
  qi := none
  ecd := none
  qx := none
  qy := none
  lb := none
  cand := none

/-- A field of the output record, held twice: `OUT.raw[f]` and `OUT.txt[f]` (R34). -/
structure OutField where
  raw : Bytes
  txt : Bytes
deriving DecidableEq, Repr

/-- The RSA record: the eight fields of R34 and `OUT.L`. -/
structure RsaRecord where
  l : Nat
  e : OutField
  n : OutField
  d : OutField
  p : OutField
  q : OutField
  dp : OutField
  dq : OutField
  qi : OutField
deriving DecidableEq, Repr

/-- The EC record: the three fields of R34. -/
structure EcRecord where
  d : OutField
  x : OutField
  y : OutField
deriving DecidableEq, Repr

/-- The output record `OUT` (R34). The constructor is `OUT.KIND`: under `none` no field holds a value. -/
inductive Out where
  | none
  | rsa (r : RsaRecord)
  | ec (r : EcRecord)
deriving DecidableEq, Repr

/-- The flags of `STATUS` that no other field of the state carries (R35). -/
structure Flags where
  busy : Bool
  done : Bool
  fault : Bool
  ovf : Bool
  drop : Bool
  rdErr : Bool
deriving DecidableEq, Repr

/-- Which line group of the running element the engine performs next (R221 divides a command into such steps and names
no register for the position; DESIGN CHOICE, log entry 2). -/
inductive Phase where
  /-- The operand checks, and whatever stands before the first round or test. -/
  | operands
  /-- The rounds of `deriveBytes` or the tests of a search. -/
  | loop
  /-- The lines after an accepted test. -/
  | commit
deriving DecidableEq, Repr

/-- The hidden sequencer state `SEQ` (R36); `phase` is the model's own. -/
structure Seq where
  cur : Byte
  gidx : BitVec 4
  sub : Byte
  rnd : Nat
  chain : Bytes
  acc : Bytes
  tests : Nat
  phase : Phase
deriving DecidableEq, Repr

/-- `ERR` (R37): `CODE` in 7:0, `INFO` in 15:8, the reserved upper half read as 0. -/
structure Err where
  code : Byte
  info : Byte
deriving DecidableEq, Repr

/-- The three counters (R38, R246). -/
structure Counters where
  iterP : Word
  iterQ : Word
  rounds : Word
deriving DecidableEq, Repr

/-- A coming move of the host agent or of the platform (R12, R106, R260). -/
inductive HostMove where
  /-- `MemRead(offset, 4)` (R72). -/
  | read (offset : Nat)
  /-- `MemWrite(offset, 4, v)` (R72). -/
  | write (offset : Nat) (v : Word)
  /-- `WAIT`: poll `STATUS` until its bit 0 is 0 (R106). -/
  | wait
  /-- The host leaves the turn to the engine for one step (R12, R87: any interleaving is some list of moves). -/
  | yield
  /-- The reset event (R260). -/
  | reset
deriving DecidableEq, Repr

/-- The host agent as the machine sees it: its coming moves, oldest first, and the word its latest read returned.
The model's own (DESIGN CHOICE, log entry 3). -/
structure HostPort where
  script : List HostMove
  rdata : Option Word
deriving DecidableEq, Repr

/-- The state (R30), and the host's port beside it. -/
structure State where
  /-- The bytes of the four input arrays by offset (R31, R71), in canonical form; an unlisted offset reads 0x00, the
  reset contents of R41. -/
  mem : List Host.Cell
  seed : InputReg
  did : InputReg
  peer : InputReg
  ktype : InputReg
  /-- `KEYSIZE` (R32). -/
  keySize : Word
  derived : Derived
  out : Out
  flags : Flags
  seq : Seq
  err : Err
  counters : Counters
  host : HostPort
deriving DecidableEq, Repr

/-- The state after reset (R41). -/
def State.reset : State where
  mem := []
  seed := ⟨0, false⟩
  did := ⟨0, false⟩
  peer := ⟨0, false⟩
  ktype := ⟨0, false⟩
  keySize := 0
  derived := Derived.invalid
  out := .none
  flags := ⟨false, false, false, false, false, false⟩
  seq := ⟨0, 0, 0, 0, [], [], 0, .operands⟩
  err := ⟨0, 0⟩
  counters := ⟨0, 0, 0⟩
  host := ⟨[], none⟩

end Sys2Proof.Machine
end

