-- ==== Sys2Proof/Machine/Ops.lean ====
section
/-! DEFINITION. The named operations over memory and state: the input arrays' cells, fault entry (60_exceptions.md R240) and the return from it (R220, R241), acceptance (30_encoding.md R107), completion (46_dispatch_control.md R221). -/

namespace Sys2Proof.Machine

/-! ## Memory: the cells of the input arrays -/

/-- The byte at an offset; an unlisted offset reads 0x00, the reset contents (R41). -/
def Memory.read : List Host.Cell → Nat → Byte
  | [], _ => 0#8
  | (b, w) :: m, a => if a = b then w else Memory.read m a

/-- Store one byte. Storing 0x00 removes the entry, so that equal memories are equal lists. -/
def Memory.write : List Host.Cell → Nat → Byte → List Host.Cell
  | [], a, v => if v = 0#8 then [] else [(a, v)]
  | (b, w) :: m, a, v =>
    if a < b then (if v = 0#8 then (b, w) :: m else (a, v) :: (b, w) :: m)
    else if a = b then (if v = 0#8 then m else (a, v) :: m)
    else (b, w) :: Memory.write m a v

/-- Offsets rising from `lo` on, and no entry of value 0x00. -/
def Memory.risesFrom : Nat → List Host.Cell → Bool
  | _, [] => true
  | lo, (a, v) :: m => decide (lo ≤ a) && v != 0#8 && Memory.risesFrom (a + 1) m

/-- The canonical form of a memory. -/
def Memory.wf (m : List Host.Cell) : Bool := Memory.risesFrom 0 m

/-- The `n` bytes from an offset on. -/
def Memory.readBytes (m : List Host.Cell) (a : Nat) : Nat → Bytes
  | 0 => []
  | n + 1 => Memory.read m a :: Memory.readBytes m (a + 1) n

/-! ## The sequencer -/

/-- The sequencer fields that completion, fault entry, CLR, WIPE and reset clear (R36, R221, R240, R220). -/
def Seq.cleared (q : Seq) : Seq :=
  { q with gidx := 0, rnd := 0, chain := [], acc := [], tests := 0, phase := .operands }

/-! ## Faults of the block -/

/-- The seven fault causes with what their `INFO` byte is made of (R230). -/
inductive Cause where
  | unsupportedKeyType (len : Nat)
  | internalArithmeticError (info : Byte)
  | primeSearchExhausted (which : Byte)
  | illegalCommand (opc : Byte)
  | invalidKeySize
  | unwrittenOperand (index : Byte)
  | pointAtInfinity
deriving DecidableEq, Repr

/-- `CODE` and `INFO` of a fault (R230). -/
def Cause.err (f : Cause) : Err :=
  match f with
  | .unsupportedKeyType len => ⟨0x01, BitVec.ofNat 8 (min len 255)⟩
  | .internalArithmeticError info => ⟨0x02, info⟩
  | .primeSearchExhausted which => ⟨0x03, which⟩
  | .illegalCommand opc => ⟨0x10, opc⟩
  | .invalidKeySize => ⟨0x11, 0x00⟩
  | .unwrittenOperand index => ⟨0x12, index⟩
  | .pointAtInfinity => ⟨0x13, 0x00⟩

/-- Fault entry, `raise F(info)` (R240): one atomic step. Kept: the inputs, `KEYSIZE`, `OVF`, `DROP`, `RDERR`, `CUR`,
the counters. -/
def raise (f : Cause) (s : State) : State :=
  { s with
    derived := Derived.invalid
    out := .none
    err := f.err
    flags := { s.flags with fault := true, busy := false, done := false }
    seq := s.seq.cleared }

/-- What CLR discards, apart from `SEQ.CUR` (R220); with it the engine leaves the fault state (R241), and GEN starts
(R215). -/
def clearDerivedState (s : State) : State :=
  { s with
    derived := Derived.invalid
    out := .none
    counters := ⟨0, 0, 0⟩
    flags := { s.flags with done := false, fault := false, ovf := false, drop := false, rdErr := false }
    err := ⟨0x00, 0x00⟩
    seq := s.seq.cleared }

/-- What WIPE discards beyond CLR: the inputs and `KEYSIZE` (R222). -/
def clearInputs (s : State) : State :=
  { s with
    mem := []
    seed := ⟨0, false⟩
    did := ⟨0, false⟩
    peer := ⟨0, false⟩
    ktype := ⟨0, false⟩
    keySize := 0 }

/-! ## Command lifecycle -/

/-- A dropped host write changes nothing but `STATUS.DROP` (R238). -/
def dropWrite (s : State) : State := { s with flags := { s.flags with drop := true } }

/-- The register part of acceptance: `DONE <- 0; CUR, SUB <- W[7:0]; GIDX <- 0` (R107). -/
def latchCommand (i : Instr) (s : State) : State :=
  { s with
    flags := { s.flags with done := false }
    seq := { s.seq with cur := opcode i, sub := opcode i, gidx := 0, phase := .operands } }

/-- The word of a command other than CLR and WIPE at an engine that runs none: dropped in the fault state (R241), else
accepted, and the engine agent has steps from then on (R107). -/
def accept (i : Instr) (s : State) : State :=
  if s.flags.fault then dropWrite s
  else
    let t := latchCommand i s
    { t with flags := { t.flags with busy := true } }

/-- A step of command `i`: its acceptance when the engine is idle, one engine step of its body while `BUSY = 1`
(R221). -/
def commandOf (i : Instr) (body : State → State) (s : State) : State :=
  if s.flags.busy then body s else accept i s

/-- `complete` (R221). -/
def complete (s : State) : State :=
  { s with
    flags := { s.flags with busy := false, done := true }
    seq := { s.seq.cleared with sub := s.seq.cur } }

end Sys2Proof.Machine
end

