-- ==== Sys2Proof/Machine/Operands.lean ====
section
/-! DEFINITION. The operand forms: input buffers (10_state.md R31), registers with a valid bit and their indices (R40), key sizes (00_scope.md R10), the key type (46_dispatch_control.md R216). -/

namespace Sys2Proof.Machine

/-! ## Registers by index -/

/-- The registers that have an index (R40). -/
inductive Reg where
  | seed | did | peer | ktype
  | mk | ps | pbase | qbase
  | p | q | nmod | dexp | dp | dq | qi
  | ecd | qx | qy | lb | cand
deriving DecidableEq, Repr

/-- The index `UnwrittenOperand` reports (R40). -/
def Reg.index (r : Reg) : Byte :=
  match r with
  | .seed => 1
  | .did => 2
  | .peer => 3
  | .ktype => 4
  | .mk => 5
  | .ps => 6
  | .pbase => 7
  | .qbase => 8
  | .p => 9
  | .q => 10
  | .nmod => 11
  | .dexp => 12
  | .dp => 13
  | .dq => 14
  | .qi => 15
  | .ecd => 16
  | .qx => 17
  | .qy => 18
  | .lb => 19
  | .cand => 20

/-- `x[NAME]` in front of the rest of a command: an invalid register raises `UnwrittenOperand(index)` (R18, R236).
Reads nested in ascending index order report the lowest missing index. -/
def need {α : Type} (r : Reg) (v : Option α) (s : State) (rest : α → State) : State :=
  match v with
  | some x => rest x
  | none => raise (.unwrittenOperand r.index) s

/-! ## Input buffers -/

/-- Offset of byte 0 of a buffer (R71). -/
def Buf.base (b : Buf) : Nat :=
  match b with
  | .seed => 0x0100
  | .did => 0x0200
  | .peer => 0x0300
  | .ktype => 0x0400

/-- Capacity of a buffer: `SEED_MAX`, `DID_MAX`, `PEER_MAX`, `KTYPE_MAX` (R31). -/
def Buf.capacity (c : Config) (b : Buf) : Nat :=
  match b with
  | .seed => c.seedMax.val
  | .did => c.didMax.val
  | .peer => c.peerMax.val
  | .ktype => c.ktypeMax.val

/-- The length register and valid bit of a buffer (R31). -/
def State.inputReg (s : State) (b : Buf) : InputReg :=
  match b with
  | .seed => s.seed
  | .did => s.did
  | .peer => s.peer
  | .ktype => s.ktype

/-- Write the length register and valid bit of a buffer. -/
def State.setInputReg (s : State) (b : Buf) (r : InputReg) : State :=
  match b with
  | .seed => { s with seed := r }
  | .did => { s with did := r }
  | .peer => { s with peer := r }
  | .ktype => { s with ktype := r }

/-- The value of an input: the first `LEN` bytes of its array, which exists only when the valid bit is 1 (R31). -/
def State.input (s : State) (b : Buf) : Option Bytes :=
  if (s.inputReg b).valid then some (Memory.readBytes s.mem b.base (s.inputReg b).len.toNat) else none

/-! ## Key size and key type -/

/-- `KeySizeLegal(k)` (R10, R235). -/
def keySizeLegal (c : Config) (k : Nat) : Bool :=
  k % c.granuleBits == 0 && decide (c.granuleBits ≤ k) && decide (k ≤ c.keySizeMax.val)

/-- What `MATCH` can answer besides NONE (R216). -/
inductive Kind where
  | rsa
  | ec
deriving DecidableEq, Repr

/-- `fold(c)`: ASCII lower case to upper case (R216). -/
def foldCase (x : Byte) : Byte :=
  if 0x61 ≤ x.toNat ∧ x.toNat ≤ 0x7A then x - 0x20 else x

/-- `MATCH(t)`: the whole string against "EC" and "RSA" without regard to ASCII case (R216). -/
def matchKeyType (t : Bytes) : Option Kind :=
  if t.map foldCase = [0x45, 0x43] then some .ec
  else if t.map foldCase = [0x52, 0x53, 0x41] then some .rsa
  else none

end Sys2Proof.Machine
end

