-- ==== Sys2Proof/Machine/Flags.lean ====
section
/-! DEFINITION. The words of STATUS (10_state.md R35) and ERR (R37), the overflow flag (43_prime_search.md R164), the saturating counters (60_exceptions.md R246). -/

namespace Sys2Proof.Machine

/-- `STATUS` as the host reads it (R35); the reserved bits 7:6, 15:12 and 31:24 are 0. -/
def statusWord (s : State) : Word :=
  (0 : BitVec 8) ++ s.seq.cur ++ (0 : BitVec 4) ++
    BitVec.ofBool s.ktype.valid ++ BitVec.ofBool s.peer.valid ++ BitVec.ofBool s.did.valid ++
    BitVec.ofBool s.seed.valid ++ (0 : BitVec 2) ++ BitVec.ofBool s.flags.rdErr ++ BitVec.ofBool s.flags.drop ++
    BitVec.ofBool s.flags.ovf ++ BitVec.ofBool s.flags.fault ++ BitVec.ofBool s.flags.done ++
    BitVec.ofBool s.flags.busy

/-- `ERR` as the host reads it: `CODE` in 7:0, `INFO` in 15:8, 31:16 read 0 (R37). -/
def errWord (e : Err) : Word := (0 : BitVec 16) ++ e.info ++ e.code

/-- Counting up to `2^32 - 1` and no further (R246). -/
def satInc (w : Word) : Word := if w = 0xFFFFFFFF then w else w + 1

/-- One more HMAC invocation, where counters are present (R133, R246). -/
def countRound (c : Config) (s : State) : State :=
  if c.hasCounters then { s with counters := { s.counters with rounds := satInc s.counters.rounds } } else s

/-- A candidate or a search result of more than `8 * len(b)` bits sets the sticky flag `OVF` (R160, R164, D14). -/
def noteOverflow (v : Nat) (b : Bytes) (s : State) : State :=
  if 256 ^ b.length ≤ v then { s with flags := { s.flags with ovf := true } } else s

end Sys2Proof.Machine
end

