-- ==== Sys2Proof/Machine/Bytestream.lean ====
section
/-! DEFINITION. Byte-stream derivation: the function (40_bytestream.md R131, R132) and its engine steps (R133). -/

namespace Sys2Proof.Machine

/-- The number of rounds, `ceil(length / 64)` (R132). -/
def hmacRounds (length : Nat) : Nat := (length + 63) / 64

/-- `D_1 || ... || D_r`, the key fixed, each round's message the digest before it (R131). -/
def hmacChain (c : Config) (key : Bytes) : Nat → Bytes → Bytes
  | 0, _ => []
  | r + 1, msg => (c.hmac key msg).toList ++ hmacChain c key r (c.hmac key msg).toList

/-- `deriveBytes(key, length, seedMessage)` (R131). -/
def deriveBytes (c : Config) (key : Bytes) (length : Nat) (msg : Bytes) : Bytes :=
  (hmacChain c key (hmacRounds length) msg).take length

/-- Entry of `deriveBytes` inside a command (R133). -/
def enterDerive (msg : Bytes) (s : State) : State :=
  { s with seq := { s.seq with rnd := 0, chain := msg, acc := [], phase := .loop } }

/-- One round (R133). -/
def hmacRound (c : Config) (key : Bytes) (s : State) : State :=
  let d := (c.hmac key s.seq.chain).toList
  countRound c { s with seq := { s.seq with acc := s.seq.acc ++ d, chain := d, rnd := s.seq.rnd + 1 } }

/-- The loop of R133: a round while `len(ACC) < length`, else the command's remaining lines on `ACC[0:length]`. -/
def deriveLoop (c : Config) (key : Bytes) (length : Nat) (rest : Bytes → State) (s : State) : State :=
  if s.seq.acc.length < length then hmacRound c key s else rest (s.seq.acc.take length)

end Sys2Proof.Machine
end

