-- ==== Sys2Proof/Machine/Arith.lean ====
section
/-! DEFINITION. The modular inverse (00_scope.md R16) and the curve secp256k1: constants, group law, scalar multiple (45_ec.md R191 to R193). -/

namespace Sys2Proof.Machine

/-- Euclid's algorithm on `(r0, r1)`, carrying the coefficients of `a` modulo `m`; answers the greatest common divisor
and its coefficient. `fuel` bounds the number of divisions: `r1` falls at each. -/
def euclid (m : Nat) : Nat → Nat → Nat → Nat → Nat → Nat × Nat
  | 0, r0, _, t0, _ => (r0, t0)
  | fuel + 1, r0, r1, t0, t1 =>
    match r1 with
    | 0 => (r0, t0)
    | r + 1 => euclid m fuel (r + 1) (r0 % (r + 1)) t1 ((t0 + (m - r0 / (r + 1) * t1 % m)) % m)

/-- `modInverse(a, m)`: the `x` with `0 <= x < m` and `a*x mod m = 1`; `none` where R16 leaves it undefined
(`gcd(a, m) <> 1`, or `m < 2`). -/
def modInverse (a m : Nat) : Option Nat :=
  if m < 2 then none
  else
    match euclid m (m + 1) m (a % m) 0 1 with
    | (g, t) => if g = 1 then some t else none

/-- The field prime of secp256k1 (R191). -/
def ecP : Nat := 0xFFFFFFFFFFFFFFFFFFFFFFFFFFFFFFFFFFFFFFFFFFFFFFFFFFFFFFFEFFFFFC2F

/-- The order of the generator (R191). -/
def ecN : Nat := 0xFFFFFFFFFFFFFFFFFFFFFFFFFFFFFFFEBAAEDCE6AF48A03BBFD25E8CD0364141

/-- `EC_GX` (R191). -/
def ecGx : Nat := 0x79BE667EF9DCBBAC55A06295CE870B07029BFCDB2DCE28D959F2815B16F81798

/-- `EC_GY` (R191). -/
def ecGy : Nat := 0x483ADA7726A3C4655DA4FBFC0E1108A8FD17B448A68554199C47D08FFB10D4B8

/-- A point of the curve: the point at infinity `O`, or a pair of coordinates (R192). -/
inductive Point where
  | infinity
  | affine (x y : Nat)
deriving DecidableEq, Repr

/-- The points of the curve: coordinates below `EC_P` with `y^2 = x^3 + 7` modulo `EC_P`, and `O` (R192). -/
def Point.OnCurve (a : Point) : Prop :=
  match a with
  | .infinity => True
  | .affine x y => x < ecP ∧ y < ecP ∧ y * y % ecP = (x * x * x + 7) % ecP

/-- The generator `EC_G` (R191). -/
def ecG : Point := .affine ecGx ecGy

/-- Subtraction modulo `EC_P`. -/
def subP (a b : Nat) : Nat := (a + (ecP - b % ecP)) % ecP

/-- `inv(z)` modulo `EC_P` (R192). The group law never inverts a multiple of `EC_P` on the curve; the 0 given there is
reached by no point (log entry 8). -/
def invP (z : Nat) : Nat := (modInverse (z % ecP) ecP).getD 0

/-- The third point of the group law from the slope `lambda` (R192). -/
def chord (lambda x1 y1 x2 : Nat) : Point :=
  let x3 := subP (subP (lambda * lambda) x1) x2
  .affine x3 (subP (lambda * subP x1 x3) y1)

/-- The group law (R192). -/
def addPoint (a b : Point) : Point :=
  match a, b with
  | .infinity, b => b
  | .affine x y, .infinity => .affine x y
  | .affine x1 y1, .affine x2 y2 =>
    if x1 = x2 ∧ (y1 + y2) % ecP = 0 then .infinity
    else if x1 = x2 ∧ y1 = y2 then chord (3 * (x1 * x1) * invP (2 * y1) % ecP) x1 y1 x2
    else chord (subP y2 y1 * invP (subP x2 x1) % ecP) x1 y1 x2

/-- Double and add: `sum + k * a`, the bits of `k` from the least significant; `fuel` bounds their number. -/
def mulAdd : Nat → Nat → Point → Point → Point
  | 0, _, _, sum => sum
  | fuel + 1, k, a, sum =>
    if k = 0 then sum
    else mulAdd fuel (k / 2) (addPoint a a) (if k % 2 = 1 then addPoint sum a else sum)

/-- `k * A` (R193): only the resulting point is specified, not how the multiplier computes it. -/
def mulPoint (k : Nat) (a : Point) : Point := mulAdd (k.log2 + 1) k a .infinity

/-- `A + A + ... + A`, `k` terms: the words of R193, which `mulPoint` is to agree with. -/
def sumPoint : Nat → Point → Point
  | 0, _ => .infinity
  | k + 1, a => addPoint (sumPoint k a) a

end Sys2Proof.Machine
end

