-- ==== Sys2Proof/Machine/Codec.lean ====
section
/-! DEFINITION. Byte strings as integers and back (00_scope.md R16; 41_endianness_encoder.md R140 to R144), the key encoder (R146), bit forcing (43_prime_search.md R158, R159). -/

namespace Sys2Proof.Machine

/-- `BE2INT(b)`: the first byte most significant; 0 for the empty string (R16). -/
def be2int (b : Bytes) : Nat := b.foldl (fun v x => v * 256 + x.toNat) 0

/-- The sum of `b[i] * 256^i` (R16, the `u` of `LE2INT_S`). -/
def le2int : Bytes → Nat
  | [] => 0
  | x :: b => x.toNat + 256 * le2int b

/-- `LE2INT_S(b)`: little-endian two's complement (R16). -/
def le2intS (b : Bytes) : Int :=
  match b.getLast? with
  | none => le2int b
  | some top => if top.toNat < 128 then le2int b else le2int b - 256 ^ b.length

/-- `BE_w(v)`, for `v < 256^w`: the `w`-byte string of value `v` (R16). -/
def beBytes : Nat → Nat → Bytes
  | 0, _ => []
  | w + 1, v => BitVec.ofNat 8 (v / 256 ^ w) :: beBytes w v

/-- `toLittleEndianSigned(b)` (R140). -/
def toLittleEndianSigned (b : Bytes) : Bytes := b.reverse ++ [0x00]

/-- The `w` low bytes of `v`, least significant first. -/
def leBytes : Nat → Nat → Bytes
  | 0, _ => []
  | w + 1, v => BitVec.ofNat 8 v :: leBytes w (v / 256)

/-- The number of bits of `v`; 0 for 0. -/
def bitLength (v : Nat) : Nat := if v = 0 then 0 else v.log2 + 1

/-- `LEREP(v)`: the reference choice of R142, `floor(bitlength(v)/8) + 1` bytes. -/
def leRep (v : Nat) : Bytes := leBytes (bitLength v / 8 + 1) v

/-- `toFixedBigEndian(r, width)` (R143). -/
def toFixedBigEndian (r : Bytes) (width : Nat) : Bytes :=
  if r.length < width then List.replicate (width - r.length) 0x00 ++ r.reverse
  else if width < r.length then r.reverse.drop (r.length - width)
  else r.reverse

/-- `FIXBE(v, width) = BE_width(v mod 256^width)`, the form the commands are written with (R144). -/
def fixBE (v width : Nat) : Bytes := beBytes width (v % 256 ^ width)

/-- The base64url alphabet (R146). -/
def b64Char (i : Nat) : Byte :=
  if i < 26 then BitVec.ofNat 8 (0x41 + i)
  else if i < 52 then BitVec.ofNat 8 (0x61 + (i - 26))
  else if i < 62 then BitVec.ofNat 8 (0x30 + (i - 52))
  else if i = 62 then 0x2D
  else 0x5F

/-- `B64URL(b)`: three bytes to four characters, a shorter rest zero-filled, no padding (R146). -/
def b64url : Bytes → Bytes
  | [] => []
  | [x] => [b64Char (x.toNat / 4), b64Char (x.toNat % 4 * 16)]
  | [x, y] =>
    [b64Char (x.toNat / 4), b64Char (x.toNat % 4 * 16 + y.toNat / 16), b64Char (y.toNat % 16 * 4)]
  | x :: y :: z :: rest =>
    b64Char (x.toNat / 4) :: b64Char (x.toNat % 4 * 16 + y.toNat / 16) ::
      b64Char (y.toNat % 16 * 4 + z.toNat / 64) :: b64Char (z.toNat % 64) :: b64url rest

/-- `bytes[0] |= 0x80` (R158). -/
def forceTop : Bytes → Bytes
  | [] => []
  | x :: b => (x ||| 0x80) :: b

/-- `bytes[last] |= 0x01` (R158). -/
def forceBottom : Bytes → Bytes
  | [] => []
  | [x] => [x ||| 0x01]
  | x :: y :: b => x :: forceBottom (y :: b)

/-- `FORCE(b)` (R158); on a one-byte string both bits fall on the one byte. R158 defines it for `L >= 1` only: that the empty
string is forced to itself is the model's choice (log entry 23). -/
def force (b : Bytes) : Bytes := forceBottom (forceTop b)

/-- `CAND0(b)`, the start candidate (R159); of the empty string, which R158 leaves out, it is 0 (log entry 23). -/
def cand0 (b : Bytes) : Nat := be2int (force b)

end Sys2Proof.Machine
end

