-- ==== Sys2Proof/Machine/RsaAssembly.lean ====
section
/-! DEFINITION. RSA key assembly (44_rsa_assembly.md R175, R176) and export (R177, R178). -/

namespace Sys2Proof.Machine

/-- The fixed public exponent (R6). -/
def ePub : Nat := 65537

/-- The five components RSAASM writes (R175). -/
structure RsaParts where
  n : Nat
  d : Nat
  dp : Nat
  dq : Nat
  qi : Nat
deriving DecidableEq, Repr

/-- The arithmetic of R175 in its order; an undefined inverse is `InternalArithmeticError`, 1 for d before 2 for qi. -/
def rsaParts (p q : Nat) : Except Cause RsaParts :=
  match modInverse ePub ((p - 1) * (q - 1)) with
  | none => .error (.internalArithmeticError 1)
  | some d =>
    match modInverse q p with
    | none => .error (.internalArithmeticError 2)
    | some qi => .ok ⟨p * q, d, d % (p - 1), d % (q - 1), qi⟩

/-- The engine step of `RSAASM` (R175). -/
def rsaasmBody (fin : State → State) (s : State) : State :=
  need .p s.derived.p s fun p =>
  need .q s.derived.q s fun q =>
    match rsaParts p q with
    | .error f => raise f s
    | .ok r =>
      fin { s with derived := { s.derived with
        nmod := some r.n, dexp := some r.d, dp := some r.dp, dq := some r.dq, qi := some r.qi } }

/-- A field of the record: `FIXBE(v, width)` and its base64url text (R178). -/
def outField (v width : Nat) : OutField := ⟨fixBE v width, b64url (fixBE v width)⟩

/-- The record RSAEXP writes, with the widths of R177. -/
def rsaRecord (p q n d dp dq qi l : Nat) : RsaRecord where
  l := l
  e := outField ePub 3
  n := outField n (2 * l)
  d := outField d (2 * l)
  p := outField p l
  q := outField q l
  dp := outField dp l
  dq := outField dq l
  qi := outField qi l

/-- The engine step of `RSAEXP` (R178). -/
def rsaexpBody (fin : State → State) (s : State) : State :=
  need .p s.derived.p s fun p =>
  need .q s.derived.q s fun q =>
  need .nmod s.derived.nmod s fun n =>
  need .dexp s.derived.dexp s fun d =>
  need .dp s.derived.dp s fun dp =>
  need .dq s.derived.dq s fun dq =>
  need .qi s.derived.qi s fun qi =>
  need .lb s.derived.lb s fun l =>
    fin { s with out := .rsa (rsaRecord p q n d dp dq qi l) }

/-- `RSAASM` (R175). -/
def rsaasm (s : State) : State := commandOf .rsaasm (rsaasmBody complete) s

/-- `RSAEXP` (R178). -/
def rsaexp (s : State) : State := commandOf .rsaexp (rsaexpBody complete) s

def execRsaasm (s : State) : Host.Outcome State Fault Refusal := .next (rsaasm s)

def execRsaexp (s : State) : Host.Outcome State Fault Refusal := .next (rsaexp s)

end Sys2Proof.Machine
end

