-- ==== Sys2Proof/Machine/EcKey.lean ====
section
/-! DEFINITION. EC key derivation, the scalar-to-point multiplier and export (45_ec.md R194 to R197, R200). -/

namespace Sys2Proof.Machine

/-- One engine step of `PSEC` (R194). -/
def psecBody (c : Config) (fin : State → State) (s : State) : State :=
  need .peer (s.input .peer) s fun peer =>
  need .mk s.derived.mk s fun mk =>
    match s.seq.phase with
    | .operands => enterDerive peer s
    | .loop | .commit =>
      deriveLoop c mk 64 (fun b => fin { s with derived := { s.derived with ps := some b } }) s

/-- The engine step of `ECRED` (R195): all bytes of `PS` enter the reduction. -/
def ecredBody (fin : State → State) (s : State) : State :=
  need .ps s.derived.ps s fun ps =>
    fin { s with derived := { s.derived with ecd := some (be2int ps % ecN) } }

/-- The engine step of `ECMUL` (R196): a scalar whose multiple of the generator has no coordinates is
`PointAtInfinity` (R200). -/
def ecmulBody (fin : State → State) (s : State) : State :=
  need .ecd s.derived.ecd s fun d =>
    match mulPoint d ecG with
    | .infinity => raise .pointAtInfinity s
    | .affine x y => fin { s with derived := { s.derived with qx := some x, qy := some y } }

/-- The record ECEXP writes: three fields of 32 bytes (R197). -/
def ecRecord (d x y : Nat) : EcRecord := ⟨outField d 32, outField x 32, outField y 32⟩

/-- The engine step of `ECEXP` (R197). -/
def ecexpBody (fin : State → State) (s : State) : State :=
  need .ecd s.derived.ecd s fun d =>
  need .qx s.derived.qx s fun x =>
  need .qy s.derived.qy s fun y =>
    fin { s with out := .ec (ecRecord d x y) }

/-- `PSEC` (R194). -/
def psec (c : Config) (s : State) : State := commandOf .psec (psecBody c complete) s

/-- `ECRED` (R195). -/
def ecred (s : State) : State := commandOf .ecred (ecredBody complete) s

/-- `ECMUL` (R196). -/
def ecmul (s : State) : State := commandOf .ecmul (ecmulBody complete) s

/-- `ECEXP` (R197). -/
def ecexp (s : State) : State := commandOf .ecexp (ecexpBody complete) s

def execPsec (s : State) : Host.Outcome State Fault Refusal := .next (psec Config.platform s)

def execEcred (s : State) : Host.Outcome State Fault Refusal := .next (ecred s)

def execEcmul (s : State) : Host.Outcome State Fault Refusal := .next (ecmul s)

def execEcexp (s : State) : Host.Outcome State Fault Refusal := .next (ecexp s)

end Sys2Proof.Machine
end

