-- ==== Sys2Proof/Machine/MasterKey.lean ====
section
/-! DEFINITION. Master key derivation (42_master_key.md R150). -/

namespace Sys2Proof.Machine

/-- The domain separator `"signature"`: nine ASCII bytes, no terminator (R150). -/
def signatureSuffix : Bytes := [0x73, 0x69, 0x67, 0x6E, 0x61, 0x74, 0x75, 0x72, 0x65]

/-- One engine step of `MKEY` (R150); `fin` is `complete`, or the advance of GEN's microsequence (R217). -/
def mkeyBody (c : Config) (fin : State → State) (s : State) : State :=
  need .seed (s.input .seed) s fun seed =>
  need .did (s.input .did) s fun did =>
    match s.seq.phase with
    | .operands => enterDerive (did ++ signatureSuffix) s
    | .loop | .commit =>
      deriveLoop c seed 64 (fun b => fin { s with derived := { s.derived with mk := some b } }) s

/-- `MKEY` (R150). -/
def mkey (c : Config) (s : State) : State := commandOf .mkey (mkeyBody c complete) s

def execMkey (s : State) : Host.Outcome State Fault Refusal := .next (mkey Config.platform s)

end Sys2Proof.Machine
end

