-- ==== Sys2Proof/Machine/PrimeSearch.lean ====
section
/-! DEFINITION. The deterministic prime search: candidates (43_prime_search.md R156, R157) and searches (R160 to R163). -/

namespace Sys2Proof.Machine

/-- One engine step of `PGEN` (R156). -/
def pgenBody (c : Config) (fin : State → State) (s : State) : State :=
  need .peer (s.input .peer) s fun peer =>
  need .mk s.derived.mk s fun mk =>
    match s.seq.phase with
    | .operands =>
      if keySizeLegal c s.keySize.toNat then
        enterDerive peer { s with derived := { s.derived with lb := some (s.keySize.toNat / 16) } }
      else raise .invalidKeySize s
    | .loop | .commit =>
      need .lb s.derived.lb s fun l =>
        deriveLoop c mk l (fun b => fin { s with derived := { s.derived with pbase := some b } }) s

/-- One engine step of `QGEN` (R157): keyed by the unforced `PBASE`, the message `PEER`, the length `LB`. -/
def qgenBody (c : Config) (fin : State → State) (s : State) : State :=
  need .peer (s.input .peer) s fun peer =>
  need .pbase s.derived.pbase s fun pbase =>
  need .lb s.derived.lb s fun l =>
    match s.seq.phase with
    | .operands => enterDerive peer s
    | .loop | .commit =>
      deriveLoop c pbase l (fun b => fin { s with derived := { s.derived with qbase := some b } }) s

/-- Which of the two searches (R160, R161). -/
inductive Which where
  | p
  | q
deriving DecidableEq, Repr

/-- The `which` of `PrimeSearchExhausted(which)` (R160, R161). -/
def Which.info (w : Which) : Byte :=
  match w with
  | .p => 0
  | .q => 1

/-- The register of the search's raw candidate bytes. -/
def Which.baseReg (w : Which) : Reg :=
  match w with
  | .p => .pbase
  | .q => .qbase

/-- `x[PBASE]` or `x[QBASE]`. -/
def Which.base (w : Which) (d : Derived) : Option Bytes :=
  match w with
  | .p => d.pbase
  | .q => d.qbase

/-- `x[P] <- v` or `x[Q] <- v`. -/
def Which.storePrime (w : Which) (v : Nat) (d : Derived) : Derived :=
  match w with
  | .p => { d with p := some v }
  | .q => { d with q := some v }

/-- `ITERP <- 0` or `ITERQ <- 0` (R246). -/
def Which.zeroCounter (w : Which) (k : Counters) : Counters :=
  match w with
  | .p => { k with iterP := 0 }
  | .q => { k with iterQ := 0 }

/-- One more rejected candidate (R246). -/
def Which.bumpCounter (w : Which) (k : Counters) : Counters :=
  match w with
  | .p => { k with iterP := satInc k.iterP }
  | .q => { k with iterQ := satInc k.iterQ }

/-- The lines before the loop: `CAND <- CAND0(b); TESTS <- 0; ITERx <- 0` (R160). -/
def enterSearch (w : Which) (b : Bytes) (s : State) : State :=
  { s with
    derived := { s.derived with cand := some (cand0 b) }
    seq := { s.seq with tests := 0, phase := .loop }
    counters := w.zeroCounter s.counters }

/-- Does the search end in `PrimeSearchExhausted` at this number of rejections (R162, R163)? -/
def capReached (c : Config) (tests : Nat) : Bool :=
  match c.iterCap with
  | none => false
  | some k => decide (k ≤ tests)

/-- The lines after a rejected candidate (R162): the addition is exact, with unbounded carry. `OVF` is set here already, when
a candidate first reaches `256^len(b)` (R164, D14; that D14's moment is this step is log entry 15). -/
def rejectCandidate (c : Config) (w : Which) (v : Nat) (b : Bytes) (s : State) : State :=
  let t := { s with
    seq := { s.seq with tests := s.seq.tests + 1 }
    counters := if c.hasCounters then w.bumpCounter s.counters else s.counters }
  if capReached c t.seq.tests then raise (.primeSearchExhausted w.info) t
  else noteOverflow (v + 2) b { t with derived := { t.derived with cand := some (v + 2) } }

/-- One oracle test (R162). -/
def testCandidate (c : Config) (w : Which) (v : Nat) (b : Bytes) (s : State) : State :=
  if c.primeOracle v then { s with seq := { s.seq with phase := .commit } } else rejectCandidate c w v b s

/-- The lines after the loop: store the prime, note an overflow, invalidate `CAND` (R160, R164). In a run the overflow of a
result is noted already, when the candidate reached its width. -/
def storeResult (w : Which) (v : Nat) (b : Bytes) (s : State) : State :=
  noteOverflow v b { s with derived := { w.storePrime v s.derived with cand := none } }

/-- One engine step of a search (R160, R161, R162): the raw bytes are read, never written (R171). -/
def searchBody (c : Config) (w : Which) (fin : State → State) (s : State) : State :=
  need w.baseReg (w.base s.derived) s fun b =>
    match s.seq.phase with
    | .operands => enterSearch w b s
    | .loop => need .cand s.derived.cand s fun v => testCandidate c w v b s
    | .commit => need .cand s.derived.cand s fun v => fin (storeResult w v b s)

/-- `PGEN` (R156). -/
def pgen (c : Config) (s : State) : State := commandOf .pgen (pgenBody c complete) s

/-- `QGEN` (R157). -/
def qgen (c : Config) (s : State) : State := commandOf .qgen (qgenBody c complete) s

/-- `PSRCH` (R160). -/
def psrch (c : Config) (s : State) : State := commandOf .psrch (searchBody c .p complete) s

/-- `QSRCH` (R161). -/
def qsrch (c : Config) (s : State) : State := commandOf .qsrch (searchBody c .q complete) s

def execPgen (s : State) : Host.Outcome State Fault Refusal := .next (pgen Config.platform s)

def execQgen (s : State) : Host.Outcome State Fault Refusal := .next (qgen Config.platform s)

def execPsrch (s : State) : Host.Outcome State Fault Refusal := .next (psrch Config.platform s)

def execQsrch (s : State) : Host.Outcome State Fault Refusal := .next (qsrch Config.platform s)

end Sys2Proof.Machine
end

