-- ==== Sys2Proof/Machine/Generate.lean ====
section
/-! DEFINITION. GEN, the whole derivation (46_dispatch_control.md R215), its microsequences (R217, R218) and SCRUB (R219). -/

namespace Sys2Proof.Machine

/-- The elements of the microsequences: eleven commands, and `SCRUB`, which has no opcode (R217 to R219). -/
inductive Element where
  | mkey | pgen | psrch | qgen | qsrch | rsaasm | rsaexp
  | psec | ecred | ecmul | ecexp
  | scrub
deriving DecidableEq, Repr

/-- `SEQ.SUB` while an element runs: its opcode (R36). SCRUB has none, and stands under GEN's own (log entry 9). -/
def Element.sub (e : Element) : Byte :=
  match e with
  | .mkey => opcode .mkey
  | .pgen => opcode .pgen
  | .psrch => opcode .psrch
  | .qgen => opcode .qgen
  | .qsrch => opcode .qsrch
  | .rsaasm => opcode .rsaasm
  | .rsaexp => opcode .rsaexp
  | .psec => opcode .psec
  | .ecred => opcode .ecred
  | .ecmul => opcode .ecmul
  | .ecexp => opcode .ecexp
  | .scrub => opcode .gen

/-- The microsequence of a key type; its first element runs at `pc = 1` (R217, R218). -/
def microsequence (k : Kind) : List Element :=
  match k with
  | .rsa => [.mkey, .pgen, .psrch, .qgen, .qsrch, .rsaasm, .rsaexp, .scrub]
  | .ec => [.mkey, .psec, .ecred, .ecmul, .ecexp, .scrub]

/-- The element at a sequencer index, when there is one. -/
def elementAt (k : Kind) (pc : BitVec 4) : Option Element :=
  if pc = 0 then none else (microsequence k)[pc.toNat - 1]?

/-- `pc <- k` (R18): the element there runs next, from its operand checks on. Past the sequence's end `SUB` is GEN's
opcode. -/
def setPc (k : Kind) (pc : BitVec 4) (s : State) : State :=
  { s with seq := { s.seq with
    gidx := pc
    sub := ((elementAt k pc).map Element.sub).getD (opcode .gen)
    phase := .operands } }

/-- `pc <- pc + 1`, what stands for `complete` at an element's end (R217). -/
def advancePc (k : Kind) (s : State) : State := setPc k (s.seq.gidx + 1) s

/-- `SCRUB` (R219). -/
def scrubBody (fin : State → State) (s : State) : State := fin { s with derived := Derived.invalid }

/-- One engine step of an element, exactly as its own rule says (R217). -/
def elementBody (c : Config) (e : Element) (fin : State → State) (s : State) : State :=
  match e with
  | .mkey => mkeyBody c fin s
  | .pgen => pgenBody c fin s
  | .psrch => searchBody c .p fin s
  | .qgen => qgenBody c fin s
  | .qsrch => searchBody c .q fin s
  | .rsaasm => rsaasmBody fin s
  | .rsaexp => rsaexpBody fin s
  | .psec => psecBody c fin s
  | .ecred => ecredBody fin s
  | .ecmul => ecmulBody fin s
  | .ecexp => ecexpBody fin s
  | .scrub => scrubBody fin s

/-- The checks after the clearing, in the order of R215 (R239), and `pc <- 1`. -/
def genChecks (c : Config) (s : State) : State :=
  need .ktype (s.input .ktype) s fun t =>
    match matchKeyType t with
    | none => raise (.unsupportedKeyType t.length) s
    | some k =>
      need .seed (s.input .seed) s fun _ =>
      need .did (s.input .did) s fun _ =>
      need .peer (s.input .peer) s fun _ =>
        if k = .rsa ∧ keySizeLegal c s.keySize.toNat = false then raise .invalidKeySize s
        else setPc k 1 s

/-- One engine step of a running microsequence: the element at `pc`, or `complete` after the last (R215). The inputs
cannot change while `BUSY = 1` (R84), so the key type is what it was at the start. -/
def genElement (c : Config) (s : State) : State :=
  need .ktype (s.input .ktype) s fun t =>
    match matchKeyType t with
    | none => raise (.unsupportedKeyType t.length) s
    | some k =>
      match elementAt k s.seq.gidx with
      | none => complete s
      | some e => elementBody c e (advancePc k) s

/-- One engine step of `GEN` (R215): at `pc = 0` everything CLR does and the checks, then the microsequence. -/
def genBody (c : Config) (s : State) : State :=
  if s.seq.gidx = 0 then genChecks c (clearDerivedState s) else genElement c s

/-- `GEN` (R215). -/
def gen (c : Config) (s : State) : State := commandOf .gen (genBody c) s

def execGen (s : State) : Host.Outcome State Fault Refusal := .next (gen Config.platform s)

end Sys2Proof.Machine
end

