-- ==== Sys2Proof/Machine/Lifecycle.lean ====
section
/-! DEFINITION. CLR and WIPE, performed inside the accepting host step (46_dispatch_control.md R220, R222). -/

namespace Sys2Proof.Machine

/-- `CLR` (R220). While a command runs its word is dropped (R84, R107). -/
def clr (s : State) : State :=
  if s.flags.busy then dropWrite s else clearDerivedState (latchCommand .clr s)

/-- `WIPE` (R222). The state after it is the reset state but for `CUR`, so `SEQ.SUB` is 0 too (log entry 10). -/
def wipe (s : State) : State :=
  if s.flags.busy then dropWrite s
  else
    let t := clearInputs (clearDerivedState (latchCommand .wipe s))
    { t with seq := { t.seq with sub := 0x00 } }

def execClr (s : State) : Host.Outcome State Fault Refusal := .next (clr s)

def execWipe (s : State) : Host.Outcome State Fault Refusal := .next (wipe s)

end Sys2Proof.Machine
end

