-- ==== Sys2Proof/Machine/Dispatch.lean ====
section
/-! DEFINITION. `exec`: one arm per command, each one call of its meaning. -/

namespace Sys2Proof.Machine

def exec (i : Instr) (s : State) : Host.Outcome State Fault Refusal :=
  match i with
  | .clr => Sys2Proof.Machine.execClr s
  | .wipe => Sys2Proof.Machine.execWipe s
  | .mkey => Sys2Proof.Machine.execMkey s
  | .psec => Sys2Proof.Machine.execPsec s
  | .pgen => Sys2Proof.Machine.execPgen s
  | .qgen => Sys2Proof.Machine.execQgen s
  | .psrch => Sys2Proof.Machine.execPsrch s
  | .qsrch => Sys2Proof.Machine.execQsrch s
  | .rsaasm => Sys2Proof.Machine.execRsaasm s
  | .rsaexp => Sys2Proof.Machine.execRsaexp s
  | .ecred => Sys2Proof.Machine.execEcred s
  | .ecmul => Sys2Proof.Machine.execEcmul s
  | .ecexp => Sys2Proof.Machine.execEcexp s
  | .gen => Sys2Proof.Machine.execGen s

end Sys2Proof.Machine
end

