-- ==== Sys2Proof/Machine/HostPort.lean ====
section
/-! DEFINITION. Host accesses to the register space (20_memory.md), acceptance of a command word (30_encoding.md R107), the engine's turn, reset (70_reset_and_hazards.md R260), and the machine's step over them. -/

namespace Sys2Proof.Machine

/-! ## The address map -/

/-- What stands at an aligned offset (R71). -/
inductive Loc where
  | cmd
  | status
  | err
  | keySize
  | len (b : Buf)
  | iterP
  | iterQ
  | rounds
  | outKind
  | outL
  | bytes (b : Buf)
  | outWindow
  | unmapped
deriving DecidableEq, Repr

/-- Is the offset one of the bytes of a buffer, whose extent is its capacity (R71, R78)? -/
def Buf.holds (c : Config) (b : Buf) (off : Nat) : Bool :=
  decide (b.base ≤ off) && decide (off < b.base + b.capacity c)

/-- The 32-bit registers by offset (R71). -/
def registerMap : List (Nat × Loc) := [
  (0x0000, .cmd), (0x0004, .status), (0x0008, .err), (0x000C, .keySize),
  (0x0010, .len .seed), (0x0014, .len .did), (0x0018, .len .peer), (0x001C, .len .ktype),
  (0x0020, .iterP), (0x0024, .iterQ), (0x0028, .rounds), (0x002C, .outKind), (0x0030, .outL)]

/-- The register at an offset, if any. -/
def registerAt (off : Nat) : Option Loc := (registerMap.find? fun r => r.1 == off).map fun r => r.2

/-- The buffer that holds an offset, if any. -/
def bufferAt (c : Config) (off : Nat) : Option Buf :=
  [Buf.seed, Buf.did, Buf.peer, Buf.ktype].find? fun b => b.holds c off

/-- Is the offset in one of the two windows of `OUT` (R71)? The reserved 0x1C00 to 0x1FFF between them is in neither
(R71, R74; R85's own range takes it in: log entry 11). -/
def inOutWindow (off : Nat) : Bool :=
  (decide (0x1000 ≤ off) && decide (off ≤ 0x1BFF)) || (decide (0x2000 ≤ off) && decide (off ≤ 0x2FFF))

/-- The address map (R71). -/
def locate (c : Config) (off : Nat) : Loc :=
  match registerAt off with
  | some l => l
  | none =>
    match bufferAt c off with
    | some b => .bytes b
    | none => if inOutWindow off then .outWindow else .unmapped

/-! ## The output windows -/

/-- A slot of an output window: base, size, and the bytes of the field in it (R82, R83). -/
structure Slot where
  base : Nat
  size : Nat
  field : Bytes
deriving DecidableEq, Repr

/-- The slots the current record fills, raw (R82) and text (R83). -/
def Out.slots (o : Out) : List Slot :=
  match o with
  | .none => []
  | .rsa r =>
    [⟨0x1000, 0x10, r.e.raw⟩, ⟨0x1200, 0x200, r.n.raw⟩, ⟨0x1400, 0x200, r.d.raw⟩, ⟨0x1600, 0x100, r.p.raw⟩,
     ⟨0x1700, 0x100, r.q.raw⟩, ⟨0x1800, 0x100, r.dp.raw⟩, ⟨0x1900, 0x100, r.dq.raw⟩, ⟨0x1A00, 0x100, r.qi.raw⟩,
     ⟨0x2000, 0x10, r.e.txt⟩, ⟨0x2100, 0x300, r.n.txt⟩, ⟨0x2400, 0x300, r.d.txt⟩, ⟨0x2700, 0x180, r.p.txt⟩,
     ⟨0x2880, 0x180, r.q.txt⟩, ⟨0x2A00, 0x180, r.dp.txt⟩, ⟨0x2B80, 0x180, r.dq.txt⟩, ⟨0x2D00, 0x180, r.qi.txt⟩]
  | .ec r =>
    [⟨0x1B00, 0x20, r.d.raw⟩, ⟨0x1B20, 0x20, r.x.raw⟩, ⟨0x1B40, 0x20, r.y.raw⟩,
     ⟨0x2E80, 0x40, r.d.txt⟩, ⟨0x2EC0, 0x40, r.x.txt⟩, ⟨0x2F00, 0x40, r.y.txt⟩]

/-- The byte a slot holds at an offset, if any. -/
def Slot.byteAt (sl : Slot) (off : Nat) : Option Byte :=
  if sl.base ≤ off ∧ off < sl.base + sl.size then sl.field[off - sl.base]? else none

/-- The byte the record holds at an offset, if any: `OUT.raw[f][i]` at `base(f) + i`, `OUT.txt[f][i]` at
`tbase(f) + i`. -/
def Out.byteAt (o : Out) (off : Nat) : Option Byte := o.slots.findSome? fun sl => sl.byteAt off

/-- `OUT.KIND` as `OUTKIND` shows it (R71). -/
def Out.kindCode (o : Out) : Word :=
  match o with
  | .none => 0
  | .rsa _ => 1
  | .ec _ => 2

/-- `OUT.L`: 0 for EC and for NONE (R34, R41). -/
def Out.l (o : Out) : Nat :=
  match o with
  | .none => 0
  | .rsa r => r.l
  | .ec _ => 0

/-- The record as the host may see it. While a command runs there is none: a result is read only after completion, and
`OUT`, an older record too, reads as no value until then (R265, D22; the point R84 and R85 leave to them is log
entry 22). -/
def State.shownOut (s : State) : Out := if s.flags.busy then .none else s.out

/-! ## Reads -/

/-- Four consecutive bytes on a bus word, the lowest offset in bits 7:0 (R73). -/
def laneWord (b0 b1 b2 b3 : Byte) : Word := b3 ++ b2 ++ b1 ++ b0

/-- The word of an input array at an offset; a byte beyond the capacity does not exist and reads 0 (R78). -/
def bufferWord (s : State) (off : Nat) : Word :=
  laneWord (Memory.read s.mem off) (Memory.read s.mem (off + 1)) (Memory.read s.mem (off + 2))
    (Memory.read s.mem (off + 3))

/-- The word of an output window: the field bytes, 0 in the other lanes (R85). -/
def outWord (o : Out) (off : Nat) : Word :=
  laneWord ((o.byteAt off).getD 0) ((o.byteAt (off + 1)).getD 0) ((o.byteAt (off + 2)).getD 0)
    ((o.byteAt (off + 3)).getD 0)

/-- Does the word contain at least one field byte (R85)? -/
def outHasByte (o : Out) (off : Nat) : Bool :=
  (o.byteAt off).isSome || (o.byteAt (off + 1)).isSome || (o.byteAt (off + 2)).isSome || (o.byteAt (off + 3)).isSome

/-- A counter as the host reads it: 0 where there are none (R246). -/
def counterWord (c : Config) (w : Word) : Word := if c.hasCounters then w else 0

/-- The word `MemRead` returns (R71, R77). `CMD`, the seed and unmapped offsets read 0 (R43, R79, R74). Of `OUT` the host
sees `State.shownOut`, in the windows and in `OUTKIND` and `OUTL` (log entry 22). -/
def readWord (c : Config) (off : Nat) (s : State) : Word :=
  match locate c off with
  | .cmd => 0
  | .status => statusWord s
  | .err => errWord s.err
  | .keySize => s.keySize
  | .len b => (s.inputReg b).len
  | .iterP => counterWord c s.counters.iterP
  | .iterQ => counterWord c s.counters.iterQ
  | .rounds => counterWord c s.counters.rounds
  | .outKind => s.shownOut.kindCode
  | .outL => BitVec.ofNat 32 s.shownOut.l
  | .bytes .seed => 0
  | .bytes _ => bufferWord s off
  | .outWindow => outWord s.shownOut off
  | .unmapped => 0

/-- The one side effect of reading: a valueless `OUT` word sets `RDERR` (R77, R85), any of them while a command runs
(R265, D22). -/
def readEffect (c : Config) (off : Nat) (s : State) : State :=
  if locate c off = .outWindow ∧ outHasByte s.shownOut off = false then
    { s with flags := { s.flags with rdErr := true } }
  else s

/-- The host keeps the word its read returned. -/
def returnWord (w : Word) (s : State) : State := { s with host := { s.host with rdata := some w } }

/-- `MemRead(off, 4)` (R72, R77, R84). -/
def hostRead (c : Config) (off : Nat) (s : State) : State :=
  returnWord (readWord c off s) (readEffect c off s)

/-! ## Writes -/

/-- One lane of a write to an input array; a byte beyond the capacity does not exist (R78). -/
def storeLane (c : Config) (b : Buf) (off : Nat) (v : Byte) (m : List Host.Cell) : List Host.Cell :=
  if b.holds c off then Memory.write m off v else m

/-- A write to an input array: four bytes by the lanes of R73 (R78). -/
def writeBytes (c : Config) (b : Buf) (off : Nat) (v : Word) (s : State) : State :=
  { s with mem :=
    storeLane c b (off + 3) (v.extractLsb' 24 8) <| storeLane c b (off + 2) (v.extractLsb' 16 8) <|
      storeLane c b (off + 1) (v.extractLsb' 8 8) <| storeLane c b off (v.extractLsb' 0 8) s.mem }

/-- A write to a length register: kept, and the input valid, when it is at most the capacity; else dropped (R80). -/
def writeLength (c : Config) (b : Buf) (v : Word) (s : State) : State :=
  if v.toNat ≤ b.capacity c then s.setInputReg b ⟨v, true⟩ else dropWrite s

/-- The words CLR and WIPE, which alone are accepted in the fault state (R107, R241). -/
def leavesFault (w : Word) : Bool := w == encode .clr || w == encode .wipe

/-- `MemWrite(CMD, 4, W)` at an idle engine, in the order of R107; `run` is the first step of an accepted command. -/
def writeCommand (run : Instr → State → Host.Outcome State Fault Refusal) (w : Word) (s : State) :
    Host.Outcome State Fault Refusal :=
  if s.flags.fault ∧ leavesFault w = false then .next (dropWrite s)
  else
    match decode w with
    | none =>
      .next (raise (.illegalCommand (opcField w))
        { s with flags := { s.flags with done := false }, seq := { s.seq with cur := opcField w } })
    | some i => run i s

/-- `MemWrite(off, 4, v)`: dropped while a command runs (R84), dropped at a read-only or unmapped offset (R74). -/
def hostWrite (c : Config) (run : Instr → State → Host.Outcome State Fault Refusal) (off : Nat) (v : Word)
    (s : State) : Host.Outcome State Fault Refusal :=
  if s.flags.busy then .next (dropWrite s)
  else
    match locate c off with
    | .cmd => writeCommand run v s
    | .keySize => .next { s with keySize := v }
    | .len b => .next (writeLength c b v s)
    | .bytes b => .next (writeBytes c b off v s)
    | .status | .err | .iterP | .iterQ | .rounds | .outKind | .outL | .outWindow | .unmapped => .next (dropWrite s)

/-! ## Turns and moves -/

/-- The engine's turn: while `BUSY = 1`, one step of the command that `SEQ.CUR` names; else nothing (R12, R221). -/
def engineTurn (run : Instr → State → Host.Outcome State Fault Refusal) (s : State) :
    Host.Outcome State Fault Refusal :=
  if s.flags.busy then
    match decode (wordOfOpcode s.seq.cur) with
    | some i => run i s
    | none => .fault (.noCommandRunning s.seq.cur)
  else .next s

/-- The reset event: the engine in the state of R41; the host's port is not the engine's (R260). -/
def resetEvent (s : State) : State := { State.reset with host := s.host }

/-- An access that is no move of the host agent (R72, R74). -/
def accessFault (off : Nat) : Option Fault :=
  if off % 4 ≠ 0 then some (.misalignedAccess off)
  else if 0x3FFC < off then some (.outsideSpace off)
  else none

/-- One move. `s` is the state with the move taken off the script, `again` the state with it still there: a poll that
finds `BUSY = 1` is made again after the engine's next step (R106). The number
of `WAIT`'s polls is not defined (95_test_vectors.md section 3, R270): that a poll and an engine step alternate, and that a poll
which finds `BUSY = 1` leaves no word with the host (`host.rdata` keeps the earlier one until the last poll's), is the model's
choice (log entry 3). -/
def hostMove (c : Config) (run : Instr → State → Host.Outcome State Fault Refusal) (m : HostMove) (again s : State) :
    Host.Outcome State Fault Refusal :=
  match m with
  | .read off =>
    match accessFault off with
    | some f => .fault f
    | none => .next (hostRead c off s)
  | .write off v =>
    match accessFault off with
    | some f => .fault f
    | none => hostWrite c run off v s
  | .wait => if s.flags.busy then engineTurn run again else .next (hostRead c 0x0004 s)
  | .yield => engineTurn run s
  | .reset => .next (resetEvent s)

/-- The step of the whole machine: the host's next move; with none left, the engine's turn. -/
def machineStep (c : Config) (run : Instr → State → Host.Outcome State Fault Refusal) (s : State) :
    Host.Outcome State Fault Refusal :=
  match s.host.script with
  | [] => engineTurn run s
  | m :: rest => hostMove c run m s { s with host := { s.host with script := rest } }

/-- A state whose host makes the given move next. -/
def State.withMove (m : HostMove) (s : State) : State :=
  { s with host := { s.host with script := m :: s.host.script } }

end Sys2Proof.Machine
end

