-- ==== Sys2Proof/Machine/Step.lean ====
section
/-! DEFINITION. The machine's step, and a state whose next step runs a given command word. -/

namespace Sys2Proof.Machine

/-- One step of the machine at hand: a command word the host writes is decoded and run by `exec`, and so is each
engine step of the command that runs. -/
def step (s : State) : Host.Outcome State Fault Refusal := machineStep Config.platform exec s

/-- The host writes the command word next: a command exists only as the value of one `CMD` write (R89). -/
def State.withFetchWord (s : State) (nbits w : Nat) : State :=
  s.withMove (.write 0x0000 (BitVec.ofNat 32 (w % 2 ^ nbits)))

end Sys2Proof.Machine
end

