-- ==== Sys2Proof/Machine/Command.lean ====
section
/-! DEFINITION. The next step of a command under a given configuration: what `exec` answers, with the OPEN parameters as an argument (00_scope.md R6). -/

namespace Sys2Proof.Machine

/-- The next step of command `i` under configuration `c`. `exec i s` is this at `Config.platform`. -/
def commandStep (c : Config) (i : Instr) (s : State) : State :=
  match i with
  | .clr => clr s
  | .wipe => wipe s
  | .mkey => mkey c s
  | .psec => psec c s
  | .pgen => pgen c s
  | .qgen => qgen c s
  | .psrch => psrch c s
  | .qsrch => qsrch c s
  | .rsaasm => rsaasm s
  | .rsaexp => rsaexp s
  | .ecred => ecred s
  | .ecmul => ecmul s
  | .ecexp => ecexp s
  | .gen => gen c s

/-- `n` steps of command `i` with no host move between them. -/
def commandSteps (c : Config) (i : Instr) : Nat → State → State
  | 0, s => s
  | n + 1, s => commandSteps c i n (commandStep c i s)

end Sys2Proof.Machine
end

