-- ==== Sys2Proof/Machine/Script.lean ====
section
/-! DEFINITION. Host scripts: the lines of 30_encoding.md R105, R106 and their expansion into the host's moves. -/

namespace Sys2Proof.Machine

/-- A line of a host script (R105, R106). `EXPECT` is a statement and no access. -/
inductive ScriptLine where
  /-- `LOAD buf, bytes`. -/
  | load (b : Buf) (v : Bytes)
  /-- `SET KEYSIZE, v`. -/
  | setKeySize (v : Word)
  /-- A command mnemonic. -/
  | command (i : Instr)
  /-- `WAIT`. -/
  | wait
deriving DecidableEq, Repr

/-- The offset of a buffer's length register (R71). -/
def Buf.lenOffset (b : Buf) : Nat :=
  match b with
  | .seed => 0x0010
  | .did => 0x0014
  | .peer => 0x0018
  | .ktype => 0x001C

/-- The word writes of `LOAD` from an offset on: four bytes a word by the lanes of R73, missing bytes as 0 (R106). -/
def loadWords : Nat → Bytes → List HostMove
  | _, [] => []
  | off, [x] => [.write off (laneWord x 0 0 0)]
  | off, [x, y] => [.write off (laneWord x y 0 0)]
  | off, [x, y, z] => [.write off (laneWord x y z 0)]
  | off, x :: y :: z :: w :: rest => .write off (laneWord x y z w) :: loadWords (off + 4) rest

/-- The host accesses a script line stands for (R106). -/
def ScriptLine.expand (l : ScriptLine) : List HostMove :=
  match l with
  | .load b v => loadWords b.base v ++ [.write b.lenOffset (BitVec.ofNat 32 v.length)]
  | .setKeySize v => [.write 0x000C v]
  | .command i => [.write 0x0000 (encode i)]
  | .wait => [.wait]

/-- A state whose host runs the script next. -/
def State.withScript (s : State) (ls : List ScriptLine) : State :=
  { s with host := { s.host with script := (ls.map ScriptLine.expand).flatten ++ s.host.script } }

end Sys2Proof.Machine
end

