-- ==== Sys2Proof/Safety.lean ====
section
/-! DEFINITION. The terms claims are stated in: runs of one command, the end of a run (00_scope.md R13), the machine's invariants, agreement of two states. -/

namespace Sys2Proof.Machine

/-! ## Runs of one command -/

/-- Engine steps of command `i`, as `exec` gives them, from `s` to the first state with `BUSY = 0` (R13). -/
inductive EngineRun (i : Instr) : State → State → Prop where
  | idle (s : State) : s.flags.busy = false → EngineRun i s s
  | turn (s u t : State) : s.flags.busy = true → exec i s = .next u → EngineRun i u t → EngineRun i s t

/-- The run of command `i` from `s` ends in `t`: one `exec i`, then engine steps to the first state with `BUSY = 0`
(R13). -/
def Completes (i : Instr) (s t : State) : Prop :=
  ∃ u, exec i s = .next u ∧ EngineRun i u t

/-- The same engine steps under configuration `c`. -/
inductive EngineRunWith (c : Config) (i : Instr) : State → State → Prop where
  | idle (s : State) : s.flags.busy = false → EngineRunWith c i s s
  | turn (s t : State) : s.flags.busy = true → EngineRunWith c i (commandStep c i s) t → EngineRunWith c i s t

/-- The run of command `i` from `s` under configuration `c` ends in `t`. At `Config.platform` it is `Completes`, because
`exec i s` is `commandStep Config.platform i s`. -/
def RunsTo (c : Config) (i : Instr) (s t : State) : Prop :=
  EngineRunWith c i (commandStep c i s) t

/-- A host script of commands with a `WAIT` after each (R106, R225) leads from `s` to `t`. A command the engine drops
changes `DROP` alone, and the next one follows. -/
def ScriptRunsTo (c : Config) : List Instr → State → State → Prop
  | [], s, t => t = s
  | i :: is, s, t => ∃ u, RunsTo c i s u ∧ ScriptRunsTo c is u t

/-- The step commands of a key type's script, `CLR` first (R225). -/
def stepScript (k : Kind) : List Instr :=
  match k with
  | .rsa => [.clr, .mkey, .pgen, .psrch, .qgen, .qsrch, .rsaasm, .rsaexp]
  | .ec => [.clr, .mkey, .psec, .ecred, .ecmul, .ecexp]

/-- The sources of a step command with their valid bits, in ascending index order (R31, R33: "read by"). GEN has checks
of its own (R215), CLR and WIPE read nothing. -/
def sources (i : Instr) (s : State) : List (Reg × Bool) :=
  match i with
  | .clr | .wipe | .gen => []
  | .mkey => [(.seed, s.seed.valid), (.did, s.did.valid)]
  | .psec => [(.peer, s.peer.valid), (.mk, s.derived.mk.isSome)]
  | .pgen => [(.peer, s.peer.valid), (.mk, s.derived.mk.isSome)]
  | .qgen => [(.peer, s.peer.valid), (.pbase, s.derived.pbase.isSome), (.lb, s.derived.lb.isSome)]
  | .psrch => [(.pbase, s.derived.pbase.isSome)]
  | .qsrch => [(.qbase, s.derived.qbase.isSome)]
  | .rsaasm => [(.p, s.derived.p.isSome), (.q, s.derived.q.isSome)]
  | .rsaexp =>
    [(.p, s.derived.p.isSome), (.q, s.derived.q.isSome), (.nmod, s.derived.nmod.isSome), (.dexp, s.derived.dexp.isSome),
     (.dp, s.derived.dp.isSome), (.dq, s.derived.dq.isSome), (.qi, s.derived.qi.isSome), (.lb, s.derived.lb.isSome)]
  | .ecred => [(.ps, s.derived.ps.isSome)]
  | .ecmul => [(.ecd, s.derived.ecd.isSome)]
  | .ecexp => [(.ecd, s.derived.ecd.isSome), (.qx, s.derived.qx.isSome), (.qy, s.derived.qy.isSome)]

/-- The first source whose valid bit is 0: the one `UnwrittenOperand` reports (R236). -/
def firstMissing (l : List (Reg × Bool)) : Option Reg := (l.find? fun r => !r.2).map fun r => r.1

/-- The engine is idle and not in the fault state: it accepts any command (R107). -/
def Ready (s : State) : Prop := s.flags.busy = false ∧ s.flags.fault = false

/-- The state a successful command leaves, apart from what it computes: `DONE`, its opcode in `CUR` and `SUB`, the
sequencer cleared (R107, R221). -/
def finished (i : Instr) (s : State) : State :=
  { s with
    flags := { s.flags with busy := false, done := true }
    seq := { s.seq.cleared with cur := opcode i, sub := opcode i } }

/-- The state a command that raises `f` leaves, apart from counters and `OVF`: fault entry under its opcode (R240). -/
def failed (i : Instr) (f : Cause) (s : State) : State :=
  raise f { s with seq := { s.seq with cur := opcode i, sub := opcode i } }

/-- `ROUNDS` after `r` more HMAC invocations, where counters are present (R246). -/
def roundsAfter (c : Config) (r : Nat) (k : Counters) : Counters :=
  if c.hasCounters then { k with rounds := satInc^[r] k.rounds } else k

/-- `ITERP` or `ITERQ` after a search that rejected `k` candidates (R160, R161, R246). -/
def iterationsAfter (c : Config) (w : Which) (k : Nat) (t : Counters) : Counters :=
  if c.hasCounters then w.bumpCounter^[k] (w.zeroCounter t) else w.zeroCounter t

/-- `SEARCH(b) = v` with `ITER(b) = k`: `v` is the first accepted candidate, after `k` rejections (R169). -/
def SearchFinds (c : Config) (b : Bytes) (k v : Nat) : Prop :=
  v = cand0 b + 2 * k ∧ c.primeOracle v = true ∧ ∀ j < k, c.primeOracle (cand0 b + 2 * j) = false

/-- No candidate from `CAND0(b)` on is ever accepted, so that `SEARCH(b)` is undefined (R169). -/
def SearchHasNoResult (c : Config) (b : Bytes) : Prop :=
  ∀ k, c.primeOracle (cand0 b + 2 * k) = false

/-- `ITER_CAP` allows `k` rejections (R163). -/
def CapAllows (c : Config) (k : Nat) : Prop :=
  ∀ cap, c.iterCap = some cap → k < cap

/-- The oracle accepts every prime (R165). -/
def OracleComplete (c : Config) : Prop := ∀ v, Nat.Prime v → c.primeOracle v = true

/-- Every number the oracle accepts is prime (R165). -/
def OracleSound (c : Config) : Prop := ∀ v, c.primeOracle v = true → Nat.Prime v

/-- Complete and sound (R165). -/
def OracleExact (c : Config) : Prop := OracleComplete c ∧ OracleSound c

/-- The command of a search (R160, R161). -/
def Which.instr (w : Which) : Instr :=
  match w with
  | .p => .psrch
  | .q => .qsrch

/-! ## Invariants -/

/-- The host's inputs are well kept: canonical cells, only at bytes that exist, lengths within the capacities (R31,
R78, R80). -/
structure StorageInv (c : Config) (s : State) : Prop where
  cells : Memory.wf s.mem = true
  mapped : ∀ a, Memory.read s.mem a ≠ 0#8 → ∃ b : Buf, b.holds c a = true
  lengths : ∀ b : Buf, (s.inputReg b).len.toNat ≤ b.capacity c

/-- What the sequencer may hold while a command runs (R36, R42, R107). -/
def RunningSeq (s : State) : Prop :=
  (∃ i : Instr, i ≠ .clr ∧ i ≠ .wipe ∧ i ≠ .gen ∧
    s.seq.cur = opcode i ∧ s.seq.sub = opcode i ∧ s.seq.gidx = 0) ∨
  (s.seq.cur = opcode .gen ∧ s.seq.gidx = 0 ∧ s.seq.sub = opcode .gen ∧ s.seq.phase = .operands) ∨
  (s.seq.cur = opcode .gen ∧ s.seq.gidx ≠ 0 ∧
    ∃ t k, s.input .ktype = some t ∧ matchKeyType t = some k ∧
      s.seq.gidx.toNat ≤ (microsequence k).length + 1 ∧
      s.seq.sub = ((elementAt k s.seq.gidx).map Element.sub).getD (opcode .gen))

/-- The command lifecycle: `BUSY`, `DONE` and `FAULT` exclude each other, `ERR` shows a fault exactly in the fault
state, an idle engine's sequencer is cleared, a running one's names a command (R36, R37, R221, R240), and an idle engine
holds a record only with `DONE = 1` (R265, R240). -/
structure LifecycleInv (s : State) : Prop where
  busyAlone : s.flags.busy = true → s.flags.done = false ∧ s.flags.fault = false
  doneAlone : s.flags.done = true → s.flags.fault = false
  errClear : s.flags.fault = false → s.err = ⟨0x00, 0x00⟩
  errSet : s.flags.fault = true → s.err.code ≠ 0x00
  idle : s.flags.busy = false → s.seq.cleared = s.seq
  running : s.flags.busy = true → RunningSeq s
  digests : s.seq.acc.length = 64 * s.seq.rnd
  resultDone : s.flags.busy = false → s.flags.done = false → s.out = .none

/-- A search under way tests the candidates in order: `CAND` is the start candidate plus twice the tests made, all of
them rejected, an accepted one is committed (R162, R170), and `OVF` is set once `CAND` has reached the width of the base
(R164, D14). -/
def SearchUnderWay (c : Config) (s : State) (v : Nat) : Prop :=
  s.flags.busy = true ∧ s.seq.phase ≠ .operands ∧
    ∃ w : Which, s.seq.sub = opcode w.instr ∧ ∃ b, w.base s.derived = some b ∧
      v = cand0 b + 2 * s.seq.tests ∧
      (∀ j < s.seq.tests, c.primeOracle (cand0 b + 2 * j) = false) ∧
      (s.seq.phase = .commit → c.primeOracle v = true) ∧
      (256 ^ b.length ≤ v → s.flags.ovf = true)

/-- A prime register holds an odd number of at least 129 that the oracle accepted (R165, R170). -/
def PrimeHeld (c : Config) (v : Option Nat) : Prop :=
  ∀ x, v = some x → x % 2 = 1 ∧ 129 ≤ x ∧ c.primeOracle x = true

/-- A byte register of prime length holds 1 to 256 bytes (R33, R155 with `KEYSIZE_MAX <= 4096`). -/
def CandidateBytesHeld (v : Option Bytes) : Prop := ∀ b, v = some b → 1 ≤ b.length ∧ b.length ≤ 256

/-- Widths and ranges of the derived registers (R33). -/
structure RegisterInv (c : Config) (s : State) : Prop where
  ofFacts ::
  mk : ∀ b, s.derived.mk = some b → b.length = 64
  ps : ∀ b, s.derived.ps = some b → b.length = 64
  pbase : CandidateBytesHeld s.derived.pbase
  qbase : CandidateBytesHeld s.derived.qbase
  lb : ∀ l, s.derived.lb = some l → 1 ≤ l ∧ l ≤ 256
  p : PrimeHeld c s.derived.p
  q : PrimeHeld c s.derived.q
  ecd : ∀ d, s.derived.ecd = some d → d < ecN
  qx : ∀ x, s.derived.qx = some x → x < ecP
  qy : ∀ y, s.derived.qy = some y → y < ecP
  cand : ∀ v, s.derived.cand = some v → SearchUnderWay c s v

/-- A field of the record: so many bytes, and their base64url text (R34, R82, R83). -/
def FieldHeld (width : Nat) (f : OutField) : Prop := f.raw.length = width ∧ f.txt = b64url f.raw

/-- The output record has the fixed widths of R177 and R197; `OUT.L` is a prime byte length (R155). -/
def OutInv (s : State) : Prop :=
  match s.out with
  | .none => True
  | .rsa r =>
    1 ≤ r.l ∧ r.l ≤ 256 ∧ r.e.raw = [0x01, 0x00, 0x01] ∧ FieldHeld 3 r.e ∧ FieldHeld (2 * r.l) r.n ∧ FieldHeld (2 * r.l) r.d ∧
      FieldHeld r.l r.p ∧ FieldHeld r.l r.q ∧ FieldHeld r.l r.dp ∧ FieldHeld r.l r.dq ∧ FieldHeld r.l r.qi
  | .ec r => FieldHeld 32 r.d ∧ FieldHeld 32 r.x ∧ FieldHeld 32 r.y

/-! ## What a command may write -/

/-- The derived registers outside `l` are the same in both (R33, R39: each is written only by the commands listed beside
it). -/
def DerivedKept (l : List Reg) (a b : Derived) : Prop :=
  (.mk ∈ l ∨ b.mk = a.mk) ∧ (.ps ∈ l ∨ b.ps = a.ps) ∧ (.pbase ∈ l ∨ b.pbase = a.pbase) ∧
    (.qbase ∈ l ∨ b.qbase = a.qbase) ∧ (.p ∈ l ∨ b.p = a.p) ∧ (.q ∈ l ∨ b.q = a.q) ∧
    (.nmod ∈ l ∨ b.nmod = a.nmod) ∧ (.dexp ∈ l ∨ b.dexp = a.dexp) ∧ (.dp ∈ l ∨ b.dp = a.dp) ∧
    (.dq ∈ l ∨ b.dq = a.dq) ∧ (.qi ∈ l ∨ b.qi = a.qi) ∧ (.ecd ∈ l ∨ b.ecd = a.ecd) ∧ (.qx ∈ l ∨ b.qx = a.qx) ∧
    (.qy ∈ l ∨ b.qy = a.qy) ∧ (.lb ∈ l ∨ b.lb = a.lb) ∧ (.cand ∈ l ∨ b.cand = a.cand)

/-- The derived registers a step command writes (R33: "written by"). -/
def destinations (i : Instr) : List Reg :=
  match i with
  | .clr | .wipe | .gen | .rsaexp | .ecexp => []
  | .mkey => [.mk]
  | .psec => [.ps]
  | .pgen => [.lb, .pbase]
  | .qgen => [.qbase]
  | .psrch => [.cand, .p]
  | .qsrch => [.cand, .q]
  | .rsaasm => [.nmod, .dexp, .dp, .dq, .qi]
  | .ecred => [.ecd]
  | .ecmul => [.qx, .qy]

/-- The record shows the string `b` in the slot at `base`: byte `i` at `base + i`, and no value beyond its end (R82,
R83). -/
def Shows (o : Out) (base size : Nat) (b : Bytes) : Prop := ∀ i < size, o.byteAt (base + i) = b[i]?

/-! ## Agreement of two states -/

/-- The same five inputs: the values of the buffers, and `KEYSIZE` (R14). -/
def SameInputs (s t : State) : Prop :=
  (∀ b : Buf, s.input b = t.input b) ∧ s.keySize = t.keySize

/-- The same state of the engine apart from the inputs' storage and the host's port. -/
def SameEngine (s t : State) : Prop :=
  s.derived = t.derived ∧ s.out = t.out ∧ s.flags = t.flags ∧ s.seq = t.seq ∧ s.err = t.err ∧ s.counters = t.counters

/-- The inputs' storage is untouched: every byte reads as before, and so do the length registers, the valid bits and
`KEYSIZE`. -/
def InputsKept (s t : State) : Prop :=
  (∀ a, Memory.read t.mem a = Memory.read s.mem a) ∧ (∀ b : Buf, t.inputReg b = s.inputReg b) ∧ t.keySize = s.keySize

end Sys2Proof.Machine
end

