-- ==== Sys2Proof/Certificates/Slice0/Obligations.lean ====
section
/-! DEFINITION. The statements for the provers, one `def Obligations.<Name> : Prop` each. A host move is stated through
`step (s.withMove m)`: the step at which the host makes move `m` in state `s`. -/

section

open Sys2Proof Sys2Proof.Machine

/-! ## Encoding and acceptance (30_encoding.md) -/

/-- A few words written out from the opcode map (R101) and from the illegal encodings (R103). -/
def Obligations.DecodeWordsFromSpec : Prop :=
  decode 0x00000001 = some .clr ∧ decode 0x00000002 = some .wipe ∧ decode 0x00000010 = some .mkey ∧
    decode 0x00000013 = some .qgen ∧ decode 0x00000014 = some .psrch ∧ decode 0x00000016 = some .rsaasm ∧
    decode 0x00000019 = some .ecmul ∧ decode 0x00000020 = some .gen ∧ decode 0x00000000 = none ∧
    decode 0x00000120 = none ∧ decode 0xFFFFFFFF = none

/-- Decoding and encoding agree on every command and on every word: no two commands share a word, no word but a
command's own decodes to it, and `WellFormed`'s check of a word is the decoder's (R100, R101, R103). -/
def Obligations.DecodeEncodeAgree : Prop :=
  (∀ i : Instr, i.wellFormed = true → decode (encode i) = some i) ∧
    (∀ (w : Word) (i : Instr), decode w = some i → w = encode i) ∧
    ∀ w : Word, commandWordOk w = (decode w).isSome

/-- R103: which words are illegal, and what one of them does at an idle engine that is not in the fault state. -/
def Obligations.IllegalWordRaises : Prop :=
  (∀ w : Word, decode w = none ↔
    (w.extractLsb' 8 24 ≠ 0 ∨ w.extractLsb' 0 8 = 0x00 ∨
      (0x03 ≤ (w.extractLsb' 0 8).toNat ∧ (w.extractLsb' 0 8).toNat ≤ 0x0F) ∨
      (0x1B ≤ (w.extractLsb' 0 8).toNat ∧ (w.extractLsb' 0 8).toNat ≤ 0x1F) ∨ 0x21 ≤ (w.extractLsb' 0 8).toNat)) ∧
  ∀ (s : State) (w : Word), Ready s → decode w = none →
    ∃ t, step (s.withMove (.write 0x0000 w)) = .next t ∧ t = raise (.illegalCommand (w.extractLsb' 0 8)) t ∧
      t.err = ⟨0x10, w.extractLsb' 0 8⟩ ∧ t.seq.cur = w.extractLsb' 0 8 ∧ InputsKept s t ∧
      t.counters = s.counters ∧ t.flags.ovf = s.flags.ovf ∧ t.flags.drop = s.flags.drop ∧ t.flags.rdErr = s.flags.rdErr

/-- R107: the order in which a write to `CMD` is judged, and what acceptance does. For CLR and WIPE, performed in the
same step, see `ClrDiscards` and `WipeRestoresReset`. That a new command starts at the model's phase `operands` is the
model's own (log entry 2). -/
def Obligations.CommandWriteOrder : Prop :=
  (∀ (s : State) (w : Word), step (s.withMove (.write 0x0000 w)) =
    if s.flags.busy = true then .next (dropWrite s)
    else if s.flags.fault = true ∧ w ≠ 0x00000001 ∧ w ≠ 0x00000002 then .next (dropWrite s)
    else match decode w with
      | none => .next (raise (.illegalCommand (w.extractLsb' 0 8)) { s with
          flags := { s.flags with done := false }, seq := { s.seq with cur := w.extractLsb' 0 8 } })
      | some i => exec i s) ∧
  ∀ (i : Instr) (s : State), i ≠ .clr → i ≠ .wipe → Ready s →
    exec i s = .next { s with
      flags := { s.flags with busy := true, done := false }
      seq := { s.seq with cur := opcode i, sub := opcode i, gidx := 0, phase := .operands } }

/-- A step runs the decoded instruction, and no instruction ever stops: a command word the host writes at an idle engine, the word
`State.withFetchWord` places, and, while `BUSY = 1`, the command `SEQ.CUR` names. An idle engine's turn changes nothing,
and a poll of an idle engine reads `STATUS` (R12, R106, R107, R221; the order of host and engine moves is the model's
script, log entry 3). -/
def Obligations.StepRunsDecodedInstruction : Prop :=
  (∀ (s : State) (w : Word) (i : Instr), s.flags.busy = false → (s.flags.fault = false ∨ i = .clr ∨ i = .wipe) →
    decode w = some i →
    step (s.withMove (.write 0x0000 w)) = exec i s ∧ step (s.withFetchWord 32 w.toNat) = exec i s) ∧
  (∀ (s : State) (i : Instr), s.flags.busy = true → s.seq.cur = opcode i →
    (s.host.script = [] → step s = exec i s) ∧ step (s.withMove .yield) = exec i s ∧
      step (s.withMove .wait) = exec i (s.withMove .wait)) ∧
  (∀ s : State, s.flags.busy = false →
    (s.host.script = [] → step s = .next s) ∧ step (s.withMove .yield) = .next s ∧
      step (s.withMove .wait) = step (s.withMove (.read 0x0004))) ∧
  ∀ (i : Instr) (s : State), exec i s = .next (commandStep Config.platform i s)

/-! ## Host accesses (20_memory.md) -/

/-- What a read of each register returns (R71; R43 for `CMD`, R246 for the counters, R74 for unmapped offsets, the reserved
0x1C00 to 0x1FFF among them: that these follow R71 and R74, and not the wider range of R85, is log entry 11). That `OUTKIND` and
`OUTL` show no record while `BUSY = 1` is log entry 22. -/
def Obligations.RegisterReads : Prop :=
  ∀ s : State,
    let reads := fun (off : Nat) (w : Word) => step (s.withMove (.read off)) = .next (returnWord w s)
    reads 0x0000 0 ∧ reads 0x0004 (statusWord s) ∧ reads 0x0008 (errWord s.err) ∧ reads 0x000C s.keySize ∧
      reads 0x0010 s.seed.len ∧ reads 0x0014 s.did.len ∧ reads 0x0018 s.peer.len ∧ reads 0x001C s.ktype.len ∧
      reads 0x0020 (if Config.platform.hasCounters then s.counters.iterP else 0) ∧
      reads 0x0024 (if Config.platform.hasCounters then s.counters.iterQ else 0) ∧
      reads 0x0028 (if Config.platform.hasCounters then s.counters.rounds else 0) ∧
      reads 0x002C (if s.flags.busy = true then 0 else match s.out with | .none => 0 | .rsa _ => 1 | .ec _ => 2) ∧
      reads 0x0030 (if s.flags.busy = true then 0
        else match s.out with | .none => 0 | .rsa r => BitVec.ofNat 32 r.l | .ec _ => 0) ∧
      (∀ off, off % 4 = 0 → (0x0034 ≤ off ∧ off ≤ 0x00FF) ∨ (0x0500 ≤ off ∧ off ≤ 0x0FFF) ∨
        (0x1C00 ≤ off ∧ off ≤ 0x1FFF) ∨ (0x3000 ≤ off ∧ off ≤ 0x3FFC) → reads off 0)

/-- The fields of `STATUS` and of `ERR` by their bits; the reserved bits read as 0 (R35, R37, R75). The words `ERR` shows
for the seven faults (R230), and the twenty registers' indices (R40). -/
def Obligations.StatusAndErrWords : Prop :=
  (∀ s : State,
    (statusWord s).getLsbD 0 = s.flags.busy ∧ (statusWord s).getLsbD 1 = s.flags.done ∧
      (statusWord s).getLsbD 2 = s.flags.fault ∧ (statusWord s).getLsbD 3 = s.flags.ovf ∧
      (statusWord s).getLsbD 4 = s.flags.drop ∧ (statusWord s).getLsbD 5 = s.flags.rdErr ∧
      (statusWord s).extractLsb' 6 2 = 0 ∧ (statusWord s).getLsbD 8 = s.seed.valid ∧
      (statusWord s).getLsbD 9 = s.did.valid ∧ (statusWord s).getLsbD 10 = s.peer.valid ∧
      (statusWord s).getLsbD 11 = s.ktype.valid ∧ (statusWord s).extractLsb' 12 4 = 0 ∧
      (statusWord s).extractLsb' 16 8 = s.seq.cur ∧ (statusWord s).extractLsb' 24 8 = 0) ∧
  (∀ e : Err, (errWord e).extractLsb' 0 8 = e.code ∧ (errWord e).extractLsb' 8 8 = e.info ∧
    (errWord e).extractLsb' 16 16 = 0) ∧
  (∀ n : Nat, errWord (Cause.unsupportedKeyType n).err = BitVec.ofNat 32 (0x01 + 256 * min n 255)) ∧
    (∀ info : Byte, errWord (Cause.internalArithmeticError info).err = BitVec.ofNat 32 (0x02 + 256 * info.toNat)) ∧
    (∀ w : Which, errWord (Cause.primeSearchExhausted w.info).err = if w = .p then 0x00000003 else 0x00000103) ∧
    (∀ opc : Byte, errWord (Cause.illegalCommand opc).err = BitVec.ofNat 32 (0x10 + 256 * opc.toNat)) ∧
    errWord Cause.invalidKeySize.err = 0x00000011 ∧
    (∀ r : Reg, errWord (Cause.unwrittenOperand r.index).err = BitVec.ofNat 32 (0x12 + 256 * r.index.toNat)) ∧
    errWord Cause.pointAtInfinity.err = 0x00000013 ∧
    Reg.seed.index = 1 ∧ Reg.did.index = 2 ∧ Reg.peer.index = 3 ∧ Reg.ktype.index = 4 ∧ Reg.mk.index = 5 ∧
    Reg.ps.index = 6 ∧ Reg.pbase.index = 7 ∧ Reg.qbase.index = 8 ∧ Reg.p.index = 9 ∧ Reg.q.index = 10 ∧
    Reg.nmod.index = 11 ∧ Reg.dexp.index = 12 ∧ Reg.dp.index = 13 ∧ Reg.dq.index = 14 ∧ Reg.qi.index = 15 ∧
    Reg.ecd.index = 16 ∧ Reg.qx.index = 17 ∧ Reg.qy.index = 18 ∧ Reg.lb.index = 19 ∧ Reg.cand.index = 20

/-- R77: a read changes nothing but the word the host gets and, for an `OUT` word that holds no value, `RDERR`; the same
read made again changes nothing more and returns the same word. Which words these are is R85 read with two choices of the
model: the reserved 0x1C00 to 0x1FFF are none of them (R71 and R74 over R85's range, log entry 11), and while `BUSY = 1` no
word of `OUT` holds a value (R265 and D22 over R84's reference to R85, log entry 22). -/
def Obligations.ReadsHaveNoSideEffect : Prop :=
  ∀ (s : State) (off : Nat), off % 4 = 0 → off ≤ 0x3FFC →
    ∃ t w, step (s.withMove (.read off)) = .next t ∧
      t = { s with
        flags := { s.flags with rdErr := s.flags.rdErr ||
          (decide ((0x1000 ≤ off ∧ off ≤ 0x1BFF) ∨ (0x2000 ≤ off ∧ off ≤ 0x2FFF)) &&
            (s.flags.busy || !outHasByte s.out off)) }
        host := { s.host with rdata := some w } } ∧
      step (t.withMove (.read off)) = .next t

/-- Dropped writes change nothing but `DROP`: any write while a command runs (R84), a write to a read-only register, to
an output window, to an unmapped offset (R74, R238). For the unmapped rest of a buffer's range see `ByteArrayWrites`, for
commands in the fault state `CommandWriteOrder`. -/
def Obligations.DroppedWrites : Prop :=
  ∀ (s : State) (off : Nat) (v : Word), off % 4 = 0 → off ≤ 0x3FFC →
    (s.flags.busy = true ∨ off = 0x0004 ∨ off = 0x0008 ∨ (0x0020 ≤ off ∧ off ≤ 0x00FF) ∨ 0x0500 ≤ off) →
    step (s.withMove (.write off v)) = .next { s with flags := { s.flags with drop := true } }

/-- R80: a write to a length register. -/
def Obligations.LengthWrites : Prop :=
  ∀ (s : State) (b : Buf) (v : Word), s.flags.busy = false →
    (step (s.withMove (.write b.lenOffset v)) =
      if v.toNat ≤ b.capacity Config.platform then .next (s.setInputReg b ⟨v, true⟩)
      else .next { s with flags := { s.flags with drop := true } }) ∧
    (s.setInputReg b ⟨v, true⟩).input b = some (Memory.readBytes s.mem b.base v.toNat) ∧
    (∀ b' : Buf, b' ≠ b → (s.setInputReg b ⟨v, true⟩).inputReg b' = s.inputReg b') ∧
    step (s.withMove (.write b.lenOffset 0)) = .next (s.setInputReg b ⟨0, true⟩) ∧
    (s.setInputReg b ⟨0, true⟩).input b = some []

/-- R81: a write to `KEYSIZE` at an idle engine. -/
def Obligations.KeySizeWrites : Prop :=
  ∀ (s : State) (v : Word), s.flags.busy = false →
    step (s.withMove (.write 0x000C v)) = .next { s with keySize := v }

/-- R78 with the lanes of R73: a write to an input array at an idle engine stores the bytes that exist, and nothing else
changes; a word that begins beyond the capacity is unmapped. For a capacity that is no multiple of 4, that the word across
its end stores the lanes that exist and ignores the others without `DROP` is the model's choice (log entry 14). -/
def Obligations.ByteArrayWrites : Prop :=
  ∀ (s : State) (b : Buf) (off : Nat) (v : Word), s.flags.busy = false → Memory.wf s.mem = true → off % 4 = 0 →
    b.base ≤ off → off < b.base + 0x100 →
    if off < b.base + b.capacity Config.platform then
      ∃ m, step (s.withMove (.write off v)) = .next { s with mem := m } ∧
        ∀ a, Memory.read m a =
          if off ≤ a ∧ a < off + 4 ∧ a < b.base + b.capacity Config.platform then v.extractLsb' (8 * (a - off)) 8
          else Memory.read s.mem a
    else step (s.withMove (.write off v)) = .next { s with flags := { s.flags with drop := true } }

/-- A read of DID, PEER or KTYPE returns the four bytes by the lanes of R73, and bytes that do not exist as 0 (R71, R78);
a read of the seed's range returns 0 (R79). That the lanes beyond a capacity that is no multiple of 4 read 0 is the model's
choice (log entry 14). -/
def Obligations.ByteArrayReads : Prop :=
  (∀ (s : State) (b : Buf) (off : Nat), StorageInv Config.platform s → b ≠ .seed → off % 4 = 0 →
    b.base ≤ off → off < b.base + 0x100 →
    ∃ w, step (s.withMove (.read off)) = .next (returnWord w s) ∧
      ∀ k, k < 4 → w.extractLsb' (8 * k) 8 = Memory.read s.mem (off + k)) ∧
  ∀ (s : State) (off : Nat), off % 4 = 0 → 0x0100 ≤ off → off ≤ 0x01FF →
    step (s.withMove (.read off)) = .next (returnWord 0 s)

/-- Two states that differ in the seed's bytes, the derived registers and the hidden sequencer alone look the same to
every read (R79, R33, R84); while `BUSY = 1` the record may differ too: nothing of a running command's work is visible before
its completion (R12, R265; that `OUTKIND` and `OUTL` hide it as well is log entry 22). -/
def Obligations.SecretsUnreadable : Prop :=
  ∀ (s t : State) (off : Nat), off % 4 = 0 → off ≤ 0x3FFC →
    (∀ a, (a < 0x0100 ∨ 0x01FF < a) → Memory.read t.mem a = Memory.read s.mem a) →
    (∀ b : Buf, t.inputReg b = s.inputReg b) → t.keySize = s.keySize →
    (s.flags.busy = false → t.out = s.out) → t.flags = s.flags → t.seq.cur = s.seq.cur → t.err = s.err →
    t.counters = s.counters →
    ∃ s' t', step (s.withMove (.read off)) = .next s' ∧ step (t.withMove (.read off)) = .next t' ∧
      t'.host.rdata = s'.host.rdata ∧ t'.flags = s'.flags

/-- The output windows, slot by slot (R82, R83): an RSA record shows its raw and text fields in the RSA slots and nothing
in the EC slots and between the slots, an EC record the other way round, no record nothing; and a record of the widths of
R177 and R197 fits its slots. -/
def Obligations.OutputWindows : Prop :=
  (∀ r : RsaRecord,
    Shows (.rsa r) 0x1000 0x10 r.e.raw ∧ Shows (.rsa r) 0x1010 0x1F0 [] ∧ Shows (.rsa r) 0x1200 0x200 r.n.raw ∧
      Shows (.rsa r) 0x1400 0x200 r.d.raw ∧
      Shows (.rsa r) 0x1600 0x100 r.p.raw ∧ Shows (.rsa r) 0x1700 0x100 r.q.raw ∧
      Shows (.rsa r) 0x1800 0x100 r.dp.raw ∧ Shows (.rsa r) 0x1900 0x100 r.dq.raw ∧
      Shows (.rsa r) 0x1A00 0x100 r.qi.raw ∧ Shows (.rsa r) 0x1B00 0x500 [] ∧
      Shows (.rsa r) 0x2000 0x10 r.e.txt ∧ Shows (.rsa r) 0x2010 0xF0 [] ∧ Shows (.rsa r) 0x2100 0x300 r.n.txt ∧
      Shows (.rsa r) 0x2400 0x300 r.d.txt ∧
      Shows (.rsa r) 0x2700 0x180 r.p.txt ∧ Shows (.rsa r) 0x2880 0x180 r.q.txt ∧
      Shows (.rsa r) 0x2A00 0x180 r.dp.txt ∧ Shows (.rsa r) 0x2B80 0x180 r.dq.txt ∧
      Shows (.rsa r) 0x2D00 0x180 r.qi.txt ∧ Shows (.rsa r) 0x2E80 0x180 []) ∧
  (∀ r : EcRecord,
    Shows (.ec r) 0x1000 0xB00 [] ∧ Shows (.ec r) 0x1B00 0x20 r.d.raw ∧ Shows (.ec r) 0x1B20 0x20 r.x.raw ∧
      Shows (.ec r) 0x1B40 0x20 r.y.raw ∧ Shows (.ec r) 0x1B60 0x4A0 [] ∧ Shows (.ec r) 0x2000 0xE80 [] ∧ Shows (.ec r) 0x2E80 0x40 r.d.txt ∧
      Shows (.ec r) 0x2EC0 0x40 r.x.txt ∧ Shows (.ec r) 0x2F00 0x40 r.y.txt ∧ Shows (.ec r) 0x2F40 0xC0 []) ∧
  Shows .none 0x1000 0x2000 [] ∧
  (∀ (s : State) (r : RsaRecord), OutInv s → s.out = .rsa r →
    r.e.raw.length ≤ 0x10 ∧ r.n.raw.length ≤ 0x200 ∧ r.d.raw.length ≤ 0x200 ∧ r.p.raw.length ≤ 0x100 ∧
      r.q.raw.length ≤ 0x100 ∧ r.dp.raw.length ≤ 0x100 ∧ r.dq.raw.length ≤ 0x100 ∧ r.qi.raw.length ≤ 0x100 ∧
      r.e.txt.length ≤ 0x10 ∧ r.n.txt.length ≤ 0x300 ∧ r.d.txt.length ≤ 0x300 ∧
      r.p.txt.length ≤ 0x180 ∧ r.q.txt.length ≤ 0x180 ∧ r.dp.txt.length ≤ 0x180 ∧ r.dq.txt.length ≤ 0x180 ∧
      r.qi.txt.length ≤ 0x180) ∧
  ∀ (s : State) (r : EcRecord), OutInv s → s.out = .ec r →
    r.d.raw.length = 32 ∧ r.x.raw.length = 32 ∧ r.y.raw.length = 32 ∧
      r.d.txt.length = 43 ∧ r.x.txt.length = 43 ∧ r.y.txt.length = 43

/-- R85: a read of a word in the output windows of an idle engine returns the field bytes it contains, 0 in the other
lanes, and sets `RDERR` exactly when it contains none. While a command runs every such read returns 0 and sets `RDERR`
(R265 and D22; that they win over R84's reference to R85 is log entry 22). That the reserved words 0x1C00 to 0x1FFF are in
neither window, against R85's own range, is the model's choice (log entry 11): for them see `RegisterReads`. -/
def Obligations.OutputReads : Prop :=
  ∀ (s : State) (off : Nat), off % 4 = 0 → (0x1000 ≤ off ∧ off ≤ 0x1BFF) ∨ (0x2000 ≤ off ∧ off ≤ 0x2FFF) →
    (s.flags.busy = true →
      step (s.withMove (.read off)) = .next (returnWord 0 { s with flags := { s.flags with rdErr := true } })) ∧
    (s.flags.busy = false →
      ∃ w, (∀ k, k < 4 → w.extractLsb' (8 * k) 8 = (s.out.byteAt (off + k)).getD 0) ∧
        ((∀ k, k < 4 → s.out.byteAt (off + k) = none) → w = 0 ∧
          step (s.withMove (.read off)) = .next (returnWord 0 { s with flags := { s.flags with rdErr := true } })) ∧
        ((∃ k, k < 4 ∧ s.out.byteAt (off + k) ≠ none) → step (s.withMove (.read off)) = .next (returnWord w s)))

/-- An access that is not 4-byte aligned, or lies outside the register space, is no move of the host: the model stops on
it by name (R72, R74; the stop is the model's way of having no such step, log entry 4). -/
def Obligations.BadAccessesStop : Prop :=
  ∀ (s : State) (off : Nat) (v : Word),
    (off % 4 ≠ 0 → step (s.withMove (.read off)) = .fault (.misalignedAccess off) ∧
      step (s.withMove (.write off v)) = .fault (.misalignedAccess off)) ∧
    (off % 4 = 0 → 0x3FFC < off → step (s.withMove (.read off)) = .fault (.outsideSpace off) ∧
      step (s.withMove (.write off v)) = .fault (.outsideSpace off))

/-! ## Reset, CLR, WIPE, faults -/

/-- R41: the state after reset, field by field as its table has them. -/
def Obligations.ResetState : Prop :=
  (∀ a, Memory.read State.reset.mem a = 0x00) ∧ (∀ b : Buf, State.reset.inputReg b = ⟨0, false⟩) ∧
    (∀ b : Buf, State.reset.input b = none) ∧ State.reset.keySize = 0 ∧
    State.reset.derived = ⟨none, none, none, none, none, none, none, none, none, none, none, none, none, none, none, none⟩ ∧
    State.reset.out = .none ∧ State.reset.out.l = 0 ∧ (∀ off, State.reset.out.byteAt off = none) ∧
    statusWord State.reset = 0 ∧ errWord State.reset.err = 0 ∧ State.reset.counters = ⟨0, 0, 0⟩ ∧
    State.reset.seq.cur = 0 ∧ State.reset.seq.gidx = 0 ∧ State.reset.seq.sub = 0 ∧ State.reset.seq.rnd = 0 ∧
    State.reset.seq.tests = 0 ∧ State.reset.seq.chain = [] ∧ State.reset.seq.acc = []

/-- R260, R261: the reset event in any state, a running command included, gives the state of R41; after it the engine's
turn changes nothing. The host's own port is not the engine's (log entry 3). -/
def Obligations.ResetEvent : Prop :=
  ∀ s : State, step (s.withMove .reset) = .next { State.reset with host := s.host } ∧
    step (State.withMove .yield { State.reset with host := s.host }) = .next { State.reset with host := s.host }

/-- R220: CLR at an engine that runs no command, in the fault state too. `SUB = 0x01` is acceptance's write of R107, which
R220 does not name (log entry 10), and the phase is the model's own (log entry 2). -/
def Obligations.ClrDiscards : Prop :=
  ∀ s : State, s.flags.busy = false →
    exec .clr s = .next { s with
      derived := ⟨none, none, none, none, none, none, none, none, none, none, none, none, none, none, none, none⟩
      out := .none
      counters := ⟨0, 0, 0⟩
      flags := { busy := false, done := false, fault := false, ovf := false, drop := false, rdErr := false }
      err := ⟨0x00, 0x00⟩
      seq := { cur := 0x01, gidx := 0, sub := 0x01, rnd := 0, chain := [], acc := [], tests := 0, phase := .operands } }

/-- R222: WIPE at an engine that runs no command leaves the reset state but for `CUR`, so that `STATUS` reads
0x00020000. That `SUB` is 0 too, whatever R107's write of it, is the model's choice (log entry 10); the host's port is no
part of the engine (log entry 3). -/
def Obligations.WipeRestoresReset : Prop :=
  ∀ s : State, s.flags.busy = false →
    ∃ t, exec .wipe s = .next t ∧
      t = { State.reset with seq := { State.reset.seq with cur := 0x02 }, host := s.host } ∧ statusWord t = 0x00020000

/-- R240: fault entry as one atomic change of the state, and R221: completion; one of `FAULT` and `DONE` is set by each,
never both. -/
def Obligations.FaultEntryAndCompletion : Prop :=
  (∀ (f : Cause) (s : State), raise f s = { s with
    derived := ⟨none, none, none, none, none, none, none, none, none, none, none, none, none, none, none, none⟩
    out := .none
    err := f.err
    flags := { s.flags with fault := true, busy := false, done := false }
    seq := { s.seq with gidx := 0, rnd := 0, tests := 0, chain := [], acc := [], phase := .operands } }) ∧
  ∀ s : State, complete s = { s with
    flags := { s.flags with busy := false, done := true }
    seq := { s.seq with
      gidx := 0, rnd := 0, tests := 0, chain := [], acc := [], sub := s.seq.cur, phase := .operands } }

/-- R241: the fault state is left by CLR, WIPE and reset alone; any other step keeps `FAULT` and the first fault's
`ERR`. -/
def Obligations.FaultLeftOnlyByClrWipeReset : Prop :=
  ∀ s t : State, LifecycleInv s → s.flags.fault = true → step s = .next t →
    (t.flags.fault = true ∧ t.err = s.err) ∨ (∃ rest, s.host.script = .reset :: rest) ∨
      ∃ w rest, s.host.script = .write 0x0000 w :: rest ∧ (w = encode .clr ∨ w = encode .wipe)

/-- The sticky flags `DROP`, `RDERR` and `OVF` fall only by CLR, WIPE, reset and GEN's start, which does everything CLR
does (R35, R215, R238; that GEN's start clears `DROP` and `RDERR` too is log entry 5). -/
def Obligations.StickyFlags : Prop :=
  ∀ s t : State, step s = .next t →
    (s.flags.drop = true ∧ t.flags.drop = false) ∨ (s.flags.rdErr = true ∧ t.flags.rdErr = false) ∨
      (s.flags.ovf = true ∧ t.flags.ovf = false) →
    (∃ rest, s.host.script = .reset :: rest) ∨
      (s.flags.busy = false ∧ ∃ w rest, s.host.script = .write 0x0000 w :: rest ∧ (w = encode .clr ∨ w = encode .wipe)) ∨
      (s.flags.busy = true ∧ s.seq.cur = opcode .gen ∧ s.seq.gidx = 0)

/-- No rule reads a counter (R38, R246), and what the host did meanwhile (`DROP`, `RDERR`, its port) does not reach a
command either (R14, R84): a command's step gives the same in everything else. -/
def Obligations.CommandsIgnoreCountersAndHost : Prop :=
  ∀ (c : Config) (i : Instr) (s : State) (k : Counters) (drop rdErr : Bool) (h : HostPort),
    let t := commandStep c i s
    let t' := commandStep c i { s with
      counters := k, flags := { s.flags with drop := drop, rdErr := rdErr }, host := h }
    t'.mem = t.mem ∧ (∀ b : Buf, t'.inputReg b = t.inputReg b) ∧ t'.keySize = t.keySize ∧ t'.derived = t.derived ∧
      t'.out = t.out ∧ t'.seq = t.seq ∧ t'.err = t.err ∧ t'.flags.busy = t.flags.busy ∧
      t'.flags.done = t.flags.done ∧ t'.flags.fault = t.flags.fault ∧ t'.flags.ovf = t.flags.ovf

/-- While a command runs nothing but reset changes an input (R31, R84). -/
def Obligations.BusyCommandIsolated : Prop :=
  ∀ s t : State, s.flags.busy = true → (∀ rest, s.host.script ≠ .reset :: rest) → step s = .next t → InputsKept s t

/-- What an engine step of a command leaves unchanged (R31, R33, R35, R38, R240). A step command that raises no fault
keeps every derived register but its destinations, `ERR`, the record unless it exports one, `OVF` unless it searches, and
the counters it does not count in; one that raises leaves no derived value and no record. Every command but WIPE keeps
the inputs, and none touches the host's port. -/
def Obligations.CommandFrames : Prop :=
  (∀ (i : Instr) (s t : State), exec i s = .next t → t.host = s.host ∧ (i ≠ .wipe → InputsKept s t)) ∧
  ∀ (i : Instr) (s t : State), i ≠ .clr → i ≠ .wipe → i ≠ .gen → s.flags.busy = true → s.flags.fault = false →
    exec i s = .next t →
    t.flags.drop = s.flags.drop ∧ t.flags.rdErr = s.flags.rdErr ∧ t.seq.cur = s.seq.cur ∧
      (t.flags.ovf = s.flags.ovf ∨ i = .psrch ∨ i = .qsrch) ∧
      (t.counters.iterP = s.counters.iterP ∨ i = .psrch) ∧ (t.counters.iterQ = s.counters.iterQ ∨ i = .qsrch) ∧
      (t.counters.rounds = s.counters.rounds ∨ i = .mkey ∨ i = .psec ∨ i = .pgen ∨ i = .qgen) ∧
      (t.flags.fault = true → t.derived = Derived.invalid ∧ t.out = .none) ∧
      (t.flags.fault = false → t.err = s.err ∧ DerivedKept (destinations i) s.derived t.derived ∧
        (t.out = s.out ∨ i = .rsaexp ∨ i = .ecexp))

/-! ## The commands' results. `Completes i s t`: `exec i` at `s`, then engine steps of `exec i` to the first state with
`BUSY = 0`, which is `t`. `RunsTo c` is the same under any configuration `c`. -/

/-- R150: MKEY's master key, and its operand faults. -/
def Obligations.MkeyResult : Prop :=
  ∀ s : State, Ready s →
    (∀ r, firstMissing (sources .mkey s) = some r → Completes .mkey s (failed .mkey (.unwrittenOperand r.index) s)) ∧
    ∀ seed did, s.input .seed = some seed → s.input .did = some did →
      Completes .mkey s (finished .mkey { s with
        derived := { s.derived with mk := some (Config.platform.hmac seed
          (did ++ [0x73, 0x69, 0x67, 0x6E, 0x61, 0x74, 0x75, 0x72, 0x65])).toList }
        counters := roundsAfter Config.platform 1 s.counters })

/-- R194: PSEC's pairwise secret, and its operand faults. -/
def Obligations.PsecResult : Prop :=
  ∀ s : State, Ready s →
    (∀ r, firstMissing (sources .psec s) = some r → Completes .psec s (failed .psec (.unwrittenOperand r.index) s)) ∧
    ∀ peer mk, s.input .peer = some peer → s.derived.mk = some mk →
      Completes .psec s (finished .psec { s with
        derived := { s.derived with ps := some (Config.platform.hmac mk peer).toList }
        counters := roundsAfter Config.platform 1 s.counters })

/-- R156: PGEN's candidate bytes and length, its operand faults before its key-size fault; and which key sizes are legal
(R10, R235). -/
def Obligations.PgenResult : Prop :=
  (∀ (c : Config) (k : Nat), keySizeLegal c k = true ↔
    k % (match c.granule with | .g1024 => 1024 | .g16 => 16) = 0 ∧
      (match c.granule with | .g1024 => 1024 | .g16 => 16) ≤ k ∧ k ≤ c.keySizeMax.val) ∧
  ∀ (c : Config) (s : State), Ready s →
    (∀ r, firstMissing (sources .pgen s) = some r → RunsTo c .pgen s (failed .pgen (.unwrittenOperand r.index) s)) ∧
    ∀ peer mk, s.input .peer = some peer → s.derived.mk = some mk →
      (keySizeLegal c s.keySize.toNat = false → RunsTo c .pgen s (failed .pgen .invalidKeySize s)) ∧
      (keySizeLegal c s.keySize.toNat = true →
        RunsTo c .pgen s (finished .pgen { s with
          derived := { s.derived with
            lb := some (s.keySize.toNat / 16)
            pbase := some (deriveBytes c mk (s.keySize.toNat / 16) peer) }
          counters := roundsAfter c ((s.keySize.toNat / 16 + 63) / 64) s.counters }))

/-- R157: QGEN's candidate bytes, keyed by the unforced `PBASE`, of the latched length. -/
def Obligations.QgenResult : Prop :=
  ∀ s : State, Ready s →
    (∀ r, firstMissing (sources .qgen s) = some r → Completes .qgen s (failed .qgen (.unwrittenOperand r.index) s)) ∧
    ∀ peer pbase l, s.input .peer = some peer → s.derived.pbase = some pbase → s.derived.lb = some l →
      Completes .qgen s (finished .qgen { s with
        derived := { s.derived with qbase := some (deriveBytes Config.platform pbase l peer) }
        counters := roundsAfter Config.platform ((l + 63) / 64) s.counters })

/-- R133: the engine steps of the four deriving commands, after their operand checks: one HMAC round a step while
`ACC` is shorter than the length, then the result. The phase `loop` is the model's own (log entry 2). -/
def Obligations.DerivingSteps : Prop :=
  ∀ s : State, s.flags.busy = true → s.seq.phase = .loop →
    let round := fun (key : Bytes) => { s with
      seq := { s.seq with
        acc := s.seq.acc ++ (Config.platform.hmac key s.seq.chain).toList
        chain := (Config.platform.hmac key s.seq.chain).toList
        rnd := s.seq.rnd + 1 }
      counters := roundsAfter Config.platform 1 s.counters }
    (∀ seed did, s.input .seed = some seed → s.input .did = some did →
      exec .mkey s = .next (if s.seq.acc.length < 64 then round seed
        else complete { s with derived := { s.derived with mk := some (s.seq.acc.take 64) } })) ∧
    (∀ peer mk, s.input .peer = some peer → s.derived.mk = some mk →
      exec .psec s = .next (if s.seq.acc.length < 64 then round mk
        else complete { s with derived := { s.derived with ps := some (s.seq.acc.take 64) } })) ∧
    (∀ peer mk l, s.input .peer = some peer → s.derived.mk = some mk → s.derived.lb = some l →
      exec .pgen s = .next (if s.seq.acc.length < l then round mk
        else complete { s with derived := { s.derived with pbase := some (s.seq.acc.take l) } })) ∧
    ∀ peer pbase l, s.input .peer = some peer → s.derived.pbase = some pbase → s.derived.lb = some l →
      exec .qgen s = .next (if s.seq.acc.length < l then round pbase
        else complete { s with derived := { s.derived with qbase := some (s.seq.acc.take l) } })

/-- R162: the engine steps of the two searches: the start, one oracle test a step, and the end. The phases are the
model's own (log entry 2). `OVF` is set by the step whose new candidate reaches `256^L` (D14), and by the end for a value that
large (R160, R164); that D14's moment is the step that adds 2 is the model's reading (log entry 15). -/
def Obligations.SearchSteps : Prop :=
  ∀ (w : Which) (s : State) (b : Bytes), s.flags.busy = true → w.base s.derived = some b →
    (s.seq.phase = .operands →
      exec w.instr s = .next { s with
        derived := { s.derived with cand := some (cand0 b) }
        seq := { s.seq with tests := 0, phase := .loop }
        counters := w.zeroCounter s.counters }) ∧
    ∀ v, s.derived.cand = some v →
      (s.seq.phase = .loop →
        let counted := { s with
          seq := { s.seq with tests := s.seq.tests + 1 }
          counters := if Config.platform.hasCounters then w.bumpCounter s.counters else s.counters }
        exec w.instr s = .next (
          if Config.platform.primeOracle v then { s with seq := { s.seq with phase := .commit } }
          else if (match Config.platform.iterCap with | none => false | some k => decide (k ≤ s.seq.tests + 1)) then
            raise (.primeSearchExhausted w.info) counted
          else { counted with
            derived := { s.derived with cand := some (v + 2) }
            flags := { s.flags with ovf := s.flags.ovf || decide (256 ^ b.length ≤ v + 2) } })) ∧
      (s.seq.phase = .commit →
        exec w.instr s = .next (complete { s with
          derived := { w.storePrime v s.derived with cand := none }
          flags := { s.flags with ovf := s.flags.ovf || decide (256 ^ b.length ≤ v) } }))

/-- R160, R161, R169: a search returns the first accepted candidate, counts the rejected ones, notes an overflow, and
leaves its raw bytes as they were (R171); a cap above the rejections changes nothing (R163). For an empty base, which no run
reaches, `cand0` is the model's choice (log entry 23). -/
def Obligations.SearchResult : Prop :=
  ∀ (c : Config) (w : Which) (s : State), Ready s →
    (w.base s.derived = none →
      RunsTo c w.instr s (failed w.instr (.unwrittenOperand w.baseReg.index) s)) ∧
    ∀ (b : Bytes) (k v : Nat), w.base s.derived = some b → SearchFinds c b k v → CapAllows c k →
      RunsTo c w.instr s (finished w.instr { s with
        derived := { w.storePrime v s.derived with cand := none }
        flags := { s.flags with ovf := s.flags.ovf || decide (256 ^ b.length ≤ v) }
        counters := iterationsAfter c w k s.counters })

/-- R163: with `ITER_CAP = n` a search whose first `n` candidates are rejected raises `PrimeSearchExhausted` after the
`n`-th rejection. R162, R233: without a cap a search none of whose candidates is accepted never ends: after any number of
engine steps `BUSY` is 1 and `FAULT` 0. Either way `OVF` is set once a candidate has reached `256^L` (D14): that a search which
returns nothing sets it, and at the step that adds 2, is the model's reading of D14 beside R35 and R160 (log entry 15). For an
empty base, which no run reaches, `cand0` is the model's choice (log entry 23). -/
def Obligations.SearchWithoutResult : Prop :=
  ∀ (c : Config) (w : Which) (s : State) (b : Bytes), Ready s → w.base s.derived = some b →
    (∀ n, c.iterCap = some n → (∀ j < n, c.primeOracle (cand0 b + 2 * j) = false) →
      RunsTo c w.instr s (failed w.instr (.primeSearchExhausted w.info)
        { s with
          flags := { s.flags with ovf := s.flags.ovf || decide (256 ^ b.length ≤ cand0 b + 2 * (n - 1)) }
          counters := iterationsAfter c w n s.counters })) ∧
    (c.iterCap = none → SearchHasNoResult c b → ∀ n,
      let t := commandSteps c w.instr (n + 1) s
      t.flags.busy = true ∧ t.flags.fault = false ∧
        t.flags.ovf = (s.flags.ovf || decide (256 ^ b.length ≤ cand0 b + 2 * (n - 1))))

/-- R167: if the oracle accepts every prime, every search ends, and without a cap it ends in success. That there is a
prime above every number is Mathlib's. For an empty base, which no run reaches, `cand0` is the model's choice (log
entry 23). -/
def Obligations.SearchTerminates : Prop :=
  ∀ (c : Config) (w : Which) (s : State) (b : Bytes), Ready s → w.base s.derived = some b → OracleComplete c →
    ∃ t, RunsTo c w.instr s t ∧ (c.iterCap = none → t.flags.done = true ∧ t.flags.fault = false ∧
      ∃ k v, SearchFinds c b k v ∧ t.derived = { w.storePrime v s.derived with cand := none })

/-- R175, R176, R180: RSAASM's components for any two numbers above 2, and its faults in their order. -/
def Obligations.RsaasmResult : Prop :=
  ∀ s : State, Ready s →
    (∀ r, firstMissing (sources .rsaasm s) = some r →
      Completes .rsaasm s (failed .rsaasm (.unwrittenOperand r.index) s)) ∧
    ∀ p q, s.derived.p = some p → s.derived.q = some q → 2 < p → 2 < q →
      (Nat.gcd 65537 ((p - 1) * (q - 1)) ≠ 1 → Completes .rsaasm s (failed .rsaasm (.internalArithmeticError 1) s)) ∧
      (Nat.gcd 65537 ((p - 1) * (q - 1)) = 1 → Nat.gcd q p ≠ 1 →
        Completes .rsaasm s (failed .rsaasm (.internalArithmeticError 2) s)) ∧
      (Nat.gcd 65537 ((p - 1) * (q - 1)) = 1 → Nat.gcd q p = 1 →
        ∃ d qi, d < (p - 1) * (q - 1) ∧ 65537 * d % ((p - 1) * (q - 1)) = 1 ∧ qi < p ∧ q * qi % p = 1 ∧
          Completes .rsaasm s (finished .rsaasm { s with derived := { s.derived with
            nmod := some (p * q), dexp := some d, dp := some (d % (p - 1)), dq := some (d % (q - 1)),
            qi := some qi } }))

/-- R178 with the widths of R177: RSAEXP's record, and its operand faults. -/
def Obligations.RsaexpResult : Prop :=
  ∀ s : State, Ready s →
    (∀ r, firstMissing (sources .rsaexp s) = some r →
      Completes .rsaexp s (failed .rsaexp (.unwrittenOperand r.index) s)) ∧
    ∀ p q n d dp dq qi l, s.derived.p = some p → s.derived.q = some q → s.derived.nmod = some n →
      s.derived.dexp = some d → s.derived.dp = some dp → s.derived.dq = some dq → s.derived.qi = some qi →
      s.derived.lb = some l →
      let field := fun (v width : Nat) =>
        ({ raw := beBytes width (v % 256 ^ width), txt := b64url (beBytes width (v % 256 ^ width)) } : OutField)
      Completes .rsaexp s (finished .rsaexp { s with out := .rsa {
        l := l, e := { raw := [0x01, 0x00, 0x01], txt := [0x41, 0x51, 0x41, 0x42] },
        n := field n (2 * l), d := field d (2 * l), p := field p l, q := field q l,
        dp := field dp l, dq := field dq l, qi := field qi l } })

/-- R195: ECRED reduces all bytes of `PS`. -/
def Obligations.EcredResult : Prop :=
  ∀ s : State, Ready s →
    (s.derived.ps = none → Completes .ecred s (failed .ecred (.unwrittenOperand 6) s)) ∧
    ∀ ps, s.derived.ps = some ps →
      Completes .ecred s (finished .ecred { s with derived := { s.derived with
        ecd := some (be2int ps % 0xFFFFFFFFFFFFFFFFFFFFFFFFFFFFFFFEBAAEDCE6AF48A03BBFD25E8CD0364141) } })

/-- R196, R200: ECMUL multiplies the generator, faults on the scalar 0, and completes for every other reduced scalar. With
it the group law of R192 on the points of the curve, the inverse it uses being the one of R16; the multiple of R193 as the
sum of `k` terms, which doubling and adding gives too (log entry 7); and that `k * EC_G` is `O` exactly when `EC_N` divides
`k`. -/
def Obligations.EcmulResult : Prop :=
  (∀ s : State, Ready s →
    (s.derived.ecd = none → Completes .ecmul s (failed .ecmul (.unwrittenOperand 16) s)) ∧
    (s.derived.ecd = some 0 → Completes .ecmul s (failed .ecmul .pointAtInfinity s)) ∧
    (∀ d, s.derived.ecd = some d → 1 ≤ d → d < ecN → ∃ x y, sumPoint d ecG = .affine x y ∧ (Point.affine x y).OnCurve ∧
      Completes .ecmul s (finished .ecmul { s with derived := { s.derived with qx := some x, qy := some y } })) ∧
    ∀ d x y, s.derived.ecd = some d → mulPoint d ecG = .affine x y →
      Completes .ecmul s (finished .ecmul { s with derived := { s.derived with qx := some x, qy := some y } })) ∧
  (∀ a : Point, addPoint .infinity a = a ∧ addPoint a .infinity = a) ∧
  (∀ x1 y1 x2 y2 : Nat, (Point.affine x1 y1).OnCurve → (Point.affine x2 y2).OnCurve →
    if x1 = x2 ∧ (y1 + y2) % ecP = 0 then addPoint (.affine x1 y1) (.affine x2 y2) = .infinity
    else ∃ lambda inv x3 y3 : Nat, addPoint (.affine x1 y1) (.affine x2 y2) = .affine x3 y3 ∧
      (Point.affine x3 y3).OnCurve ∧
      (if x1 = x2 ∧ y1 = y2 then 2 * y1 * inv ≡ 1 [MOD ecP] ∧ lambda ≡ 3 * x1 ^ 2 * inv [MOD ecP]
        else ((x2 : Int) - x1) * inv ≡ 1 [ZMOD ecP] ∧ (lambda : Int) ≡ (y2 - y1) * inv [ZMOD ecP]) ∧
      (x3 : Int) ≡ lambda ^ 2 - x1 - x2 [ZMOD ecP] ∧ (y3 : Int) ≡ lambda * (x1 - x3) - y1 [ZMOD ecP]) ∧
  (∀ (k : Nat) (a : Point), a.OnCurve → mulPoint k a = sumPoint k a ∧ (mulPoint k a).OnCurve) ∧
  (∀ a : Point, sumPoint 0 a = .infinity ∧ ∀ k : Nat, sumPoint (k + 1) a = addPoint (sumPoint k a) a) ∧
  ecG.OnCurve ∧ ∀ k : Nat, mulPoint k ecG = .infinity ↔ k % ecN = 0

/-- R197: ECEXP's record, and its operand faults. -/
def Obligations.EcexpResult : Prop :=
  ∀ s : State, Ready s →
    (∀ r, firstMissing (sources .ecexp s) = some r →
      Completes .ecexp s (failed .ecexp (.unwrittenOperand r.index) s)) ∧
    ∀ d x y, s.derived.ecd = some d → s.derived.qx = some x → s.derived.qy = some y →
      let field := fun (v : Nat) =>
        ({ raw := beBytes 32 (v % 256 ^ 32), txt := b64url (beBytes 32 (v % 256 ^ 32)) } : OutField)
      Completes .ecexp s (finished .ecexp { s with out := .ec { d := field d, x := field x, y := field y } })

/-! ## GEN (46_dispatch_control.md) -/

/-- The faults of GEN's start, in the order of R215 and R239, each after everything CLR does. That this clears `DROP` and
`RDERR` too, against the table of R35, is the model's choice (log entry 5). -/
def Obligations.GenStartFaults : Prop :=
  ∀ (c : Config) (s : State), Ready s →
    (s.input .ktype = none → RunsTo c .gen s (failed .gen (.unwrittenOperand 4) (clearDerivedState s))) ∧
    (∀ t, s.input .ktype = some t → matchKeyType t = none →
      RunsTo c .gen s (failed .gen (.unsupportedKeyType t.length) (clearDerivedState s))) ∧
    (∀ t k r, s.input .ktype = some t → matchKeyType t = some k →
      firstMissing [(.seed, s.seed.valid), (.did, s.did.valid), (.peer, s.peer.valid)] = some r →
      RunsTo c .gen s (failed .gen (.unwrittenOperand r.index) (clearDerivedState s))) ∧
    ∀ t, s.input .ktype = some t → matchKeyType t = some .rsa → s.seed.valid = true → s.did.valid = true →
      s.peer.valid = true → keySizeLegal c s.keySize.toNat = false →
      RunsTo c .gen s (failed .gen .invalidKeySize (clearDerivedState s))

/-- R217, R218, R219: while GEN runs, its step at position `n` of the key type's sequence is the step of the `n`-th step
command; where that command completes from `u`, which keeps the sequencer, `BUSY` and `DONE`, GEN goes on from `u` with
`pc + 1` and the next element's opcode in `SUB`; a step that GEN shares with the command leaves it running or in the fault
state. Then SCRUB, then `complete`. That `SUB` is GEN's own opcode at SCRUB and after it is the model's choice (log entry 9),
and the phase is the model's own (log entry 2). -/
def Obligations.GenRunsTheSequence : Prop :=
  ∀ (s : State) (t : Bytes) (k : Kind), s.flags.busy = true → s.input .ktype = some t → matchKeyType t = some k →
    (∀ i, s.seq.gidx ≠ 0 → (stepScript k)[s.seq.gidx.toNat]? = some i →
      (∃ u, u.seq = s.seq ∧ u.flags.busy = true ∧ u.flags.done = s.flags.done ∧ exec i s = .next (complete u) ∧
        exec .gen s = .next { u with seq := { s.seq with
          gidx := s.seq.gidx + 1
          sub := (((stepScript k)[s.seq.gidx.toNat + 1]?).map opcode).getD 0x20
          phase := .operands } }) ∨
      (∃ t, exec i s = .next t ∧ exec .gen s = .next t ∧
        (t.flags.busy = true ∨ (t.flags.fault = true ∧ t.flags.done = false)))) ∧
    (s.seq.gidx.toNat = (stepScript k).length →
      exec .gen s = .next { s with
        derived := Derived.invalid
        seq := { s.seq with gidx := s.seq.gidx + 1, sub := opcode .gen, phase := .operands } }) ∧
    (s.seq.gidx.toNat = (stepScript k).length + 1 → exec .gen s = .next (complete s))

/-- GEN on the EC path: the record of R197 from the two HMACs and the scalar multiple, or `PointAtInfinity`; everything
derived is gone either way (R215, R218, R219, R224). The model's choices in it: `DROP` and `RDERR` are cleared by GEN's start
(log entry 5), `d*G` is computed by doubling and adding (log entry 7; `EcmulResult` says that it is R193's sum), and `SEQ.SUB`
after the fault is the faulting element's (log entry 9). -/
def Obligations.GenEcRecord : Prop :=
  ∀ (s : State) (seed did peer t : Bytes), Ready s → s.input .ktype = some t → matchKeyType t = some .ec →
    s.input .seed = some seed → s.input .did = some did → s.input .peer = some peer →
    let mk := (Config.platform.hmac seed (did ++ [0x73, 0x69, 0x67, 0x6E, 0x61, 0x74, 0x75, 0x72, 0x65])).toList
    let d := be2int (Config.platform.hmac mk peer).toList % ecN
    let cleared := { clearDerivedState s with counters := roundsAfter Config.platform 2 ⟨0, 0, 0⟩ }
    Completes .gen s (match mulPoint d ecG with
      | .infinity => raise .pointAtInfinity
          { cleared with seq := { cleared.seq with cur := opcode .gen, sub := opcode .ecmul } }
      | .affine x y => finished .gen { cleared with out := .ec (ecRecord d x y) })

/-- GEN on the RSA path: the record of R178 from the chained candidates, the two searches and the components, with the
counters from 0 and `OVF` as the searches leave it; everything derived is gone (R215, R217, R219). That `DROP` and `RDERR`
are cleared by GEN's start is the model's choice (log entry 5). -/
def Obligations.GenRsaRecord : Prop :=
  ∀ (c : Config) (s : State) (seed did peer t : Bytes) (kp kq p q : Nat) (r : RsaParts), Ready s →
    s.input .ktype = some t → matchKeyType t = some .rsa →
    s.input .seed = some seed → s.input .did = some did → s.input .peer = some peer →
    keySizeLegal c s.keySize.toNat = true →
    let l := s.keySize.toNat / 16
    let mk := (c.hmac seed (did ++ [0x73, 0x69, 0x67, 0x6E, 0x61, 0x74, 0x75, 0x72, 0x65])).toList
    let pbase := deriveBytes c mk l peer
    let qbase := deriveBytes c pbase l peer
    SearchFinds c pbase kp p → SearchFinds c qbase kq q → CapAllows c kp → CapAllows c kq → rsaParts p q = .ok r →
    RunsTo c .gen s (finished .gen { clearDerivedState s with
      out := .rsa (rsaRecord p q r.n r.d r.dp r.dq r.qi l)
      flags := { (clearDerivedState s).flags with ovf := decide (256 ^ l ≤ p) || decide (256 ^ l ≤ q) }
      counters := iterationsAfter c .q kq (iterationsAfter c .p kp
        (roundsAfter c (1 + 2 * ((l + 63) / 64)) ⟨0, 0, 0⟩)) })

/-- R14: what GEN leaves in `OUT`, `FAULT`, `ERR` and `OVF` is a function of the five inputs: from any other state with the
same inputs it ends too, with the same outcome. -/
def Obligations.GenPurity : Prop :=
  ∀ (c : Config) (s t s' : State), Ready s → Ready t → SameInputs s t → RunsTo c .gen s s' →
    ∃ t', RunsTo c .gen t t' ∧ t'.out = s'.out ∧ t'.flags.fault = s'.flags.fault ∧ t'.err = s'.err ∧
      t'.flags.ovf = s'.flags.ovf

/-- R225: GEN and the script of step commands agree, for every key type GEN knows: one ends exactly when the other does,
with the same `OUT`, `FAULT`, `OVF` and `ERR`. -/
def Obligations.GenAgreesWithScript : Prop :=
  ∀ (c : Config) (s : State) (t : Bytes) (k : Kind), Ready s → s.input .ktype = some t → matchKeyType t = some k →
    (∀ g, RunsTo c .gen s g → ∃ u, ScriptRunsTo c (stepScript k) s u) ∧
    (∀ u, ScriptRunsTo c (stepScript k) s u → ∃ g, RunsTo c .gen s g) ∧
    ∀ g u, RunsTo c .gen s g → ScriptRunsTo c (stepScript k) s u →
      u.out = g.out ∧ u.flags.fault = g.flags.fault ∧ u.flags.ovf = g.flags.ovf ∧ u.err = g.err

/-! ## The functions the commands call -/

/-- R131, R132, R135: `deriveBytes` gives exactly `length` bytes, the first digest first and each later one the HMAC of
the one before it; a shorter output is a prefix of a longer one; no byte takes no round. -/
def Obligations.DeriveBytesChain : Prop :=
  ∀ (c : Config) (key msg : Bytes),
    (∀ n, (deriveBytes c key n msg).length = n) ∧ deriveBytes c key 0 msg = [] ∧
    (∀ a b, a ≤ b → deriveBytes c key a msg = (deriveBytes c key b msg).take a) ∧
    deriveBytes c key 64 msg = (c.hmac key msg).toList ∧
    ∀ n, deriveBytes c key (64 + n) msg =
      (c.hmac key msg).toList ++ deriveBytes c key n (c.hmac key msg).toList

/-- R141: the integer a byte string stands for, read through `toLittleEndianSigned` (R140). -/
def Obligations.IntegerOfBytes : Prop :=
  ∀ b : Bytes, toLittleEndianSigned b = b.reverse ++ [0x00] ∧ le2intS (toLittleEndianSigned b) = (be2int b : Int) ∧
    be2int b < 256 ^ b.length

/-- R144: `toFixedBigEndian` of any representation of a value is `FIXBE` of the value, the string of the given width that
stands for the value modulo `256^width`; and `LEREP` is such a representation, of the length R142 gives. R145: the
fixed-width round trip, for every width that holds the bytes. -/
def Obligations.FixedBigEndian : Prop :=
  (∀ (v width : Nat) (r : Bytes), le2intS r = (v : Int) → toFixedBigEndian r width = fixBE v width) ∧
    (∀ v width : Nat, (fixBE v width).length = width ∧ be2int (fixBE v width) = v % 256 ^ width) ∧
    (∀ v : Nat, le2intS (leRep v) = (v : Int) ∧ (leRep v).length = bitLength v / 8 + 1) ∧
    ∀ (b : Bytes) (width : Nat), b.length ≤ width →
      toFixedBigEndian (toLittleEndianSigned b) width = List.replicate (width - b.length) 0x00 ++ b

/-- R146: base64url by its six-bit groups: character `i` is the alphabet's for bits `6*i` and up of the bytes, zero-filled
to a whole number of groups; the alphabet; the length; and the text determines the bytes. R146 itself says that it supplies
the alphabet and the grouping from general knowledge ("these are supplied here"). -/
def Obligations.Base64Url : Prop :=
  (∀ b : Bytes, (b64url b).length = (4 * b.length + 2) / 3) ∧
  (∀ (b : Bytes) (i : Nat), i < (4 * b.length + 2) / 3 →
    (b64url b)[i]? = some (b64Char
      (be2int (b ++ List.replicate ((3 - b.length % 3) % 3) 0x00) / 64 ^ (4 * ((b.length + 2) / 3) - 1 - i) % 64))) ∧
  (∀ i : Nat, (i < 26 → b64Char i = BitVec.ofNat 8 (0x41 + i)) ∧
    (26 ≤ i → i < 52 → b64Char i = BitVec.ofNat 8 (0x61 + (i - 26))) ∧
    (52 ≤ i → i < 62 → b64Char i = BitVec.ofNat 8 (0x30 + (i - 52)))) ∧
  b64Char 62 = 0x2D ∧ b64Char 63 = 0x5F ∧
  (∀ a b : Bytes, b64url a = b64url b → a = b) ∧
  ∀ i j : Nat, i < 64 → j < 64 → b64Char i = b64Char j → i = j

/-- R158, R159: forcing sets two bits and nothing else; the start candidate is odd and has exactly `8*L` bits. -/
def Obligations.StartCandidate : Prop :=
  ∀ b : Bytes, 1 ≤ b.length →
    (force b).length = b.length ∧
    (∀ i (x : Byte), b[i]? = some x → (force b)[i]? = some
      (x ||| (if i = 0 then 0x80 else 0x00) ||| (if i + 1 = b.length then 0x01 else 0x00))) ∧
    cand0 b = be2int (force b) ∧ cand0 b % 2 = 1 ∧ 2 ^ (8 * b.length - 1) ≤ cand0 b ∧ cand0 b < 2 ^ (8 * b.length)

/-- The modular inverse of R16: defined exactly for coprime arguments, and then the one `x` below `m` with
`a*x mod m = 1`. -/
def Obligations.ModularInverse : Prop :=
  ∀ a m : Nat, 2 ≤ m →
    (Nat.gcd a m ≠ 1 → modInverse a m = none) ∧
    (Nat.gcd a m = 1 → ∃ x, modInverse a m = some x ∧ x < m ∧ a * x % m = 1 ∧
      ∀ y, y < m → a * y % m = 1 → y = x)

/-- R216: what the key type matches. -/
def Obligations.KeyTypeMatch : Prop :=
  (∀ t : Bytes, matchKeyType t = some .ec ↔
    ∃ a b, t = [a, b] ∧ (a = 0x45 ∨ a = 0x65) ∧ (b = 0x43 ∨ b = 0x63)) ∧
  (∀ t : Bytes, matchKeyType t = some .rsa ↔
    ∃ a b d, t = [a, b, d] ∧ (a = 0x52 ∨ a = 0x72) ∧ (b = 0x53 ∨ b = 0x73) ∧ (d = 0x41 ∨ d = 0x61))

/-- R181: an RSA record whose primes fit their width decodes to numbers of which the RSA equations hold. -/
def Obligations.RsaStructuralValidity : Prop :=
  ∀ (p q l : Nat) (r : RsaParts), 2 < p → 2 < q → p < 256 ^ l → q < 256 ^ l → rsaParts p q = .ok r →
    let rec' := rsaRecord p q r.n r.d r.dp r.dq r.qi l
    let v := fun (f : OutField) => be2int f.raw
    v rec'.e = 65537 ∧ v rec'.p = p ∧ v rec'.q = q ∧ v rec'.p * v rec'.q = v rec'.n ∧
      v rec'.e * v rec'.d % ((v rec'.p - 1) * (v rec'.q - 1)) = 1 ∧ v rec'.qi * v rec'.q % v rec'.p = 1 ∧
      v rec'.dp = v rec'.d % (v rec'.p - 1) ∧ v rec'.dq = v rec'.d % (v rec'.q - 1)

/-- R199: an EC record of a reduced scalar with a public point decodes to that scalar, not 0 and below the order, and to
the coordinates of its multiple of the generator, a point of the curve. The multiple is the one doubling and adding gives (the
model's choice, log entry 7), which `EcmulResult` says is R193's sum. -/
def Obligations.EcRangeValidity : Prop :=
  ∀ d x y : Nat, d < ecN → mulPoint d ecG = .affine x y →
    let r := ecRecord d x y
    1 ≤ be2int r.d.raw ∧ be2int r.d.raw < ecN ∧ be2int r.x.raw < ecP ∧ be2int r.y.raw < ecP ∧
      (Point.affine (be2int r.x.raw) (be2int r.y.raw)).OnCurve ∧
      mulPoint (be2int r.d.raw) ecG = .affine (be2int r.x.raw) (be2int r.y.raw)

/-! ## Invariants every step keeps -/

/-- The input arrays stay canonical, hold bytes only where bytes exist, and every length stays within its capacity (R31,
R78, R80). -/
def Obligations.StorageKept : Prop :=
  ∀ s t : State, StorageInv Config.platform s → step s = .next t → StorageInv Config.platform t

/-- The command lifecycle: `BUSY`, `DONE` and `FAULT` exclude each other, `ERR` shows a fault exactly in the fault state,
an idle sequencer is cleared, a running one's names a command and a place in it (R13, R36, R37, R42, R107, R221, R240), and an
idle engine holds a record only with `DONE = 1` (R265). -/
def Obligations.LifecycleKept : Prop :=
  ∀ s t : State, LifecycleInv s → step s = .next t → LifecycleInv t

/-- The derived registers keep their widths and ranges, a prime register holds an odd number the oracle accepted, a
candidate is where the search has got to, with `OVF` set once it has reached the width of its base (R33, R162, R164, R165,
R170; for a search still under way by D14, log entry 15); and the record keeps the widths of R177 and R197. -/
def Obligations.RegistersAndOutKept : Prop :=
  ∀ s t : State, LifecycleInv s → RegisterInv Config.platform s → OutInv s → step s = .next t →
    RegisterInv Config.platform t ∧ OutInv t

/-- The invariants hold after reset. -/
def Obligations.InvariantsAtReset : Prop :=
  StorageInv Config.platform State.reset ∧ LifecycleInv State.reset ∧ RegisterInv Config.platform State.reset ∧
    OutInv State.reset

end
end

