-- ==== Sys2Proof/Laws/Access.lean ====
section
/-! SUPPORT. Host accesses, said once: the step of a host move, and which location an offset selects (20_memory.md R71). -/

namespace Sys2Proof.Machine

/-! ## The step of a host move -/

theorem accessFault_none {off : Nat} (h4 : off % 4 = 0) (h : off ≤ 0x3FFC) : accessFault off = none := by
  rw [accessFault, if_neg (by omega), if_neg (by omega)]

/-- The step at which the host makes a move is that move. -/
theorem step_withMove (s : State) (m : HostMove) :
    step (s.withMove m) = hostMove Config.platform exec m (s.withMove m) s := rfl

theorem step_read (s : State) {off : Nat} (h4 : off % 4 = 0) (h : off ≤ 0x3FFC) :
    step (s.withMove (.read off)) = .next (hostRead Config.platform off s) := by
  simp only [step_withMove, hostMove, accessFault_none h4 h]

theorem step_write (s : State) {off : Nat} (v : Word) (h4 : off % 4 = 0) (h : off ≤ 0x3FFC) :
    step (s.withMove (.write off v)) = hostWrite Config.platform exec off v s := by
  simp only [step_withMove, hostMove, accessFault_none h4 h]

/-! ## The location of an offset -/

theorem registerAt_none {off : Nat} (h : 0x0034 ≤ off) : registerAt off = none := by
  rw [registerAt, Option.map_eq_none_iff, List.find?_eq_none]
  intro r hr
  simp only [registerMap, List.mem_cons, List.not_mem_nil, or_false] at hr
  rcases hr with h | h | h | h | h | h | h | h | h | h | h | h | h <;> subst h <;>
    simp only [beq_iff_eq] <;> omega

theorem bufferCapacity_le (c : Config) (b : Buf) : b.capacity c ≤ 256 := by
  cases b
  · exact Nat.lt_succ_iff.mp c.seedMax.isLt
  · exact Nat.lt_succ_iff.mp c.didMax.isLt
  · exact Nat.lt_succ_iff.mp c.peerMax.isLt
  · exact Nat.lt_succ_iff.mp c.ktypeMax.isLt

/-- The windows of the buffers do not meet. -/
theorem holds_window {c : Config} {b : Buf} {off : Nat} (h : b.holds c off = true) :
    b.base ≤ off ∧ off < b.base + b.capacity c ∧ off < b.base + 0x100 := by
  have := bufferCapacity_le c b
  simp only [Buf.holds, Bool.and_eq_true, decide_eq_true_eq] at h
  omega

theorem bufferAt_eq {c : Config} {b : Buf} {off : Nat} (h1 : b.base ≤ off) (h2 : off < b.base + b.capacity c) :
    bufferAt c off = some b := by
  have here : ∀ b' : Buf, b'.holds c off = decide (b' = b) := by
    intro b'
    have := bufferCapacity_le c b
    have := bufferCapacity_le c b'
    by_cases hb : b' = b
    · subst hb; simp [Buf.holds, h1, h2]
    · simp only [Buf.holds, hb, decide_false, Bool.and_eq_false_iff, decide_eq_false_iff_not]
      cases b <;> cases b' <;> first | exact absurd rfl hb | (simp only [Buf.base] at *; omega)
  cases b <;> simp [bufferAt, List.find?, here]

theorem bufferAt_none {c : Config} {off : Nat} (h : ∀ b : Buf, off < b.base ∨ b.base + b.capacity c ≤ off) :
    bufferAt c off = none := by
  rw [bufferAt, List.find?_eq_none]
  intro b _
  have := h b
  simp only [Buf.holds, Bool.and_eq_true, decide_eq_true_eq]
  omega

theorem locate_buffer {c : Config} {b : Buf} {off : Nat} (h1 : b.base ≤ off) (h2 : off < b.base + b.capacity c) :
    locate c off = .bytes b := by
  have : 0x0034 ≤ off := by cases b <;> simp only [Buf.base] at h1 <;> omega
  rw [locate, registerAt_none this, bufferAt_eq h1 h2]

theorem inOutWindow_iff (off : Nat) :
    inOutWindow off = true ↔ (0x1000 ≤ off ∧ off ≤ 0x1BFF) ∨ (0x2000 ≤ off ∧ off ≤ 0x2FFF) := by
  simp [inOutWindow]

theorem locate_other {c : Config} {off : Nat} (h : 0x0034 ≤ off)
    (hb : ∀ b : Buf, off < b.base ∨ b.base + b.capacity c ≤ off) :
    locate c off = if inOutWindow off then .outWindow else .unmapped := by
  rw [locate, registerAt_none h, bufferAt_none hb]

/-- The rest of a buffer's window, beyond its capacity, is unmapped (R78). -/
theorem locate_beyond {c : Config} {b : Buf} {off : Nat} (h1 : b.base + b.capacity c ≤ off)
    (h2 : off < b.base + 0x100) : locate c off = .unmapped := by
  have hs := bufferCapacity_le c .seed
  have hd := bufferCapacity_le c .did
  have hp := bufferCapacity_le c .peer
  have hk := bufferCapacity_le c .ktype
  rw [locate_other, if_neg] <;> cases b <;> simp only [Buf.base, inOutWindow_iff] at h1 h2 ⊢ <;>
    first
      | omega
      | (intro b'; cases b' <;> dsimp only <;> omega)

theorem locate_low {c : Config} {off : Nat} (h1 : 0x0034 ≤ off) (h2 : off < 0x0100) : locate c off = .unmapped := by
  rw [locate_other h1 (fun b => by cases b <;> simp only [Buf.base] <;> omega),
    if_neg (by rw [inOutWindow_iff]; omega)]

theorem locate_high {c : Config} {off : Nat} (h : 0x0500 ≤ off) :
    locate c off = if inOutWindow off then .outWindow else .unmapped := by
  have hs := bufferCapacity_le c .seed
  have hd := bufferCapacity_le c .did
  have hp := bufferCapacity_le c .peer
  have hk := bufferCapacity_le c .ktype
  exact locate_other (by omega) (fun b => by cases b <;> simp only [Buf.base] <;> omega)

theorem locate_window {c : Config} {off : Nat} (h : inOutWindow off = true) : locate c off = .outWindow := by
  have := (inOutWindow_iff off).mp h
  rw [locate_high (by omega), if_pos h]

/-- The reserved offsets between the windows and above them are unmapped (R71). -/
theorem locate_reserved {c : Config} {off : Nat} (h : 0x0500 ≤ off) (hw : inOutWindow off = false) :
    locate c off = .unmapped := by
  rw [locate_high h, hw, if_neg (by decide)]

/-- Only the two windows of `OUT` are output windows. -/
theorem locate_outWindow_iff (c : Config) (off : Nat) : locate c off = .outWindow ↔ inOutWindow off = true := by
  refine ⟨fun h => ?_, locate_window⟩
  by_contra hn
  unfold locate at h
  split at h
  · next l hl =>
    subst h
    obtain ⟨r, hr, hb⟩ := Option.map_eq_some_iff.mp hl
    have hm := List.mem_of_find?_eq_some hr
    simp only [registerMap, List.mem_cons, List.not_mem_nil, or_false] at hm
    rcases hm with h | h | h | h | h | h | h | h | h | h | h | h | h <;> subst h <;> cases hb
  · split at h
    · cases h
    · rw [if_neg hn] at h; cases h

/-! ## What the host sees of `OUT` -/

@[simp] theorem shownOut_busy {s : State} (h : s.flags.busy = true) : s.shownOut = .none := by
  rw [State.shownOut, if_pos h]

@[simp] theorem shownOut_idle {s : State} (h : s.flags.busy = false) : s.shownOut = s.out := by
  rw [State.shownOut, if_neg (by simp [h])]

/-- Everything a read does to `RDERR` (R77, R85, R265). -/
theorem readEffect_eq (c : Config) (off : Nat) (s : State) :
    readEffect c off s = { s with
      flags := { s.flags with rdErr := s.flags.rdErr || (inOutWindow off && !outHasByte s.shownOut off) } } := by
  unfold readEffect
  by_cases h : locate c off = .outWindow ∧ outHasByte s.shownOut off = false
  · rw [if_pos h, (locate_outWindow_iff c off).mp h.1, h.2]; simp
  · rw [if_neg h]
    have : (inOutWindow off && !outHasByte s.shownOut off) = false := by
      rw [Bool.eq_false_iff]
      intro ht
      simp only [Bool.and_eq_true, Bool.not_eq_true'] at ht
      exact h ⟨(locate_outWindow_iff c off).mpr ht.1, ht.2⟩
    rw [this, Bool.or_false]

end Sys2Proof.Machine
end

