-- ==== Sys2Proof/Laws/Primes.lean ====
section
/-! SUPPORT. `EC_P` and `EC_N` are prime (45_ec.md R191): Lucas's test, with the factors of each predecessor. -/

namespace Sys2Proof.Machine

/-- `a ^ e * acc` modulo `n`, the bits of `e` from the least significant; `fuel` bounds their number. -/
def powMod (n : Nat) : Nat → Nat → Nat → Nat → Nat
  | 0, _, _, acc => acc % n
  | fuel + 1, a, e, acc => powMod n fuel (a * a % n) (e / 2) (if e % 2 = 1 then acc * a % n else acc)

theorem powMod_modEq (n : Nat) : ∀ fuel a e acc, e < 2 ^ fuel → powMod n fuel a e acc ≡ acc * a ^ e [MOD n] := by
  intro fuel
  induction fuel with
  | zero =>
    intro a e acc h
    obtain rfl : e = 0 := by simpa using h
    simpa [powMod] using Nat.mod_modEq acc n
  | succ fuel ih =>
    intro a e acc h
    have hs : (a * a % n) ^ (e / 2) ≡ a ^ (2 * (e / 2)) [MOD n] := by
      rw [pow_mul, pow_two]; exact (Nat.mod_modEq _ n).pow _
    have hlt : e / 2 < 2 ^ fuel := by rw [pow_succ] at h; omega
    refine (ih _ _ _ hlt).trans ?_
    split
    · next ho =>
      have : a * a ^ (2 * (e / 2)) = a ^ e := by rw [← pow_succ', show 2 * (e / 2) + 1 = e by omega]
      rw [← this, ← mul_assoc]
      exact (Nat.mod_modEq _ n).mul hs
    · next ho =>
      rw [show 2 * (e / 2) = e by omega] at hs
      exact hs.mul_left acc

/-- Lucas's test of `p` by the base `a`, over the prime factors of `p - 1` with their multiplicities. -/
theorem prime_of_lucas (p a : Nat) (fs : List Nat) (hfs : ∀ q ∈ fs, q.Prime) (hprod : fs.prod = p - 1)
    (hp : p < 2 ^ 256) (h1 : powMod p 256 a (p - 1) 1 = 1 % p)
    (hq : ∀ q ∈ fs, powMod p 256 a ((p - 1) / q) 1 ≠ 1 % p) : p.Prime := by
  have cast : ∀ e, e < 2 ^ 256 → ((a : ZMod p) ^ e = 1 ↔ powMod p 256 a e 1 = 1 % p) := by
    intro e he
    have h := powMod_modEq p 256 a e 1 he
    rw [one_mul] at h
    have hm : powMod p 256 a e 1 % p = powMod p 256 a e 1 := by
      suffices ∀ fuel a e acc, powMod p fuel a e acc % p = powMod p fuel a e acc from this _ _ _ _
      intro fuel
      induction fuel with
      | zero => intro a e acc; simp [powMod]
      | succ fuel ih => intro a e acc; exact ih _ _ _
    rw [← Nat.cast_one, ← Nat.cast_pow, ZMod.natCast_eq_natCast_iff]
    constructor
    · intro h'
      have := h.trans h'
      rwa [Nat.ModEq, hm] at this
    · intro h'
      refine h.symm.trans ?_
      rw [Nat.ModEq, hm, h']
  have hle : p - 1 < 2 ^ 256 := by omega
  refine lucas_primality p (a : ZMod p) ((cast _ hle).mpr h1) fun q hqp hd => ?_
  rw [← hprod] at hd
  obtain ⟨r, hr, hdr⟩ := (Nat.Prime.prime hqp).dvd_prod_iff.mp hd
  obtain rfl := (Nat.prime_dvd_prime_iff_eq hqp (hfs r hr)).mp hdr
  exact fun h => hq q hr ((cast _ (lt_of_le_of_lt (Nat.div_le_self _ _) hle)).mp h)

theorem prime_13331831 : Nat.Prime 13331831 := by
  refine prime_of_lucas 13331831 13 [2, 5, 971, 1373] ?_ (by decide +kernel) (by decide +kernel)
    (by decide +kernel) (by decide +kernel)
  simp only [List.mem_cons, List.not_mem_nil, or_false]
  rintro q (rfl | rfl | rfl | rfl)
  · norm_num
  · norm_num
  · norm_num
  · norm_num

theorem prime_173378833005 : Nat.Prime 173378833005251801 := by
  refine prime_of_lucas 173378833005251801 6 [2, 2, 2, 5, 5, 2621, 24809, 13331831] ?_ (by decide +kernel) (by decide +kernel)
    (by decide +kernel) (by decide +kernel)
  simp only [List.mem_cons, List.not_mem_nil, or_false]
  rintro q (rfl | rfl | rfl | rfl | rfl | rfl | rfl | rfl)
  · norm_num
  · norm_num
  · norm_num
  · norm_num
  · norm_num
  · norm_num
  · norm_num
  · exact prime_13331831

theorem prime_221494926740 : Nat.Prime 22149492674086928081353 := by
  refine prime_of_lucas 22149492674086928081353 5 [2, 2, 2, 3, 5323, 173378833005251801] ?_ (by decide +kernel) (by decide +kernel)
    (by decide +kernel) (by decide +kernel)
  simp only [List.mem_cons, List.not_mem_nil, or_false]
  rintro q (rfl | rfl | rfl | rfl | rfl | rfl)
  · norm_num
  · norm_num
  · norm_num
  · norm_num
  · norm_num
  · exact prime_173378833005

theorem prime_132896956044 : Nat.Prime 132896956044521568488119 := by
  refine prime_of_lucas 132896956044521568488119 6 [2, 3, 22149492674086928081353] ?_ (by decide +kernel) (by decide +kernel)
    (by decide +kernel) (by decide +kernel)
  simp only [List.mem_cons, List.not_mem_nil, or_false]
  rintro q (rfl | rfl | rfl)
  · norm_num
  · norm_num
  · exact prime_221494926740

theorem prime_1206781 : Nat.Prime 1206781 := by
  refine prime_of_lucas 1206781 10 [2, 2, 3, 5, 20113] ?_ (by decide +kernel) (by decide +kernel)
    (by decide +kernel) (by decide +kernel)
  simp only [List.mem_cons, List.not_mem_nil, or_false]
  rintro q (rfl | rfl | rfl | rfl | rfl)
  · norm_num
  · norm_num
  · norm_num
  · norm_num
  · norm_num

theorem prime_7240687 : Nat.Prime 7240687 := by
  refine prime_of_lucas 7240687 3 [2, 3, 1206781] ?_ (by decide +kernel) (by decide +kernel)
    (by decide +kernel) (by decide +kernel)
  simp only [List.mem_cons, List.not_mem_nil, or_false]
  rintro q (rfl | rfl | rfl)
  · norm_num
  · norm_num
  · exact prime_1206781

theorem prime_107590001 : Nat.Prime 107590001 := by
  refine prime_of_lucas 107590001 3 [2, 2, 2, 2, 5, 5, 5, 5, 7, 29, 53] ?_ (by decide +kernel) (by decide +kernel)
    (by decide +kernel) (by decide +kernel)
  simp only [List.mem_cons, List.not_mem_nil, or_false]
  rintro q (rfl | rfl | rfl | rfl | rfl | rfl | rfl | rfl | rfl | rfl | rfl)
  · norm_num
  · norm_num
  · norm_num
  · norm_num
  · norm_num
  · norm_num
  · norm_num
  · norm_num
  · norm_num
  · norm_num
  · norm_num

theorem prime_255515944373 : Nat.Prime 255515944373312847190720520512484175977 := by
  refine prime_of_lucas 255515944373312847190720520512484175977 3 [2, 2, 2, 7, 7, 11, 1627, 2657, 4423, 41201, 96557, 7240687, 107590001] ?_ (by decide +kernel) (by decide +kernel)
    (by decide +kernel) (by decide +kernel)
  simp only [List.mem_cons, List.not_mem_nil, or_false]
  rintro q (rfl | rfl | rfl | rfl | rfl | rfl | rfl | rfl | rfl | rfl | rfl | rfl | rfl)
  · norm_num
  · norm_num
  · norm_num
  · norm_num
  · norm_num
  · norm_num
  · norm_num
  · norm_num
  · norm_num
  · norm_num
  · norm_num
  · exact prime_7240687
  · exact prime_107590001

theorem prime_205115282021 : Nat.Prime 205115282021455665897114700593932402728804164701536103180137503955397371 := by
  refine prime_of_lucas 205115282021455665897114700593932402728804164701536103180137503955397371 10 [2, 3, 5, 29, 29, 31, 7723, 132896956044521568488119, 255515944373312847190720520512484175977] ?_ (by decide +kernel) (by decide +kernel)
    (by decide +kernel) (by decide +kernel)
  simp only [List.mem_cons, List.not_mem_nil, or_false]
  rintro q (rfl | rfl | rfl | rfl | rfl | rfl | rfl | rfl | rfl)
  · norm_num
  · norm_num
  · norm_num
  · norm_num
  · norm_num
  · norm_num
  · norm_num
  · exact prime_132896956044
  · exact prime_255515944373

theorem ecP_prime : Nat.Prime ecP := by
  refine prime_of_lucas ecP 3 [2, 3, 7, 13441, 205115282021455665897114700593932402728804164701536103180137503955397371] ?_ (by decide +kernel) (by decide +kernel)
    (by decide +kernel) (by decide +kernel)
  simp only [List.mem_cons, List.not_mem_nil, or_false]
  rintro q (rfl | rfl | rfl | rfl | rfl)
  · norm_num
  · norm_num
  · norm_num
  · norm_num
  · exact prime_205115282021

theorem prime_4681609 : Nat.Prime 4681609 := by
  refine prime_of_lucas 4681609 23 [2, 2, 2, 3, 97, 2011] ?_ (by decide +kernel) (by decide +kernel)
    (by decide +kernel) (by decide +kernel)
  simp only [List.mem_cons, List.not_mem_nil, or_false]
  rintro q (rfl | rfl | rfl | rfl | rfl | rfl)
  · norm_num
  · norm_num
  · norm_num
  · norm_num
  · norm_num
  · norm_num

theorem prime_107361793816 : Nat.Prime 107361793816595537 := by
  refine prime_of_lucas 107361793816595537 3 [2, 2, 2, 2, 16699, 85831, 4681609] ?_ (by decide +kernel) (by decide +kernel)
    (by decide +kernel) (by decide +kernel)
  simp only [List.mem_cons, List.not_mem_nil, or_false]
  rintro q (rfl | rfl | rfl | rfl | rfl | rfl | rfl)
  · norm_num
  · norm_num
  · norm_num
  · norm_num
  · norm_num
  · norm_num
  · exact prime_4681609

theorem prime_120233 : Nat.Prime 120233 := by
  refine prime_of_lucas 120233 3 [2, 2, 2, 7, 19, 113] ?_ (by decide +kernel) (by decide +kernel)
    (by decide +kernel) (by decide +kernel)
  simp only [List.mem_cons, List.not_mem_nil, or_false]
  rintro q (rfl | rfl | rfl | rfl | rfl | rfl)
  · norm_num
  · norm_num
  · norm_num
  · norm_num
  · norm_num
  · norm_num

theorem prime_44706919 : Nat.Prime 44706919 := by
  refine prime_of_lucas 44706919 6 [2, 3, 797, 9349] ?_ (by decide +kernel) (by decide +kernel)
    (by decide +kernel) (by decide +kernel)
  simp only [List.mem_cons, List.not_mem_nil, or_false]
  rintro q (rfl | rfl | rfl | rfl)
  · norm_num
  · norm_num
  · norm_num
  · norm_num

theorem prime_174723607534 : Nat.Prime 174723607534414371449 := by
  refine prime_of_lucas 174723607534414371449 3 [2, 2, 2, 17, 59, 4051, 120233, 44706919] ?_ (by decide +kernel) (by decide +kernel)
    (by decide +kernel) (by decide +kernel)
  simp only [List.mem_cons, List.not_mem_nil, or_false]
  rintro q (rfl | rfl | rfl | rfl | rfl | rfl | rfl | rfl)
  · norm_num
  · norm_num
  · norm_num
  · norm_num
  · norm_num
  · norm_num
  · exact prime_120233
  · exact prime_44706919

theorem prime_305873 : Nat.Prime 305873 := by
  refine prime_of_lucas 305873 3 [2, 2, 2, 2, 7, 2731] ?_ (by decide +kernel) (by decide +kernel)
    (by decide +kernel) (by decide +kernel)
  simp only [List.mem_cons, List.not_mem_nil, or_false]
  rintro q (rfl | rfl | rfl | rfl | rfl | rfl)
  · norm_num
  · norm_num
  · norm_num
  · norm_num
  · norm_num
  · norm_num

theorem prime_545358713 : Nat.Prime 545358713 := by
  refine prime_of_lucas 545358713 5 [2, 2, 2, 41, 59, 28181] ?_ (by decide +kernel) (by decide +kernel)
    (by decide +kernel) (by decide +kernel)
  simp only [List.mem_cons, List.not_mem_nil, or_false]
  rintro q (rfl | rfl | rfl | rfl | rfl | rfl)
  · norm_num
  · norm_num
  · norm_num
  · norm_num
  · norm_num
  · norm_num

theorem prime_1627771 : Nat.Prime 1627771 := by
  refine prime_of_lucas 1627771 3 [2, 3, 5, 29, 1871] ?_ (by decide +kernel) (by decide +kernel)
    (by decide +kernel) (by decide +kernel)
  simp only [List.mem_cons, List.not_mem_nil, or_false]
  rintro q (rfl | rfl | rfl | rfl | rfl)
  · norm_num
  · norm_num
  · norm_num
  · norm_num
  · norm_num

theorem prime_297159362677 : Nat.Prime 297159362677 := by
  refine prime_of_lucas 297159362677 2 [2, 2, 3, 3, 11, 461, 1627771] ?_ (by decide +kernel) (by decide +kernel)
    (by decide +kernel) (by decide +kernel)
  simp only [List.mem_cons, List.not_mem_nil, or_false]
  rintro q (rfl | rfl | rfl | rfl | rfl | rfl | rfl)
  · norm_num
  · norm_num
  · norm_num
  · norm_num
  · norm_num
  · norm_num
  · exact prime_1627771

theorem prime_290476118734 : Nat.Prime 29047611873442575647497758179 := by
  refine prime_of_lucas 29047611873442575647497758179 2 [2, 293, 305873, 545358713, 297159362677] ?_ (by decide +kernel) (by decide +kernel)
    (by decide +kernel) (by decide +kernel)
  simp only [List.mem_cons, List.not_mem_nil, or_false]
  rintro q (rfl | rfl | rfl | rfl | rfl)
  · norm_num
  · norm_num
  · exact prime_305873
  · exact prime_545358713
  · exact prime_297159362677

theorem prime_341948486974 : Nat.Prime 341948486974166000522343609283189 := by
  refine prime_of_lucas 341948486974166000522343609283189 2 [2, 2, 3, 3, 3, 109, 29047611873442575647497758179] ?_ (by decide +kernel) (by decide +kernel)
    (by decide +kernel) (by decide +kernel)
  simp only [List.mem_cons, List.not_mem_nil, or_false]
  rintro q (rfl | rfl | rfl | rfl | rfl | rfl | rfl)
  · norm_num
  · norm_num
  · norm_num
  · norm_num
  · norm_num
  · norm_num
  · exact prime_290476118734

theorem ecN_prime : Nat.Prime ecN := by
  refine prime_of_lucas ecN 7 [2, 2, 2, 2, 2, 2, 3, 149, 631, 107361793816595537, 174723607534414371449, 341948486974166000522343609283189] ?_ (by decide +kernel) (by decide +kernel)
    (by decide +kernel) (by decide +kernel)
  simp only [List.mem_cons, List.not_mem_nil, or_false]
  rintro q (rfl | rfl | rfl | rfl | rfl | rfl | rfl | rfl | rfl | rfl | rfl | rfl)
  · norm_num
  · norm_num
  · norm_num
  · norm_num
  · norm_num
  · norm_num
  · norm_num
  · norm_num
  · norm_num
  · exact prime_107361793816
  · exact prime_174723607534
  · exact prime_341948486974

end Sys2Proof.Machine
end

