-- ==== Sys2Proof/Laws/Curve.lean ====
section
/-! SUPPORT. The group law of secp256k1: the inverse of 00_scope.md R16 by Euclid's algorithm, and the sum of 45_ec.md R192 as the addition of Mathlib's group of points. -/

namespace Sys2Proof.Machine

/-! ## Euclid's algorithm -/

/-- What `euclid` answers: the greatest common divisor, and its coefficient of `a` modulo `m`. -/
theorem euclid_spec (m a : Nat) (hm : 0 < m) : ∀ fuel r0 r1 t0 t1, r1 < fuel → a * t0 ≡ r0 [MOD m] →
    a * t1 ≡ r1 [MOD m] → t0 < m →  t1 < m →
    (euclid m fuel r0 r1 t0 t1).1 = Nat.gcd r0 r1 ∧ a * (euclid m fuel r0 r1 t0 t1).2 ≡ Nat.gcd r0 r1 [MOD m] ∧
      (euclid m fuel r0 r1 t0 t1).2 < m := by
  intro fuel
  induction fuel with
  | zero => intro r0 r1 t0 t1 h; omega
  | succ fuel ih =>
    intro r0 r1 t0 t1 hf h0 h1 l0 l1
    cases r1 with
    | zero => exact ⟨(Nat.gcd_zero_right r0).symm, by rw [Nat.gcd_zero_right]; exact h0, l0⟩
    | succ r =>
      rw [euclid, Nat.gcd_comm r0, Nat.gcd_rec (r + 1) r0, Nat.gcd_comm (r0 % (r + 1))]
      refine ih _ _ _ _ (lt_of_lt_of_le (Nat.mod_lt r0 (Nat.succ_pos r)) (Nat.lt_succ_iff.mp hf)) h1 ?_ l1
        (Nat.mod_lt _ hm)
      set q := r0 / (r + 1)
      refine Nat.ModEq.add_right_cancel' (a * (q * t1 % m)) ?_
      have e : a * ((t0 + (m - q * t1 % m)) % m) + a * (q * t1 % m) ≡ a * t0 [MOD m] := by
        rw [← mul_add]
        refine Nat.ModEq.mul_left a ?_
        refine ((Nat.mod_modEq _ m).add_right _).trans ?_
        have := Nat.mod_lt (q * t1) hm
        rw [show t0 + (m - q * t1 % m) + q * t1 % m = t0 + m by omega]
        simp [Nat.ModEq]
      refine e.trans (h0.trans ?_)
      have e2 : a * (q * t1 % m) ≡ q * (r + 1) [MOD m] := by
        refine ((Nat.mod_modEq _ m).mul_left a).trans ?_
        rw [mul_left_comm]
        exact h1.mul_left q
      have e3 : r0 = r0 % (r + 1) + q * (r + 1) := by rw [mul_comm]; exact (Nat.mod_add_div r0 (r + 1)).symm
      calc r0 = r0 % (r + 1) + q * (r + 1) := e3
        _ ≡ r0 % (r + 1) + a * (q * t1 % m) [MOD m] := e2.symm.add_left _

/-- The inverse modulo `EC_P` of a number that `EC_P` does not divide. -/
theorem invP_spec (z : Nat) (hz : z % ecP ≠ 0) : z * invP z % ecP = 1 := by
  have hc : Nat.gcd ecP (z % ecP) = 1 :=
    (Nat.Prime.coprime_iff_not_dvd ecP_prime).mpr fun h =>
      hz (by rw [← Nat.mod_mod z ecP]; exact Nat.mod_eq_zero_of_dvd h)
  have hP : 1 < ecP := by decide
  obtain ⟨h1, h2, _⟩ := euclid_spec ecP (z % ecP) (by decide) (ecP + 1) ecP (z % ecP) 0 1
    (lt_trans (Nat.mod_lt z (by decide)) (Nat.lt_succ_self _))
    (by simp [Nat.ModEq]) (by simp [Nat.ModEq]) (by decide) hP
  rw [hc] at h1 h2
  unfold invP modInverse
  rw [if_neg (by omega), Nat.mod_mod]
  generalize euclid ecP (ecP + 1) ecP (z % ecP) 0 1 = e at *
  obtain ⟨g, t⟩ := e
  simp only at h1 h2
  simp only [h1, if_true, Option.getD_some]
  have := (((Nat.mod_modEq z ecP).symm.mul_right t).trans h2)
  rwa [Nat.ModEq, Nat.mod_eq_of_lt hP] at this

/-! ## The curve in Mathlib's terms -/

section

variable [Fact (Nat.Prime ecP)]

theorem cast_subP (a b : Nat) : ((subP a b : Nat) : ZMod ecP) = a - b := by
  have h : b % ecP ≤ ecP := (Nat.mod_lt b (by decide)).le
  rw [subP, ZMod.natCast_mod, Nat.cast_add, Nat.cast_sub h, ZMod.natCast_mod, ZMod.natCast_self]
  ring

theorem cast_invP (z : Nat) (hz : (z : ZMod ecP) ≠ 0) : ((invP z : Nat) : ZMod ecP) = (z : ZMod ecP)⁻¹ := by
  have hm : z % ecP ≠ 0 := fun h => hz ((ZMod.natCast_eq_zero_iff z ecP).mpr (Nat.dvd_of_mod_eq_zero h))
  refine eq_inv_of_mul_eq_one_right ?_
  rw [← Nat.cast_mul, ← ZMod.natCast_mod, invP_spec z hm, Nat.cast_one]

theorem cast_inj {x y : Nat} (hx : x < ecP) (hy : y < ecP) : (x : ZMod ecP) = y ↔ x = y := by
  rw [ZMod.natCast_eq_natCast_iff, Nat.ModEq, Nat.mod_eq_of_lt hx, Nat.mod_eq_of_lt hy]

/-- `y^2 = x^3 + 7` over the field of `EC_P` elements (R191). -/
abbrev curve : WeierstrassCurve.Affine (ZMod ecP) := ⟨0, 0, 0, 0, 7⟩

theorem cast_seven_ne : ((7 : Nat) : ZMod ecP) ≠ 0 := by
  rw [Ne, ZMod.natCast_eq_zero_iff]; decide

theorem cast_two_ne : ((2 : Nat) : ZMod ecP) ≠ 0 := by
  rw [Ne, ZMod.natCast_eq_zero_iff]; decide

theorem cast_three_ne : ((3 : Nat) : ZMod ecP) ≠ 0 := by
  rw [Ne, ZMod.natCast_eq_zero_iff]; decide

theorem curve_equation_iff (x y : ZMod ecP) : curve.Equation x y ↔ y ^ 2 = x ^ 3 + 7 := by
  simp [WeierstrassCurve.Affine.equation_iff]

theorem curve_negY (x y : ZMod ecP) : curve.negY x y = -y := by
  simp [WeierstrassCurve.Affine.negY]

theorem curve_nonsingular {x y : ZMod ecP} (h : curve.Equation x y) : curve.Nonsingular x y := by
  rw [WeierstrassCurve.Affine.nonsingular_iff]
  refine ⟨h, ?_⟩
  by_contra hn
  push Not at hn
  obtain ⟨hx, hy⟩ := hn
  rw [curve_equation_iff] at h
  have h2 := cast_two_ne
  have h3 := cast_three_ne
  have h7 := cast_seven_ne
  push_cast at h2 h3 h7
  have y0 : y = 0 := by
    have : (2 : ZMod ecP) * y = 0 := by simp at hy; linear_combination hy
    exact (mul_eq_zero.mp this).resolve_left h2
  have x0 : x = 0 := by
    have : (3 : ZMod ecP) * x ^ 2 = 0 := by simp at hx; first | linear_combination hx | linear_combination -hx | simpa using hx
    exact pow_eq_zero_iff (two_ne_zero) |>.mp ((mul_eq_zero.mp this).resolve_left h3)
  subst x0 y0
  exact h7 (by linear_combination -h)

theorem onCurve_iff {x y : Nat} : (Point.affine x y).OnCurve ↔ x < ecP ∧ y < ecP ∧ curve.Equation (x : ZMod ecP) y := by
  rw [Point.OnCurve, curve_equation_iff]
  refine and_congr_right fun _ => and_congr_right fun _ => ?_
  have : (y : ZMod ecP) ^ 2 = (x : ZMod ecP) ^ 3 + 7 ↔ ((y * y : Nat) : ZMod ecP) = ((x * x * x + 7 : Nat) : ZMod ecP) := by
    push_cast
    constructor <;> intro h <;> linear_combination h
  rw [this, ZMod.natCast_eq_natCast_iff, Nat.ModEq]

/-- A point of the model as a point of Mathlib's curve. -/
def toCurve : (a : Point) → a.OnCurve → curve.Point
  | .infinity, _ => .zero
  | .affine x y, h => .some x y (curve_nonsingular (onCurve_iff.mp h).2.2)

theorem toCurve_injective {a b : Point} {ha : a.OnCurve} {hb : b.OnCurve} (h : toCurve a ha = toCurve b hb) : a = b := by
  cases a with
  | infinity => cases b with
    | infinity => rfl
    | affine => cases h
  | affine x y => cases b with
    | infinity => cases h
    | affine x' y' =>
      obtain ⟨h1, h2, _⟩ := onCurve_iff.mp ha
      obtain ⟨h1', h2', _⟩ := onCurve_iff.mp hb
      simp only [toCurve, WeierstrassCurve.Affine.Point.some.injEq] at h
      rw [(cast_inj h1 h1').mp h.1, (cast_inj h2 h2').mp h.2]

omit [Fact (Nat.Prime ecP)] in
theorem subP_lt (a b : Nat) : subP a b < ecP := Nat.mod_lt _ (by decide)

/-- The third point from the right slope is Mathlib's sum. -/
theorem toCurve_chord {x1 y1 x2 y2 l : Nat} (h1 : (Point.affine x1 y1).OnCurve) (h2 : (Point.affine x2 y2).OnCurve)
    (hne : ¬((x1 : ZMod ecP) = x2 ∧ (y1 : ZMod ecP) = curve.negY x2 y2))
    (hl : (l : ZMod ecP) = curve.slope x1 x2 y1 y2) :
    ∃ h : (chord l x1 y1 x2).OnCurve, toCurve _ h = toCurve _ h1 + toCurve _ h2 := by
  have e1 := (onCurve_iff.mp h1).2.2
  have e2 := (onCurve_iff.mp h2).2.2
  have hx : ((subP (subP (l * l) x1) x2 : Nat) : ZMod ecP) = curve.addX x1 x2 (curve.slope x1 x2 y1 y2) := by
    rw [← hl]; simp only [cast_subP, WeierstrassCurve.Affine.addX]; push_cast; ring
  have hy : ((subP (l * subP x1 (subP (subP (l * l) x1) x2)) y1 : Nat) : ZMod ecP) =
      curve.addY x1 x2 y1 (curve.slope x1 x2 y1 y2) := by
    rw [cast_subP, Nat.cast_mul, cast_subP, hx, ← hl]
    simp only [WeierstrassCurve.Affine.addY, WeierstrassCurve.Affine.negAddY, curve_negY]
    ring
  have heq := WeierstrassCurve.Affine.equation_add e1 e2 hne
  refine ⟨onCurve_iff.mpr ⟨subP_lt _ _, subP_lt _ _, ?_⟩, ?_⟩
  · rw [hx, hy]; exact heq
  · simp only [toCurve, chord]
    rw [WeierstrassCurve.Affine.Point.add_some hne]
    simp only [WeierstrassCurve.Affine.Point.some.injEq]
    exact ⟨hx, hy⟩

/-- The sum of R192 is the sum of the group of points, and a point of the curve. -/
theorem toCurve_addPoint (a b : Point) (ha : a.OnCurve) (hb : b.OnCurve) :
    ∃ h : (addPoint a b).OnCurve, toCurve _ h = toCurve a ha + toCurve b hb := by
  cases a with
  | infinity => exact ⟨hb, (zero_add (toCurve b hb)).symm⟩
  | affine x1 y1 => cases b with
    | infinity => exact ⟨ha, (add_zero (toCurve _ ha)).symm⟩
    | affine x2 y2 =>
      obtain ⟨lx1, ly1, e1⟩ := onCurve_iff.mp ha
      obtain ⟨lx2, ly2, e2⟩ := onCurve_iff.mp hb
      have hneg : (y1 : ZMod ecP) = curve.negY x2 y2 ↔ (y1 + y2) % ecP = 0 := by
        rw [curve_negY, eq_neg_iff_add_eq_zero, ← Nat.cast_add, ZMod.natCast_eq_zero_iff, Nat.dvd_iff_mod_eq_zero]
      simp only [addPoint]
      split
      · next h =>
        refine ⟨trivial, ?_⟩
        exact (WeierstrassCurve.Affine.Point.add_of_Y_eq (by rw [h.1]) (hneg.mpr h.2)).symm
      · next h =>
        have hne : ¬((x1 : ZMod ecP) = x2 ∧ (y1 : ZMod ecP) = curve.negY x2 y2) := by
          rw [cast_inj lx1 lx2, hneg]; exact h
        split
        · next hd =>
          obtain ⟨rfl, rfl⟩ := hd
          refine toCurve_chord ha hb hne ?_
          have hy : (y1 : ZMod ecP) ≠ curve.negY x1 y1 := fun h' => hne ⟨rfl, h'⟩
          have hy2 : ((2 * y1 : Nat) : ZMod ecP) ≠ 0 := by
            intro h0; apply hy; rw [curve_negY]; push_cast at h0; linear_combination h0
          rw [WeierstrassCurve.Affine.slope_of_Y_ne rfl hy, ZMod.natCast_mod, Nat.cast_mul, cast_invP _ hy2, curve_negY,
            div_eq_mul_inv]
          push_cast
          congr 1
          · ring
          · congr 1; ring
        · next hd =>
          have hx : x1 ≠ x2 := by
            intro hx
            subst hx
            rcases WeierstrassCurve.Affine.Y_eq_of_X_eq e1 e2 rfl with h' | h'
            · exact hd ⟨rfl, (cast_inj ly1 ly2).mp h'⟩
            · exact hne ⟨rfl, h'⟩
          refine toCurve_chord ha hb hne ?_
          have hx' : (x1 : ZMod ecP) ≠ x2 := fun h' => hx ((cast_inj lx1 lx2).mp h')
          have hz : ((subP x2 x1 : Nat) : ZMod ecP) ≠ 0 := by
            rw [cast_subP]; exact sub_ne_zero.mpr hx'.symm
          rw [WeierstrassCurve.Affine.slope_of_X_ne hx', ZMod.natCast_mod, Nat.cast_mul, cast_invP _ hz, cast_subP, cast_subP,
            ← div_eq_mul_inv, ← neg_sub, ← neg_sub (x1 : ZMod ecP), neg_div_neg_eq]

/-- The sum of `k` terms (R193) is `k` times the point. -/
theorem toCurve_sumPoint (a : Point) (ha : a.OnCurve) (k : Nat) :
    ∃ h : (sumPoint k a).OnCurve, toCurve _ h = k • toCurve a ha := by
  induction k with
  | zero => exact ⟨trivial, (zero_nsmul (toCurve a ha)).symm⟩
  | succ k ih =>
    obtain ⟨h, e⟩ := ih
    obtain ⟨h', e'⟩ := toCurve_addPoint (sumPoint k a) a h ha
    exact ⟨h', by rw [succ_nsmul, ← e]; exact e'⟩

theorem toCurve_mulAdd (fuel : Nat) : ∀ (k : Nat) (a s : Point) (ha : a.OnCurve) (hs : s.OnCurve), k < 2 ^ fuel →
    ∃ h : (mulAdd fuel k a s).OnCurve, toCurve _ h = toCurve s hs + k • toCurve a ha := by
  induction fuel with
  | zero =>
    intro k a s ha hs h
    obtain rfl : k = 0 := by simpa using h
    exact ⟨hs, by simp [mulAdd]⟩
  | succ n ih =>
    intro k a s ha hs h
    unfold mulAdd
    split
    · next h0 => subst h0; exact ⟨hs, by simp⟩
    · have hlt : k / 2 < 2 ^ n := by rw [pow_succ] at h; omega
      obtain ⟨h2, e2⟩ := toCurve_addPoint a a ha ha
      split
      · obtain ⟨h3, e3⟩ := toCurve_addPoint s a hs ha
        obtain ⟨h4, e4⟩ := ih (k / 2) _ _ h2 h3 hlt
        refine ⟨h4, ?_⟩
        rw [e4, e3, e2, ← two_nsmul, ← mul_nsmul', add_assoc, ← succ_nsmul']
        congr 2; omega
      · obtain ⟨h4, e4⟩ := ih (k / 2) _ _ h2 hs hlt
        refine ⟨h4, ?_⟩
        rw [e4, e2, ← two_nsmul, ← mul_nsmul']
        congr 2; omega

/-- Doubling and adding gives `k` times the point, as R193's sum does. -/
theorem toCurve_mulPoint (a : Point) (ha : a.OnCurve) (k : Nat) :
    ∃ h : (mulPoint k a).OnCurve, toCurve _ h = k • toCurve a ha := by
  obtain ⟨h, e⟩ := toCurve_mulAdd (k.log2 + 1) k a .infinity ha trivial Nat.lt_log2_self
  exact ⟨h, e.trans (zero_add _)⟩

end

/-! ## The generator -/

theorem ecG_onCurve : ecG.OnCurve := by unfold Point.OnCurve ecG; decide +kernel

/-- `EC_N * EC_G = O` (R193). -/
theorem mulPoint_ecN : mulPoint ecN ecG = .infinity := by decide +kernel

end Sys2Proof.Machine
end

