-- ==== Sys2Proof/Laws/Elements.lean ====
section
/-! SUPPORT. An element of GEN's microsequence ends as the step command does (46_dispatch_control.md R217). -/

namespace Sys2Proof.Machine

/-- The body of an element does the same whatever stands for `complete` at its end: it ends from a state `u` that keeps the
sequencer, `BUSY` and `DONE`, or it goes on or raises, and then without regard to the end (R217). -/
def EndsAlike (s : State) (body : (State → State) → State) : Prop :=
  (∃ u, u.seq = s.seq ∧ u.flags.busy = s.flags.busy ∧ u.flags.done = s.flags.done ∧ ∀ fin, body fin = fin u) ∨
    ∃ t, (t.flags.busy = s.flags.busy ∨ (t.flags.fault = true ∧ t.flags.done = false)) ∧ ∀ fin, body fin = t

theorem endsAlike_need {α : Type} (s : State) (r : Reg) (v : Option α) (rest : (State → State) → α → State)
    (h : ∀ x, v = some x → EndsAlike s (fun fin => rest fin x)) : EndsAlike s (fun fin => need r v s (rest fin)) := by
  cases v with
  | none => exact .inr ⟨raise (.unwrittenOperand r.index) s, .inr ⟨rfl, rfl⟩, fun _ => rfl⟩
  | some x => exact h x rfl

theorem endsAlike_fin {s u : State} (h1 : u.seq = s.seq) (h2 : u.flags.busy = s.flags.busy)
    (h3 : u.flags.done = s.flags.done) : EndsAlike s (fun fin => fin u) :=
  .inl ⟨u, h1, h2, h3, fun _ => rfl⟩

theorem endsAlike_stay {s t : State} (h : t.flags.busy = s.flags.busy) : EndsAlike s (fun _ => t) :=
  .inr ⟨t, .inl h, fun _ => rfl⟩

theorem endsAlike_raise {s : State} (f : Cause) (u : State) : EndsAlike s (fun _ => raise f u) :=
  .inr ⟨_, .inr ⟨rfl, rfl⟩, fun _ => rfl⟩

theorem endsAlike_derive (c : Config) (key : Bytes) (l : Nat) (s : State) (store : Bytes → State)
    (h : ∀ b, (store b).seq = s.seq ∧ (store b).flags.busy = s.flags.busy ∧ (store b).flags.done = s.flags.done) :
    EndsAlike s (fun fin => deriveLoop c key l (fun b => fin (store b)) s) := by
  unfold deriveLoop
  split
  · refine endsAlike_stay ?_; unfold hmacRound countRound; dsimp only; split <;> rfl
  · exact endsAlike_fin (h _).1 (h _).2.1 (h _).2.2

theorem endsAlike_search (c : Config) (w : Which) (s : State) : EndsAlike s (fun fin => searchBody c w fin s) := by
  refine endsAlike_need _ _ _ _ fun _ _ => ?_
  cases s.seq.phase
  · exact endsAlike_stay rfl
  · refine endsAlike_need _ _ _ _ fun _ _ => ?_
    unfold testCandidate rejectCandidate
    dsimp only
    split
    · exact endsAlike_stay rfl
    · split
      · exact endsAlike_raise _ _
      · refine endsAlike_stay ?_
        unfold noteOverflow
        split <;> rfl
  · refine endsAlike_need _ _ _ _ fun _ _ => ?_
    unfold storeResult noteOverflow
    split <;> exact endsAlike_fin rfl rfl rfl

/-- Every element ends alike under `complete` (a step command) and under `pc + 1` (GEN). -/
theorem elementBody_endsAlike (c : Config) (e : Element) (s : State) :
    EndsAlike s (fun fin => elementBody c e fin s) := by
  cases e <;> simp only [elementBody]
  case psrch | qsrch => exact endsAlike_search c _ s
  case mkey | psec =>
    refine endsAlike_need _ _ _ _ fun _ _ => endsAlike_need _ _ _ _ fun _ _ => ?_
    cases s.seq.phase <;> first | exact endsAlike_stay rfl | exact endsAlike_derive _ _ _ _ _ fun _ => ⟨rfl, rfl, rfl⟩
  case pgen =>
    refine endsAlike_need _ _ _ _ fun _ _ => endsAlike_need _ _ _ _ fun _ _ => ?_
    cases s.seq.phase
    · dsimp only
      split
      · exact endsAlike_stay rfl
      · exact endsAlike_raise _ _
    all_goals exact endsAlike_need _ _ _ _ fun _ _ => endsAlike_derive _ _ _ _ _ fun _ => ⟨rfl, rfl, rfl⟩
  case qgen =>
    refine endsAlike_need _ _ _ _ fun _ _ => endsAlike_need _ _ _ _ fun _ _ => endsAlike_need _ _ _ _ fun _ _ => ?_
    cases s.seq.phase <;> first | exact endsAlike_stay rfl | exact endsAlike_derive _ _ _ _ _ fun _ => ⟨rfl, rfl, rfl⟩
  case rsaasm =>
    refine endsAlike_need _ _ _ _ fun _ _ => endsAlike_need _ _ _ _ fun _ _ => ?_
    dsimp only
    split
    · exact endsAlike_raise _ _
    · exact endsAlike_fin rfl rfl rfl
  case rsaexp =>
    iterate 7 refine endsAlike_need _ _ _ _ fun _ _ => ?_
    exact endsAlike_need _ _ _ _ fun _ _ => endsAlike_fin rfl rfl rfl
  case ecred => exact endsAlike_need _ _ _ _ fun _ _ => endsAlike_fin rfl rfl rfl
  case ecmul =>
    refine endsAlike_need _ _ _ _ fun _ _ => ?_
    dsimp only
    split
    · exact endsAlike_raise _ _
    · exact endsAlike_fin rfl rfl rfl
  case ecexp =>
    exact endsAlike_need _ _ _ _ fun _ _ => endsAlike_need _ _ _ _ fun _ _ => endsAlike_need _ _ _ _ fun _ _ =>
      endsAlike_fin rfl rfl rfl
  case scrub => exact endsAlike_fin rfl rfl rfl

end Sys2Proof.Machine
end

