-- ==== Sys2Proof/Laws/State.lean ====
section
/-! SUPPORT. What each record update does to each field of the state: one lemma per field per update, true by unfolding. -/

namespace Sys2Proof.Machine

/-! ## raise -/

@[simp] theorem raise_mem (f : Cause) (s : State) : (raise f s).mem = s.mem := rfl
@[simp] theorem raise_seed (f : Cause) (s : State) : (raise f s).seed = s.seed := rfl
@[simp] theorem raise_did (f : Cause) (s : State) : (raise f s).did = s.did := rfl
@[simp] theorem raise_peer (f : Cause) (s : State) : (raise f s).peer = s.peer := rfl
@[simp] theorem raise_ktype (f : Cause) (s : State) : (raise f s).ktype = s.ktype := rfl
@[simp] theorem raise_keySize (f : Cause) (s : State) : (raise f s).keySize = s.keySize := rfl
@[simp] theorem raise_derived (f : Cause) (s : State) : (raise f s).derived = Derived.invalid := rfl
@[simp] theorem raise_out (f : Cause) (s : State) : (raise f s).out = .none := rfl
@[simp] theorem raise_flags (f : Cause) (s : State) : (raise f s).flags = { s.flags with fault := true, busy := false, done := false } := rfl
@[simp] theorem raise_seq (f : Cause) (s : State) : (raise f s).seq = s.seq.cleared := rfl
@[simp] theorem raise_err (f : Cause) (s : State) : (raise f s).err = f.err := rfl
@[simp] theorem raise_counters (f : Cause) (s : State) : (raise f s).counters = s.counters := rfl
@[simp] theorem raise_host (f : Cause) (s : State) : (raise f s).host = s.host := rfl

/-! ## clearDerivedState -/

@[simp] theorem clearDerivedState_mem (s : State) : (clearDerivedState s).mem = s.mem := rfl
@[simp] theorem clearDerivedState_seed (s : State) : (clearDerivedState s).seed = s.seed := rfl
@[simp] theorem clearDerivedState_did (s : State) : (clearDerivedState s).did = s.did := rfl
@[simp] theorem clearDerivedState_peer (s : State) : (clearDerivedState s).peer = s.peer := rfl
@[simp] theorem clearDerivedState_ktype (s : State) : (clearDerivedState s).ktype = s.ktype := rfl
@[simp] theorem clearDerivedState_keySize (s : State) : (clearDerivedState s).keySize = s.keySize := rfl
@[simp] theorem clearDerivedState_derived (s : State) : (clearDerivedState s).derived = Derived.invalid := rfl
@[simp] theorem clearDerivedState_out (s : State) : (clearDerivedState s).out = .none := rfl
@[simp] theorem clearDerivedState_flags (s : State) : (clearDerivedState s).flags = { s.flags with done := false, fault := false, ovf := false, drop := false, rdErr := false } := rfl
@[simp] theorem clearDerivedState_seq (s : State) : (clearDerivedState s).seq = s.seq.cleared := rfl
@[simp] theorem clearDerivedState_err (s : State) : (clearDerivedState s).err = ⟨0x00, 0x00⟩ := rfl
@[simp] theorem clearDerivedState_counters (s : State) : (clearDerivedState s).counters = ⟨0, 0, 0⟩ := rfl
@[simp] theorem clearDerivedState_host (s : State) : (clearDerivedState s).host = s.host := rfl

/-! ## clearInputs -/

@[simp] theorem clearInputs_mem (s : State) : (clearInputs s).mem = [] := rfl
@[simp] theorem clearInputs_seed (s : State) : (clearInputs s).seed = ⟨0, false⟩ := rfl
@[simp] theorem clearInputs_did (s : State) : (clearInputs s).did = ⟨0, false⟩ := rfl
@[simp] theorem clearInputs_peer (s : State) : (clearInputs s).peer = ⟨0, false⟩ := rfl
@[simp] theorem clearInputs_ktype (s : State) : (clearInputs s).ktype = ⟨0, false⟩ := rfl
@[simp] theorem clearInputs_keySize (s : State) : (clearInputs s).keySize = 0 := rfl
@[simp] theorem clearInputs_derived (s : State) : (clearInputs s).derived = s.derived := rfl
@[simp] theorem clearInputs_out (s : State) : (clearInputs s).out = s.out := rfl
@[simp] theorem clearInputs_flags (s : State) : (clearInputs s).flags = s.flags := rfl
@[simp] theorem clearInputs_seq (s : State) : (clearInputs s).seq = s.seq := rfl
@[simp] theorem clearInputs_err (s : State) : (clearInputs s).err = s.err := rfl
@[simp] theorem clearInputs_counters (s : State) : (clearInputs s).counters = s.counters := rfl
@[simp] theorem clearInputs_host (s : State) : (clearInputs s).host = s.host := rfl

/-! ## dropWrite -/

@[simp] theorem dropWrite_mem (s : State) : (dropWrite s).mem = s.mem := rfl
@[simp] theorem dropWrite_seed (s : State) : (dropWrite s).seed = s.seed := rfl
@[simp] theorem dropWrite_did (s : State) : (dropWrite s).did = s.did := rfl
@[simp] theorem dropWrite_peer (s : State) : (dropWrite s).peer = s.peer := rfl
@[simp] theorem dropWrite_ktype (s : State) : (dropWrite s).ktype = s.ktype := rfl
@[simp] theorem dropWrite_keySize (s : State) : (dropWrite s).keySize = s.keySize := rfl
@[simp] theorem dropWrite_derived (s : State) : (dropWrite s).derived = s.derived := rfl
@[simp] theorem dropWrite_out (s : State) : (dropWrite s).out = s.out := rfl
@[simp] theorem dropWrite_flags (s : State) : (dropWrite s).flags = { s.flags with drop := true } := rfl
@[simp] theorem dropWrite_seq (s : State) : (dropWrite s).seq = s.seq := rfl
@[simp] theorem dropWrite_err (s : State) : (dropWrite s).err = s.err := rfl
@[simp] theorem dropWrite_counters (s : State) : (dropWrite s).counters = s.counters := rfl
@[simp] theorem dropWrite_host (s : State) : (dropWrite s).host = s.host := rfl

/-! ## latchCommand -/

@[simp] theorem latchCommand_mem (i : Instr) (s : State) : (latchCommand i s).mem = s.mem := rfl
@[simp] theorem latchCommand_seed (i : Instr) (s : State) : (latchCommand i s).seed = s.seed := rfl
@[simp] theorem latchCommand_did (i : Instr) (s : State) : (latchCommand i s).did = s.did := rfl
@[simp] theorem latchCommand_peer (i : Instr) (s : State) : (latchCommand i s).peer = s.peer := rfl
@[simp] theorem latchCommand_ktype (i : Instr) (s : State) : (latchCommand i s).ktype = s.ktype := rfl
@[simp] theorem latchCommand_keySize (i : Instr) (s : State) : (latchCommand i s).keySize = s.keySize := rfl
@[simp] theorem latchCommand_derived (i : Instr) (s : State) : (latchCommand i s).derived = s.derived := rfl
@[simp] theorem latchCommand_out (i : Instr) (s : State) : (latchCommand i s).out = s.out := rfl
@[simp] theorem latchCommand_flags (i : Instr) (s : State) : (latchCommand i s).flags = { s.flags with done := false } := rfl
@[simp] theorem latchCommand_seq (i : Instr) (s : State) : (latchCommand i s).seq = { s.seq with cur := opcode i, sub := opcode i, gidx := 0, phase := .operands } := rfl
@[simp] theorem latchCommand_err (i : Instr) (s : State) : (latchCommand i s).err = s.err := rfl
@[simp] theorem latchCommand_counters (i : Instr) (s : State) : (latchCommand i s).counters = s.counters := rfl
@[simp] theorem latchCommand_host (i : Instr) (s : State) : (latchCommand i s).host = s.host := rfl

/-! ## complete -/

@[simp] theorem complete_mem (s : State) : (complete s).mem = s.mem := rfl
@[simp] theorem complete_seed (s : State) : (complete s).seed = s.seed := rfl
@[simp] theorem complete_did (s : State) : (complete s).did = s.did := rfl
@[simp] theorem complete_peer (s : State) : (complete s).peer = s.peer := rfl
@[simp] theorem complete_ktype (s : State) : (complete s).ktype = s.ktype := rfl
@[simp] theorem complete_keySize (s : State) : (complete s).keySize = s.keySize := rfl
@[simp] theorem complete_derived (s : State) : (complete s).derived = s.derived := rfl
@[simp] theorem complete_out (s : State) : (complete s).out = s.out := rfl
@[simp] theorem complete_flags (s : State) : (complete s).flags = { s.flags with busy := false, done := true } := rfl
@[simp] theorem complete_seq (s : State) : (complete s).seq = { s.seq.cleared with sub := s.seq.cur } := rfl
@[simp] theorem complete_err (s : State) : (complete s).err = s.err := rfl
@[simp] theorem complete_counters (s : State) : (complete s).counters = s.counters := rfl
@[simp] theorem complete_host (s : State) : (complete s).host = s.host := rfl

/-! ## enterDerive -/

@[simp] theorem enterDerive_mem (msg : Bytes) (s : State) : (enterDerive msg s).mem = s.mem := rfl
@[simp] theorem enterDerive_seed (msg : Bytes) (s : State) : (enterDerive msg s).seed = s.seed := rfl
@[simp] theorem enterDerive_did (msg : Bytes) (s : State) : (enterDerive msg s).did = s.did := rfl
@[simp] theorem enterDerive_peer (msg : Bytes) (s : State) : (enterDerive msg s).peer = s.peer := rfl
@[simp] theorem enterDerive_ktype (msg : Bytes) (s : State) : (enterDerive msg s).ktype = s.ktype := rfl
@[simp] theorem enterDerive_keySize (msg : Bytes) (s : State) : (enterDerive msg s).keySize = s.keySize := rfl
@[simp] theorem enterDerive_derived (msg : Bytes) (s : State) : (enterDerive msg s).derived = s.derived := rfl
@[simp] theorem enterDerive_out (msg : Bytes) (s : State) : (enterDerive msg s).out = s.out := rfl
@[simp] theorem enterDerive_flags (msg : Bytes) (s : State) : (enterDerive msg s).flags = s.flags := rfl
@[simp] theorem enterDerive_seq (msg : Bytes) (s : State) : (enterDerive msg s).seq = { s.seq with rnd := 0, chain := msg, acc := [], phase := .loop } := rfl
@[simp] theorem enterDerive_err (msg : Bytes) (s : State) : (enterDerive msg s).err = s.err := rfl
@[simp] theorem enterDerive_counters (msg : Bytes) (s : State) : (enterDerive msg s).counters = s.counters := rfl
@[simp] theorem enterDerive_host (msg : Bytes) (s : State) : (enterDerive msg s).host = s.host := rfl

/-! ## setPc -/

@[simp] theorem setPc_mem (k : Kind) (pc : BitVec 4) (s : State) : (setPc k pc s).mem = s.mem := rfl
@[simp] theorem setPc_seed (k : Kind) (pc : BitVec 4) (s : State) : (setPc k pc s).seed = s.seed := rfl
@[simp] theorem setPc_did (k : Kind) (pc : BitVec 4) (s : State) : (setPc k pc s).did = s.did := rfl
@[simp] theorem setPc_peer (k : Kind) (pc : BitVec 4) (s : State) : (setPc k pc s).peer = s.peer := rfl
@[simp] theorem setPc_ktype (k : Kind) (pc : BitVec 4) (s : State) : (setPc k pc s).ktype = s.ktype := rfl
@[simp] theorem setPc_keySize (k : Kind) (pc : BitVec 4) (s : State) : (setPc k pc s).keySize = s.keySize := rfl
@[simp] theorem setPc_derived (k : Kind) (pc : BitVec 4) (s : State) : (setPc k pc s).derived = s.derived := rfl
@[simp] theorem setPc_out (k : Kind) (pc : BitVec 4) (s : State) : (setPc k pc s).out = s.out := rfl
@[simp] theorem setPc_flags (k : Kind) (pc : BitVec 4) (s : State) : (setPc k pc s).flags = s.flags := rfl
@[simp] theorem setPc_seq (k : Kind) (pc : BitVec 4) (s : State) : (setPc k pc s).seq = { s.seq with gidx := pc, sub := ((elementAt k pc).map Element.sub).getD (opcode .gen), phase := .operands } := rfl
@[simp] theorem setPc_err (k : Kind) (pc : BitVec 4) (s : State) : (setPc k pc s).err = s.err := rfl
@[simp] theorem setPc_counters (k : Kind) (pc : BitVec 4) (s : State) : (setPc k pc s).counters = s.counters := rfl
@[simp] theorem setPc_host (k : Kind) (pc : BitVec 4) (s : State) : (setPc k pc s).host = s.host := rfl

/-! ## enterSearch -/

@[simp] theorem enterSearch_mem (w : Which) (b : Bytes) (s : State) : (enterSearch w b s).mem = s.mem := rfl
@[simp] theorem enterSearch_seed (w : Which) (b : Bytes) (s : State) : (enterSearch w b s).seed = s.seed := rfl
@[simp] theorem enterSearch_did (w : Which) (b : Bytes) (s : State) : (enterSearch w b s).did = s.did := rfl
@[simp] theorem enterSearch_peer (w : Which) (b : Bytes) (s : State) : (enterSearch w b s).peer = s.peer := rfl
@[simp] theorem enterSearch_ktype (w : Which) (b : Bytes) (s : State) : (enterSearch w b s).ktype = s.ktype := rfl
@[simp] theorem enterSearch_keySize (w : Which) (b : Bytes) (s : State) : (enterSearch w b s).keySize = s.keySize := rfl
@[simp] theorem enterSearch_derived (w : Which) (b : Bytes) (s : State) : (enterSearch w b s).derived = { s.derived with cand := some (cand0 b) } := rfl
@[simp] theorem enterSearch_out (w : Which) (b : Bytes) (s : State) : (enterSearch w b s).out = s.out := rfl
@[simp] theorem enterSearch_flags (w : Which) (b : Bytes) (s : State) : (enterSearch w b s).flags = s.flags := rfl
@[simp] theorem enterSearch_seq (w : Which) (b : Bytes) (s : State) : (enterSearch w b s).seq = { s.seq with tests := 0, phase := .loop } := rfl
@[simp] theorem enterSearch_err (w : Which) (b : Bytes) (s : State) : (enterSearch w b s).err = s.err := rfl
@[simp] theorem enterSearch_counters (w : Which) (b : Bytes) (s : State) : (enterSearch w b s).counters = w.zeroCounter s.counters := rfl
@[simp] theorem enterSearch_host (w : Which) (b : Bytes) (s : State) : (enterSearch w b s).host = s.host := rfl

/-! ## returnWord -/

@[simp] theorem returnWord_mem (v : Word) (s : State) : (returnWord v s).mem = s.mem := rfl
@[simp] theorem returnWord_seed (v : Word) (s : State) : (returnWord v s).seed = s.seed := rfl
@[simp] theorem returnWord_did (v : Word) (s : State) : (returnWord v s).did = s.did := rfl
@[simp] theorem returnWord_peer (v : Word) (s : State) : (returnWord v s).peer = s.peer := rfl
@[simp] theorem returnWord_ktype (v : Word) (s : State) : (returnWord v s).ktype = s.ktype := rfl
@[simp] theorem returnWord_keySize (v : Word) (s : State) : (returnWord v s).keySize = s.keySize := rfl
@[simp] theorem returnWord_derived (v : Word) (s : State) : (returnWord v s).derived = s.derived := rfl
@[simp] theorem returnWord_out (v : Word) (s : State) : (returnWord v s).out = s.out := rfl
@[simp] theorem returnWord_flags (v : Word) (s : State) : (returnWord v s).flags = s.flags := rfl
@[simp] theorem returnWord_seq (v : Word) (s : State) : (returnWord v s).seq = s.seq := rfl
@[simp] theorem returnWord_err (v : Word) (s : State) : (returnWord v s).err = s.err := rfl
@[simp] theorem returnWord_counters (v : Word) (s : State) : (returnWord v s).counters = s.counters := rfl
@[simp] theorem returnWord_host (v : Word) (s : State) : (returnWord v s).host = { s.host with rdata := some v } := rfl

/-! ## resetEvent -/

@[simp] theorem resetEvent_mem (s : State) : (resetEvent s).mem = State.reset.mem := rfl
@[simp] theorem resetEvent_seed (s : State) : (resetEvent s).seed = State.reset.seed := rfl
@[simp] theorem resetEvent_did (s : State) : (resetEvent s).did = State.reset.did := rfl
@[simp] theorem resetEvent_peer (s : State) : (resetEvent s).peer = State.reset.peer := rfl
@[simp] theorem resetEvent_ktype (s : State) : (resetEvent s).ktype = State.reset.ktype := rfl
@[simp] theorem resetEvent_keySize (s : State) : (resetEvent s).keySize = State.reset.keySize := rfl
@[simp] theorem resetEvent_derived (s : State) : (resetEvent s).derived = State.reset.derived := rfl
@[simp] theorem resetEvent_out (s : State) : (resetEvent s).out = State.reset.out := rfl
@[simp] theorem resetEvent_flags (s : State) : (resetEvent s).flags = State.reset.flags := rfl
@[simp] theorem resetEvent_seq (s : State) : (resetEvent s).seq = State.reset.seq := rfl
@[simp] theorem resetEvent_err (s : State) : (resetEvent s).err = State.reset.err := rfl
@[simp] theorem resetEvent_counters (s : State) : (resetEvent s).counters = State.reset.counters := rfl
@[simp] theorem resetEvent_host (s : State) : (resetEvent s).host = s.host := rfl

/-! ## setInputReg -/

@[simp] theorem setInputReg_mem (s : State) (b : Buf) (r : InputReg) : (s.setInputReg b r).mem = s.mem := by
  cases b <;> rfl

@[simp] theorem setInputReg_keySize (s : State) (b : Buf) (r : InputReg) : (s.setInputReg b r).keySize = s.keySize := by
  cases b <;> rfl

@[simp] theorem setInputReg_derived (s : State) (b : Buf) (r : InputReg) : (s.setInputReg b r).derived = s.derived := by
  cases b <;> rfl

@[simp] theorem setInputReg_out (s : State) (b : Buf) (r : InputReg) : (s.setInputReg b r).out = s.out := by
  cases b <;> rfl

@[simp] theorem setInputReg_flags (s : State) (b : Buf) (r : InputReg) : (s.setInputReg b r).flags = s.flags := by
  cases b <;> rfl

@[simp] theorem setInputReg_seq (s : State) (b : Buf) (r : InputReg) : (s.setInputReg b r).seq = s.seq := by
  cases b <;> rfl

@[simp] theorem setInputReg_err (s : State) (b : Buf) (r : InputReg) : (s.setInputReg b r).err = s.err := by
  cases b <;> rfl

@[simp] theorem setInputReg_counters (s : State) (b : Buf) (r : InputReg) : (s.setInputReg b r).counters = s.counters := by
  cases b <;> rfl

@[simp] theorem setInputReg_host (s : State) (b : Buf) (r : InputReg) : (s.setInputReg b r).host = s.host := by
  cases b <;> rfl

theorem inputReg_setInputReg_same (s : State) (b : Buf) (r : InputReg) : (s.setInputReg b r).inputReg b = r := by
  cases b <;> rfl

theorem inputReg_setInputReg_other (s : State) (b b' : Buf) (r : InputReg) (h : b' ≠ b) :
    (s.setInputReg b r).inputReg b' = s.inputReg b' := by
  cases b <;> cases b' <;> first | rfl | exact absurd rfl h

/-! ## Sequencer fields -/

@[simp] theorem cleared_cur (q : Seq) : q.cleared.cur = q.cur := rfl
@[simp] theorem cleared_sub (q : Seq) : q.cleared.sub = q.sub := rfl
@[simp] theorem cleared_gidx (q : Seq) : q.cleared.gidx = 0 := rfl
@[simp] theorem cleared_rnd (q : Seq) : q.cleared.rnd = 0 := rfl
@[simp] theorem cleared_chain (q : Seq) : q.cleared.chain = [] := rfl
@[simp] theorem cleared_acc (q : Seq) : q.cleared.acc = [] := rfl
@[simp] theorem cleared_tests (q : Seq) : q.cleared.tests = 0 := rfl
@[simp] theorem cleared_phase (q : Seq) : q.cleared.phase = .operands := rfl
@[simp] theorem cleared_cleared (q : Seq) : q.cleared.cleared = q.cleared := rfl

/-- Two states with the same cells and registers have the same inputs. -/
theorem input_congr (s t : State) (hm : t.mem = s.mem) (b : Buf) (hr : t.inputReg b = s.inputReg b) :
    t.input b = s.input b := by
  simp [State.input, hm, hr]

end Sys2Proof.Machine
end

