-- ==== Sys2Proof/Laws/Engine.lean ====
section
/-! SUPPORT. What an engine step can do, said once: of an element of a command, of a command, of the machine. -/

namespace Sys2Proof.Machine

/-! ## Operand reads -/

@[simp] theorem need_some {α : Type} (r : Reg) (x : α) (s : State) (rest : α → State) :
    need r (some x) s rest = rest x := rfl

@[simp] theorem need_none {α : Type} (r : Reg) (s : State) (rest : α → State) :
    need r (none : Option α) s rest = raise (.unwrittenOperand r.index) s := rfl

/-- A read either raises or hands on the value that is there. -/
theorem need_cases {α : Type} (r : Reg) (v : Option α) (s : State) (rest : α → State) :
    (v = none ∧ need r v s rest = raise (.unwrittenOperand r.index) s) ∨
      ∃ x, v = some x ∧ need r v s rest = rest x := by
  cases v with
  | none => exact .inl ⟨rfl, rfl⟩
  | some x => exact .inr ⟨x, rfl, rfl⟩

/-! ## Acceptance -/

@[simp] theorem commandOf_busy (i : Instr) (body : State → State) (s : State) (h : s.flags.busy = true) :
    commandOf i body s = body s := if_pos h

@[simp] theorem commandOf_idle (i : Instr) (body : State → State) (s : State) (h : s.flags.busy = false) :
    commandOf i body s = accept i s := by simp [commandOf, h]

@[simp] theorem accept_fault (i : Instr) (s : State) (h : s.flags.fault = true) : accept i s = dropWrite s :=
  if_pos h

theorem accept_ready (i : Instr) (s : State) (h : s.flags.fault = false) :
    accept i s = { s with
      flags := { s.flags with busy := true, done := false }
      seq := { s.seq with cur := opcode i, sub := opcode i, gidx := 0, phase := .operands } } := by
  simp [accept, h, latchCommand]

/-! ## What one engine step keeps -/

/-- What the pseudocode of an element never touches: the inputs, `ERR`, the host's port, the flags but `OVF`, and
`CUR`, `SUB` and `GIDX` of the sequencer; and `ACC` stays 64 bytes a round. -/
structure EngineKeeps (s u : State) : Prop where
  mem : u.mem = s.mem
  seed : u.seed = s.seed
  did : u.did = s.did
  peer : u.peer = s.peer
  ktype : u.ktype = s.ktype
  keySize : u.keySize = s.keySize
  err : u.err = s.err
  host : u.host = s.host
  busy : u.flags.busy = s.flags.busy
  done : u.flags.done = s.flags.done
  fault : u.flags.fault = s.flags.fault
  drop : u.flags.drop = s.flags.drop
  rdErr : u.flags.rdErr = s.flags.rdErr
  cur : u.seq.cur = s.seq.cur
  sub : u.seq.sub = s.seq.sub
  gidx : u.seq.gidx = s.seq.gidx
  digests : s.seq.acc.length = 64 * s.seq.rnd → u.seq.acc.length = 64 * u.seq.rnd

theorem EngineKeeps.refl (s : State) : EngineKeeps s s :=
  ⟨rfl, rfl, rfl, rfl, rfl, rfl, rfl, rfl, rfl, rfl, rfl, rfl, rfl, rfl, rfl, rfl, id⟩

/-- The inputs of a state an element leads to are those it started with. -/
theorem EngineKeeps.input {s u : State} (h : EngineKeeps s u) (b : Buf) : u.input b = s.input b := by
  apply input_congr s u h.mem
  cases b
  · exact h.seed
  · exact h.did
  · exact h.peer
  · exact h.ktype

/-- The three ways an engine step of an element ends: the element goes on, raises a fault, or reaches its end. -/
def StepsTo (fin : State → State) (s t : State) : Prop :=
  ∃ u, EngineKeeps s u ∧ (t = u ∨ (∃ f, t = raise f u) ∨ t = fin u)

theorem stepsTo_stay {fin : State → State} {s u : State} (h : EngineKeeps s u) : StepsTo fin s u :=
  ⟨u, h, .inl rfl⟩

theorem stepsTo_raise {fin : State → State} {s u : State} (f : Cause) (h : EngineKeeps s u) :
    StepsTo fin s (raise f u) := ⟨u, h, .inr (.inl ⟨f, rfl⟩)⟩

theorem stepsTo_fin {fin : State → State} {s u : State} (h : EngineKeeps s u) : StepsTo fin s (fin u) :=
  ⟨u, h, .inr (.inr rfl)⟩

/-- A read at the head of an element keeps the three ways. -/
theorem stepsTo_need {α : Type} {fin : State → State} {s : State} (r : Reg) (v : Option α) (rest : α → State)
    (h : ∀ x, v = some x → StepsTo fin s (rest x)) : StepsTo fin s (need r v s rest) := by
  obtain ⟨_, hn⟩ | ⟨x, hx, hn⟩ := need_cases r v s rest <;> rw [hn]
  · exact stepsTo_raise _ (.refl s)
  · exact h x hx

theorem engineKeeps_countRound (c : Config) (s u : State) (h : EngineKeeps s u) : EngineKeeps s (countRound c u) := by
  unfold countRound
  split
  · exact ⟨h.mem, h.seed, h.did, h.peer, h.ktype, h.keySize, h.err, h.host, h.busy, h.done, h.fault, h.drop, h.rdErr,
      h.cur, h.sub, h.gidx, h.digests⟩
  · exact h

theorem engineKeeps_hmacRound (c : Config) (key : Bytes) (s : State) : EngineKeeps s (hmacRound c key s) :=
  engineKeeps_countRound c s _
    ⟨rfl, rfl, rfl, rfl, rfl, rfl, rfl, rfl, rfl, rfl, rfl, rfl, rfl, rfl, rfl, rfl, fun h => by
      simp only [List.length_append, Vector.length_toList, h]; omega⟩

/-- Everything `noteOverflow` does (R164, D14). -/
theorem noteOverflow_eq (v : Nat) (b : Bytes) (s : State) :
    noteOverflow v b s = { s with flags := { s.flags with ovf := s.flags.ovf || decide (256 ^ b.length ≤ v) } } := by
  unfold noteOverflow
  split <;> rename_i h <;> simp [h]

theorem engineKeeps_noteOverflow (v : Nat) (b : Bytes) (s u : State) (h : EngineKeeps s u) :
    EngineKeeps s (noteOverflow v b u) := by
  unfold noteOverflow
  split
  · exact ⟨h.mem, h.seed, h.did, h.peer, h.ktype, h.keySize, h.err, h.host, h.busy, h.done, h.fault, h.drop, h.rdErr,
      h.cur, h.sub, h.gidx, h.digests⟩
  · exact h

theorem stepsTo_deriveLoop (c : Config) (key : Bytes) (length : Nat) (fin : State → State) (store : Bytes → State)
    (s : State) (h : ∀ b, EngineKeeps s (store b)) :
    StepsTo fin s (deriveLoop c key length (fun b => fin (store b)) s) := by
  unfold deriveLoop
  split
  · exact stepsTo_stay (engineKeeps_hmacRound c key s)
  · exact stepsTo_fin (h _)

theorem stepsTo_mkeyBody (c : Config) (fin : State → State) (s : State) : StepsTo fin s (mkeyBody c fin s) := by
  refine stepsTo_need _ _ _ fun seed _ => stepsTo_need _ _ _ fun did _ => ?_
  cases s.seq.phase
  · exact stepsTo_stay (by constructor <;> first | rfl | exact id | exact fun _ => rfl)
  · exact stepsTo_deriveLoop c seed 64 fin _ s fun b => by constructor <;> first | rfl | exact id
  · exact stepsTo_deriveLoop c seed 64 fin _ s fun b => by constructor <;> first | rfl | exact id

theorem stepsTo_psecBody (c : Config) (fin : State → State) (s : State) : StepsTo fin s (psecBody c fin s) := by
  refine stepsTo_need _ _ _ fun peer _ => stepsTo_need _ _ _ fun mk _ => ?_
  cases s.seq.phase
  · exact stepsTo_stay (by constructor <;> first | rfl | exact id | exact fun _ => rfl)
  · exact stepsTo_deriveLoop c mk 64 fin _ s fun b => by constructor <;> first | rfl | exact id
  · exact stepsTo_deriveLoop c mk 64 fin _ s fun b => by constructor <;> first | rfl | exact id

theorem stepsTo_pgenBody (c : Config) (fin : State → State) (s : State) : StepsTo fin s (pgenBody c fin s) := by
  refine stepsTo_need _ _ _ fun peer _ => stepsTo_need _ _ _ fun mk _ => ?_
  cases s.seq.phase
  · dsimp only
    split
    · exact stepsTo_stay (by constructor <;> first | rfl | exact id | exact fun _ => rfl)
    · exact stepsTo_raise _ (.refl s)
  · exact stepsTo_need _ _ _ fun l _ => stepsTo_deriveLoop c mk l fin _ s fun b => by constructor <;> first | rfl | exact id
  · exact stepsTo_need _ _ _ fun l _ => stepsTo_deriveLoop c mk l fin _ s fun b => by constructor <;> first | rfl | exact id

theorem stepsTo_qgenBody (c : Config) (fin : State → State) (s : State) : StepsTo fin s (qgenBody c fin s) := by
  refine stepsTo_need _ _ _ fun peer _ => stepsTo_need _ _ _ fun pbase _ => stepsTo_need _ _ _ fun l _ => ?_
  cases s.seq.phase
  · exact stepsTo_stay (by constructor <;> first | rfl | exact id | exact fun _ => rfl)
  · exact stepsTo_deriveLoop c pbase l fin _ s fun b => by constructor <;> first | rfl | exact id
  · exact stepsTo_deriveLoop c pbase l fin _ s fun b => by constructor <;> first | rfl | exact id

theorem stepsTo_testCandidate (c : Config) (w : Which) (v : Nat) (b : Bytes) (fin : State → State) (s : State) :
    StepsTo fin s (testCandidate c w v b s) := by
  unfold testCandidate
  split
  · exact stepsTo_stay (by constructor <;> first | rfl | exact id)
  · unfold rejectCandidate
    dsimp only
    split
    · exact stepsTo_raise _ (by constructor <;> first | rfl | exact id)
    · exact stepsTo_stay (engineKeeps_noteOverflow _ b s _ (by constructor <;> first | rfl | exact id))

theorem stepsTo_searchBody (c : Config) (w : Which) (fin : State → State) (s : State) :
    StepsTo fin s (searchBody c w fin s) := by
  refine stepsTo_need _ _ _ fun b _ => ?_
  cases s.seq.phase
  · exact stepsTo_stay (by constructor <;> first | rfl | exact id)
  · exact stepsTo_need _ _ _ fun v _ => stepsTo_testCandidate c w v b fin s
  · exact stepsTo_need _ _ _ fun v _ => stepsTo_fin (engineKeeps_noteOverflow v b s _ (by constructor <;> first | rfl | exact id))

theorem stepsTo_rsaasmBody (fin : State → State) (s : State) : StepsTo fin s (rsaasmBody fin s) := by
  refine stepsTo_need _ _ _ fun p _ => stepsTo_need _ _ _ fun q _ => ?_
  dsimp only
  split
  · exact stepsTo_raise _ (.refl s)
  · exact stepsTo_fin (by constructor <;> first | rfl | exact id)

theorem stepsTo_rsaexpBody (fin : State → State) (s : State) : StepsTo fin s (rsaexpBody fin s) := by
  refine stepsTo_need _ _ _ fun p _ => stepsTo_need _ _ _ fun q _ => stepsTo_need _ _ _ fun n _ =>
    stepsTo_need _ _ _ fun d _ => stepsTo_need _ _ _ fun dp _ => stepsTo_need _ _ _ fun dq _ =>
    stepsTo_need _ _ _ fun qi _ => stepsTo_need _ _ _ fun l _ => ?_
  exact stepsTo_fin (by constructor <;> first | rfl | exact id)

theorem stepsTo_ecredBody (fin : State → State) (s : State) : StepsTo fin s (ecredBody fin s) :=
  stepsTo_need _ _ _ fun _ _ => stepsTo_fin (by constructor <;> first | rfl | exact id)

theorem stepsTo_ecmulBody (fin : State → State) (s : State) : StepsTo fin s (ecmulBody fin s) := by
  refine stepsTo_need _ _ _ fun d _ => ?_
  dsimp only
  split
  · exact stepsTo_raise _ (.refl s)
  · exact stepsTo_fin (by constructor <;> first | rfl | exact id)

theorem stepsTo_ecexpBody (fin : State → State) (s : State) : StepsTo fin s (ecexpBody fin s) := by
  refine stepsTo_need _ _ _ fun d _ => stepsTo_need _ _ _ fun x _ => stepsTo_need _ _ _ fun y _ => ?_
  exact stepsTo_fin (by constructor <;> first | rfl | exact id)

/-- An engine step of any element goes on, raises, or ends the element, and keeps what `EngineKeeps` names. -/
theorem elementBody_stepsTo (c : Config) (e : Element) (fin : State → State) (s : State) :
    StepsTo fin s (elementBody c e fin s) := by
  cases e
  · exact stepsTo_mkeyBody c fin s
  · exact stepsTo_pgenBody c fin s
  · exact stepsTo_searchBody c .p fin s
  · exact stepsTo_qgenBody c fin s
  · exact stepsTo_searchBody c .q fin s
  · exact stepsTo_rsaasmBody fin s
  · exact stepsTo_rsaexpBody fin s
  · exact stepsTo_psecBody c fin s
  · exact stepsTo_ecredBody fin s
  · exact stepsTo_ecmulBody fin s
  · exact stepsTo_ecexpBody fin s
  · exact stepsTo_fin (by constructor <;> first | rfl | exact id)

/-! ## GEN -/

/-- The checks at GEN's start raise a fault or set `pc` to 1 under the key type's sequence. -/
theorem genChecks_cases (c : Config) (s : State) :
    (∃ f, genChecks c s = raise f s) ∨
      ∃ t k, s.input .ktype = some t ∧ matchKeyType t = some k ∧ genChecks c s = setPc k 1 s := by
  obtain ⟨_, h⟩ | ⟨t, ht, h⟩ := need_cases .ktype (s.input .ktype) s _ <;> rw [genChecks, h]
  · exact .inl ⟨_, rfl⟩
  · split
    · exact .inl ⟨_, rfl⟩
    · next k hk =>
      obtain ⟨_, h⟩ | ⟨_, _, h⟩ := need_cases .seed (s.input .seed) s _ <;> rw [h]
      · exact .inl ⟨_, rfl⟩
      obtain ⟨_, h⟩ | ⟨_, _, h⟩ := need_cases .did (s.input .did) s _ <;> rw [h]
      · exact .inl ⟨_, rfl⟩
      obtain ⟨_, h⟩ | ⟨_, _, h⟩ := need_cases .peer (s.input .peer) s _ <;> rw [h]
      · exact .inl ⟨_, rfl⟩
      split
      · exact .inl ⟨_, rfl⟩
      · exact .inr ⟨t, k, ht, hk, rfl⟩

/-- A step of a running microsequence raises, completes past the last element, or runs the element at `pc`. -/
theorem genElement_cases (c : Config) (s : State) :
    (∃ f, genElement c s = raise f s) ∨
      ∃ t k, s.input .ktype = some t ∧ matchKeyType t = some k ∧
        ((elementAt k s.seq.gidx = none ∧ genElement c s = complete s) ∨
          ∃ e, elementAt k s.seq.gidx = some e ∧ genElement c s = elementBody c e (advancePc k) s) := by
  obtain ⟨_, h⟩ | ⟨t, ht, h⟩ := need_cases .ktype (s.input .ktype) s _ <;> rw [genElement, h]
  · exact .inl ⟨_, rfl⟩
  · split
    · exact .inl ⟨_, rfl⟩
    · next k hk =>
      refine .inr ⟨t, k, ht, hk, ?_⟩
      split
      · next he => exact .inl ⟨he, rfl⟩
      · next e he => exact .inr ⟨e, he, rfl⟩

/-! ## Commands and the machine -/

/-- `exec` is the command's step under the platform's configuration. -/
theorem exec_eq_commandStep (i : Instr) (s : State) : exec i s = .next (commandStep Config.platform i s) := by
  cases i <;> rfl

/-- The element a step command runs. -/
def Instr.element : Instr → Option Element
  | .mkey => some .mkey
  | .psec => some .psec
  | .pgen => some .pgen
  | .qgen => some .qgen
  | .psrch => some .psrch
  | .qsrch => some .qsrch
  | .rsaasm => some .rsaasm
  | .rsaexp => some .rsaexp
  | .ecred => some .ecred
  | .ecmul => some .ecmul
  | .ecexp => some .ecexp
  | .clr => none
  | .wipe => none
  | .gen => none

/-- A running step command takes a step of its element, with `complete` at its end. -/
theorem commandStep_busy (c : Config) (i : Instr) (e : Element) (s : State) (he : Instr.element i = some e)
    (h : s.flags.busy = true) : commandStep c i s = elementBody c e complete s := by
  cases i <;> cases he <;> exact if_pos h

/-- A command other than CLR and WIPE at an idle engine is accepted, or dropped in the fault state. -/
theorem commandStep_idle (c : Config) (i : Instr) (s : State) (h1 : i ≠ .clr) (h2 : i ≠ .wipe)
    (h : s.flags.busy = false) : commandStep c i s = accept i s := by
  cases i <;> first | exact absurd rfl h1 | exact absurd rfl h2 | exact commandOf_idle _ _ s h

theorem commandStep_gen_busy (c : Config) (s : State) (h : s.flags.busy = true) :
    commandStep c .gen s = genBody c s := if_pos h

end Sys2Proof.Machine
end

