-- ==== Sys2Proof/Laws/Memory.lean ====
section
/-! SUPPORT. The laws of the input arrays' cells: read after write, and the canonical form every operation keeps. -/

namespace Sys2Proof.Machine

theorem memory_read_write_same (m : List Host.Cell) (a : Nat) (v : Byte) (lo : Nat)
    (h : Memory.risesFrom lo m = true) : Memory.read (Memory.write m a v) a = v := by
  induction m generalizing lo with
  | nil =>
    by_cases hv : v = 0#8 <;> simp [Memory.write, Memory.read, hv]
  | cons c m ih =>
    obtain ⟨b, w⟩ := c
    simp only [Memory.risesFrom, Bool.and_eq_true, decide_eq_true_eq] at h
    have below : ∀ (m : List Host.Cell) (lo : Nat), Memory.risesFrom lo m = true → a < lo → Memory.read m a = 0#8 := by
      intro m
      induction m with
      | nil => intros; rfl
      | cons d m ih =>
        intro lo hr hlt
        simp only [Memory.risesFrom, Bool.and_eq_true, decide_eq_true_eq] at hr
        rw [Memory.read, if_neg (by omega)]
        exact ih _ hr.2 (by omega)
    simp only [Memory.write]
    split
    · split
      · next hv => rw [Memory.read, if_neg (by omega), hv]; exact below m _ h.2 (by omega)
      · simp [Memory.read]
    · split
      · next hab =>
        split
        · next hv => rw [hv]; exact below m _ h.2 (by omega)
        · simp [Memory.read]
      · next hab => rw [Memory.read, if_neg hab]; exact ih _ h.2

theorem memory_read_write_other (m : List Host.Cell) (a a' : Nat) (v : Byte) (h : a' ≠ a) :
    Memory.read (Memory.write m a v) a' = Memory.read m a' := by
  induction m with
  | nil => by_cases hv : v = 0#8 <;> simp [Memory.write, Memory.read, hv, h]
  | cons c m ih =>
    obtain ⟨b, w⟩ := c
    simp only [Memory.write]
    split
    · split
      · rfl
      · simp [Memory.read, h]
    · split
      · next hab => subst hab; split <;> simp [Memory.read, h]
      · simp only [Memory.read, ih]

theorem memory_risesFrom_write (m : List Host.Cell) (a : Nat) (v : Byte) (lo : Nat)
    (h : Memory.risesFrom lo m = true) (ha : lo ≤ a) : Memory.risesFrom lo (Memory.write m a v) = true := by
  induction m generalizing lo with
  | nil => by_cases hv : v = 0#8 <;> simp [Memory.write, Memory.risesFrom, hv, ha]
  | cons c m ih =>
    obtain ⟨b, w⟩ := c
    simp only [Memory.risesFrom, Bool.and_eq_true, decide_eq_true_eq, bne_iff_ne, ne_eq] at h
    obtain ⟨⟨hb, hw⟩, hm⟩ := h
    have weaken : ∀ (m : List Host.Cell) (lo lo' : Nat), Memory.risesFrom lo' m = true → lo ≤ lo' →
        Memory.risesFrom lo m = true := by
      intro m lo lo' hr hle
      cases m with
      | nil => rfl
      | cons d m =>
        simp only [Memory.risesFrom, Bool.and_eq_true, decide_eq_true_eq] at hr ⊢
        exact ⟨⟨by omega, hr.1.2⟩, hr.2⟩
    simp only [Memory.write]
    split
    · split
      · simp [Memory.risesFrom, hb, hw, hm]
      · next hab hv =>
        have hab' : a + 1 ≤ b := hab
        simp [Memory.risesFrom, hab', hw, hm, hv, ha]
    · split
      · next hab =>
        split
        · exact weaken m lo (b + 1) hm (by omega)
        · next hv => subst hab; simp [Memory.risesFrom, ha, hv, hm]
      · next hlt hne => simp [Memory.risesFrom, hb, hw, ih (b + 1) hm (by omega)]

/-- Storing a byte keeps the canonical form. -/
theorem memory_wf_write (m : List Host.Cell) (a : Nat) (v : Byte) (h : Memory.wf m = true) :
    Memory.wf (Memory.write m a v) = true :=
  memory_risesFrom_write m a v 0 h (Nat.zero_le a)

/-- A canonical memory reads back what was stored. -/
theorem memory_wf_read_write (m : List Host.Cell) (a : Nat) (v : Byte) (h : Memory.wf m = true) :
    Memory.read (Memory.write m a v) a = v :=
  memory_read_write_same m a v 0 h

/-- The empty memory, which WIPE and reset leave, is canonical. -/
theorem memory_wf_nil : Memory.wf [] = true := rfl

@[simp] theorem memory_readBytes_length (m : List Host.Cell) (a n : Nat) : (Memory.readBytes m a n).length = n := by
  induction n generalizing a with
  | zero => rfl
  | succ n ih => simp [Memory.readBytes, ih]

end Sys2Proof.Machine
end

