-- ==== Sys2Proof/Laws/PerInstr.lean ====
section
/-! SUPPORT. The form of every command's word, one lemma per constructor (30_encoding.md R100, R101). -/

namespace Sys2Proof.Laws

namespace WordForm

/-- The command is well-formed, its word has `ZERO = 0` and its operation code in `OPC`, and is a command word. -/
def Statement (i : Instr) : Prop :=
  i.wellFormed = true ∧ zeroFieldOk (encode i) = true ∧ opcField (encode i) = opcode i ∧ commandWordOk (encode i) = true

theorem clr : Statement .clr := by unfold Statement; decide

theorem wipe : Statement .wipe := by unfold Statement; decide

theorem mkey : Statement .mkey := by unfold Statement; decide

theorem psec : Statement .psec := by unfold Statement; decide

theorem pgen : Statement .pgen := by unfold Statement; decide

theorem qgen : Statement .qgen := by unfold Statement; decide

theorem psrch : Statement .psrch := by unfold Statement; decide

theorem qsrch : Statement .qsrch := by unfold Statement; decide

theorem rsaasm : Statement .rsaasm := by unfold Statement; decide

theorem rsaexp : Statement .rsaexp := by unfold Statement; decide

theorem ecred : Statement .ecred := by unfold Statement; decide

theorem ecmul : Statement .ecmul := by unfold Statement; decide

theorem ecexp : Statement .ecexp := by unfold Statement; decide

theorem gen : Statement .gen := by unfold Statement; decide

end WordForm

end Sys2Proof.Laws
end

