-- ==== Sys2Proof/Laws/Runs.lean ====
section
/-! SUPPORT. Runs of a command: the two forms agree, a run is taken step by step, and it has one end (00_scope.md R13). -/

namespace Sys2Proof.Machine

/-- A running engine's run goes through the next step. -/
theorem engineRunWith_busy {c : Config} {i : Instr} {s t : State} (h : s.flags.busy = true) :
    EngineRunWith c i s t ↔ EngineRunWith c i (commandStep c i s) t := by
  refine ⟨fun hr => ?_, fun hr => .turn s t h hr⟩
  cases hr with
  | idle _ h' => rw [h] at h'; cases h'
  | turn _ _ _ h' => exact h'

/-- An idle engine's run is over. -/
theorem engineRunWith_idle {c : Config} {i : Instr} {s t : State} (h : s.flags.busy = false) :
    EngineRunWith c i s t ↔ t = s := by
  refine ⟨fun hr => ?_, fun ht => by rw [ht]; exact .idle s h⟩
  cases hr with
  | idle _ _ => rfl
  | turn _ _ h' _ => rw [h] at h'; cases h'

/-- A run has one end. -/
theorem engineRunWith_unique {c : Config} {i : Instr} {s t t' : State} (h : EngineRunWith c i s t)
    (h' : EngineRunWith c i s t') : t' = t := by
  induction h with
  | idle s hb => exact (engineRunWith_idle hb).mp h'
  | turn s t hb _ ih => exact ih ((engineRunWith_busy hb).mp h')

/-- A run of engine steps as `exec` gives them is one under the platform's configuration. -/
theorem engineRun_iff {i : Instr} {s t : State} : EngineRun i s t ↔ EngineRunWith Config.platform i s t := by
  constructor
  · intro h
    induction h with
    | idle s hb => exact .idle s hb
    | turn s u t hb hu _ ih =>
      rw [exec_eq_commandStep] at hu
      cases hu
      exact .turn s t hb ih
  · intro h
    induction h with
    | idle s hb => exact .idle s hb
    | turn s t hb _ ih => exact .turn s _ t hb (exec_eq_commandStep i s) ih

theorem completes_iff {i : Instr} {s t : State} : Completes i s t ↔ RunsTo Config.platform i s t := by
  constructor
  · rintro ⟨u, hu, hr⟩
    rw [exec_eq_commandStep] at hu
    cases hu
    exact engineRun_iff.mp hr
  · intro h
    exact ⟨_, exec_eq_commandStep i s, engineRun_iff.mpr h⟩

/-- The run of a command an idle engine accepts starts with its first engine step, in the state acceptance leaves. -/
theorem runsTo_accepted {c : Config} {i : Instr} {s t : State} (h1 : i ≠ .clr) (h2 : i ≠ .wipe) (hs : Ready s) :
    RunsTo c i s t ↔ EngineRunWith c i (commandStep c i { s with
      flags := { s.flags with busy := true, done := false }
      seq := { s.seq with cur := opcode i, sub := opcode i, gidx := 0, phase := .operands } }) t := by
  rw [RunsTo, commandStep_idle c i s h1 h2 hs.1, accept_ready i s hs.2, engineRunWith_busy rfl]

/-- A command an idle engine accepts whose first engine step leaves `BUSY = 0` ends there. -/
theorem runsTo_of_first_step {c : Config} {i : Instr} {s t : State} (h1 : i ≠ .clr) (h2 : i ≠ .wipe) (hs : Ready s)
    (ht : commandStep c i { s with
      flags := { s.flags with busy := true, done := false }
      seq := { s.seq with cur := opcode i, sub := opcode i, gidx := 0, phase := .operands } } = t)
    (hb : t.flags.busy = false) : RunsTo c i s t :=
  (runsTo_accepted h1 h2 hs).mpr (by rw [ht]; exact .idle t hb)

end Sys2Proof.Machine
end

