-- ==== Sys2Proof/Laws/Step.lean ====
section
/-! SUPPORT. What a step of the whole machine can do, said once: the ways its next state comes about. -/

namespace Sys2Proof.Machine

/-- The ways a step leads from `u`, which is the state with the host's move taken off the script, to `t`. -/
inductive Moves (c : Config) (u t : State) : Prop where
  | idle (h : u.flags.busy = false) (ht : t = u)
  | engine (i : Instr) (h : u.flags.busy = true) (hi : decode (wordOfOpcode u.seq.cur) = some i)
      (ht : t = commandStep c i u)
  | read (off : Nat) (ht : t = hostRead c off u)
  | drop (ht : t = dropWrite u)
  | keySize (v : Word) (h : u.flags.busy = false) (ht : t = { u with keySize := v })
  | length (b : Buf) (v : Word) (h : u.flags.busy = false) (ht : t = writeLength c b v u)
  | bytes (b : Buf) (off : Nat) (v : Word) (h : u.flags.busy = false) (hb : b.holds c off = true)
      (ht : t = writeBytes c b off v u)
  | illegal (w : Word) (h : u.flags.busy = false) (hf : u.flags.fault = false) (hw : decode w = none)
      (ht : t = raise (.illegalCommand (opcField w))
        { u with flags := { u.flags with done := false }, seq := { u.seq with cur := opcField w } })
  | command (w : Word) (i : Instr) (h : u.flags.busy = false) (hf : u.flags.fault = false ∨ leavesFault w = true)
      (hw : decode w = some i) (ht : t = commandStep c i u)
  | reset (ht : t = resetEvent u)

/-- The run a step gives `machineStep`, under any configuration. -/
def runWith (c : Config) (i : Instr) (s : State) : Host.Outcome State Fault Refusal := .next (commandStep c i s)

/-- `step` is the machine's step under the platform's configuration. -/
theorem step_eq (s : State) : step s = machineStep Config.platform (runWith Config.platform) s := by
  have h : exec = runWith Config.platform := by
    funext i s
    exact exec_eq_commandStep i s
  rw [step, h]

theorem engineTurn_moves (c : Config) (u t : State) (h : engineTurn (runWith c) u = .next t) : Moves c u t := by
  unfold engineTurn at h
  split at h
  · next hb =>
    split at h
    · next i hi => exact .engine i hb hi (by cases h; rfl)
    · cases h
  · next hb => exact .idle (by simpa using hb) (by cases h; rfl)

theorem locate_bytes (c : Config) (off : Nat) (b : Buf) (h : locate c off = .bytes b) : b.holds c off = true := by
  unfold locate at h
  split at h
  · next l hl =>
    subst h
    obtain ⟨r, hr, hb⟩ := Option.map_eq_some_iff.mp hl
    have hm := List.mem_of_find?_eq_some hr
    simp only [registerMap, List.mem_cons, List.not_mem_nil, or_false] at hm
    rcases hm with h | h | h | h | h | h | h | h | h | h | h | h | h <;> subst h <;> cases hb
  · split at h
    · next b' hb => cases h; simpa using List.find?_some hb
    · split at h <;> cases h

theorem writeCommand_moves (c : Config) (w : Word) (u t : State) (hb : u.flags.busy = false)
    (h : writeCommand (runWith c) w u = .next t) : Moves c u t := by
  unfold writeCommand at h
  split at h
  · cases h; exact .drop rfl
  · next hf =>
    have hf : u.flags.fault = false ∨ leavesFault w = true := by
      rw [not_and_or] at hf
      simpa using hf
    split at h
    · next hw =>
      refine .illegal w hb ?_ hw (by cases h; rfl)
      rcases hf with hf | hl
      · exact hf
      · exfalso
        simp only [leavesFault, Bool.or_eq_true, beq_iff_eq] at hl
        rcases hl with hl | hl <;> subst hl <;> exact absurd hw (by decide)
    · next i hw => exact .command w i hb hf hw (by cases h; rfl)

theorem hostWrite_moves (c : Config) (off : Nat) (v : Word) (u t : State)
    (h : hostWrite c (runWith c) off v u = .next t) : Moves c u t := by
  unfold hostWrite at h
  split at h
  · cases h; exact .drop rfl
  · next hb =>
    have hb : u.flags.busy = false := by simpa using hb
    split at h
    case h_1 => exact writeCommand_moves c v u t hb h
    case h_2 => cases h; exact .keySize v hb rfl
    case h_3 b _ => cases h; exact .length b v hb rfl
    case h_4 b hl => cases h; exact .bytes b off v hb (locate_bytes c off b hl) rfl
    all_goals (cases h; exact .drop rfl)

/-- Every next state of the machine comes about in one of the ways of `Moves`, from a state that differs from `s` in
the host's port alone. -/
theorem machineStep_moves (c : Config) (s t : State) (h : machineStep c (runWith c) s = .next t) :
    ∃ p, Moves c { s with host := p } t := by
  unfold machineStep at h
  split at h
  · exact ⟨s.host, engineTurn_moves c s t h⟩
  · next m rest _ =>
    cases m with
    | read off =>
      simp only [hostMove] at h
      split at h
      · cases h
      · cases h; exact ⟨_, .read off rfl⟩
    | write off v =>
      simp only [hostMove] at h
      split at h
      · cases h
      · exact ⟨_, hostWrite_moves c off v _ t h⟩
    | wait =>
      simp only [hostMove] at h
      split at h
      · exact ⟨s.host, engineTurn_moves c s t h⟩
      · cases h; exact ⟨_, .read 0x0004 rfl⟩
    | yield => exact ⟨_, engineTurn_moves c _ t h⟩
    | reset => cases h; exact ⟨_, .reset rfl⟩

theorem step_moves (s t : State) (h : step s = .next t) : ∃ p, Moves Config.platform { s with host := p } t :=
  machineStep_moves Config.platform s t (step_eq s ▸ h)

/-- A read of the host touches `RDERR` and the host's port alone. -/
theorem hostRead_eq (c : Config) (off : Nat) (s : State) :
    hostRead c off s = { s with
      flags := { s.flags with rdErr := (readEffect c off s).flags.rdErr }
      host := { s.host with rdata := some (readWord c off s) } } := by
  unfold hostRead readEffect
  split <;> rfl

end Sys2Proof.Machine
end

