-- ==== Sys2Proof/Tests/Slice0.lean ====
section
/-! SUPPORT. Tests: expected values from spec/95_test_vectors.md and the worked examples of the rules (named beside each), and a witness for the hypotheses of each statement. -/

namespace Sys2Proof.Tests

open Sys2Proof.Machine

/-! ## Well-formedness: an ill-formed word for each check, which the check refuses -/

theorem test_zero_field_refuses : zeroFieldOk 0x00000120 = false ∧ commandWordOk 0x00000120 = false := by decide

theorem test_opc_field_refuses : opcFieldOk 0x00000000 = false ∧ opcFieldOk 0x0000001B = false ∧
    commandWordOk 0x0000001B = false ∧ commandWordOk 0xFFFFFFFF = false := by decide

theorem test_every_command_well_formed :
    [Instr.clr, .wipe, .mkey, .psec, .pgen, .qgen, .psrch, .qsrch, .rsaasm, .rsaexp, .ecred, .ecmul, .ecexp, .gen].all
      Instr.wellFormed = true := by decide

/-! ## Decoding: words written out from R100 (`ZERO` 31:8, `OPC` 7:0) and R101 -/

theorem test_decode_lifecycle :
    decode 0b000000000000000000000000_00000001 = some .clr ∧
      decode 0b000000000000000000000000_00000010 = some .wipe := by decide

theorem test_decode_derivation :
    decode 0b000000000000000000000000_00010000 = some .mkey ∧
      decode 0b000000000000000000000000_00010001 = some .psec := by decide

theorem test_decode_prime_search :
    decode 0b000000000000000000000000_00010010 = some .pgen ∧
      decode 0b000000000000000000000000_00010011 = some .qgen ∧
      decode 0b000000000000000000000000_00010100 = some .psrch ∧
      decode 0b000000000000000000000000_00010101 = some .qsrch := by decide

theorem test_decode_rsa :
    decode 0b000000000000000000000000_00010110 = some .rsaasm ∧
      decode 0b000000000000000000000000_00010111 = some .rsaexp := by decide

theorem test_decode_ec :
    decode 0b000000000000000000000000_00011000 = some .ecred ∧
      decode 0b000000000000000000000000_00011001 = some .ecmul ∧
      decode 0b000000000000000000000000_00011010 = some .ecexp := by decide

theorem test_decode_gen : decode 0b000000000000000000000000_00100000 = some .gen := by decide

/-- R103: the all-zero word, a gap of the map, a set bit of `ZERO` above a legal `OPC`. -/
theorem test_decode_illegal :
    decode 0x00000000 = none ∧ decode 0x00000003 = none ∧ decode 0x00000021 = none ∧ decode 0x00000120 = none := by
  decide

theorem test_decode_table_word : decodeTableWord 32 0x14 = some .psrch ∧ decodeTableWord 8 0x114 = some .psrch := by
  decide

/-! ## Codec: 95_test_vectors.md sections 2.2 and 2.3 -/

theorem test_little_endian_signed :
    toLittleEndianSigned [] = [0x00] ∧ toLittleEndianSigned [0x01, 0x02, 0x03] = [0x03, 0x02, 0x01, 0x00] ∧
      le2intS (toLittleEndianSigned [0xFF]) = 255 ∧ le2intS [0xFF] = -1 ∧
      le2intS (toLittleEndianSigned [0x80, 0x01]) = 32769 := by decide

theorem test_fixed_big_endian :
    toFixedBigEndian [0x03, 0x02, 0x01, 0x00] 4 = [0x00, 0x01, 0x02, 0x03] ∧
      toFixedBigEndian [0x03, 0x02, 0x01, 0x00] 2 = [0x02, 0x03] ∧
      toFixedBigEndian [0x03, 0x02, 0x01, 0x00] 6 = [0x00, 0x00, 0x00, 0x01, 0x02, 0x03] ∧
      toFixedBigEndian [0x03, 0x02, 0x01, 0x00] 0 = [] := by decide

theorem test_fixbe : fixBE 65537 2 = [0x00, 0x01] ∧ fixBE 0 4 = [0x00, 0x00, 0x00, 0x00] ∧ fixBE 255 1 = [0xFF] ∧
    fixBE 65537 3 = [0x01, 0x00, 0x01] := by decide +kernel

/-- R142: the shortest representation carries a sign byte. -/
theorem test_lerep : leRep 0 = [0x00] ∧ leRep 255 = [0xFF, 0x00] ∧ leRep 65537 = [0x01, 0x00, 0x01] := by
  decide +kernel

/-- `AA`, `AAE`, `AQAB`, `_w`, `-w`, `-_-_`. -/
theorem test_b64url :
    b64url [0x00] = [0x41, 0x41] ∧ b64url [0x00, 0x01] = [0x41, 0x41, 0x45] ∧
      b64url [0x01, 0x00, 0x01] = [0x41, 0x51, 0x41, 0x42] ∧ b64url [0xFF] = [0x5F, 0x77] ∧
      b64url [0xFB] = [0x2D, 0x77] ∧ b64url [0xFB, 0xFF, 0xBF] = [0x2D, 0x5F, 0x2D, 0x5F] := by decide +kernel

/-- R158's examples, and the row `00` of section 2.4 (both bits on one byte). -/
theorem test_force : force [0x00, 0x00] = [0x80, 0x01] ∧ force [0x12, 0x34] = [0x92, 0x35] ∧
    force [0x7F, 0xFE] = [0xFF, 0xFF] ∧ force [0x00] = [0x81] ∧ cand0 [0x12, 0x34] = 37429 := by decide

/-! ## Arithmetic: sections 2.5 and 2.6 -/

theorem test_rsa_parts : rsaParts 60077 58897 = .ok ⟨3538355069, 2395302209, 12013, 1889, 33246⟩ := by
  decide +kernel

/-- The first inverse before the second: section 2.5's two faulting rows. -/
theorem test_rsa_parts_faults : rsaParts 917519 131 = .error (.internalArithmeticError 1) ∧
    rsaParts 32771 32771 = .error (.internalArithmeticError 2) := by decide +kernel

theorem test_double_generator : mulPoint 2 ecG = .affine
    0xC6047F9441ED7D6D3045406E95C07CD85C778E4B8CEF3CA7ABAC09B95C709EE5
    0x1AE168FEA63DC339A3C58419466CEAEEF7F632653266D0E1236431A950CFE52A := by decide +kernel

theorem test_five_times_generator : mulPoint 5 ecG = .affine
    0x2F8BDE4D1A07209355B4A7250A5C5128E88B84BDDC619AB7CBA8D569B240EFE4
    0xD8AC222636E5E3D6D4DBA9DDA6C9C426F788271BAB0D6840DCA87D3AA6AC62D6 := by decide +kernel

/-- R191's own check: the generator lies on the curve. -/
theorem test_generator_on_curve : ecGy ^ 2 % ecP = (ecGx ^ 3 + 7) % ecP ∧ ecP = 2 ^ 256 - 2 ^ 32 - 977 := by
  decide +kernel

/-! ## Dispatch on the key type: section 2.7 -/

theorem test_match_ec : matchKeyType [0x45, 0x43] = some .ec ∧ matchKeyType [0x65, 0x43] = some .ec ∧
    matchKeyType [0x72, 0x53, 0x61] = some .rsa := by decide

theorem test_match_none : matchKeyType [] = none ∧ matchKeyType [0x45, 0x43, 0x20] = none ∧
    matchKeyType [0x52, 0x53] = none ∧ matchKeyType [0x52, 0x53, 0x41, 0x00] = none ∧
    matchKeyType [0x52, 0xC5, 0xBF, 0x41] = none := by decide

/-! ## Memory -/

theorem test_memory_canonical :
    Memory.write (Memory.write [] 0x0201 0x62) 0x0200 0x61 = [(0x0200, 0x61), (0x0201, 0x62)] ∧
      Memory.write [(0x0200, 0x61)] 0x0200 0x00 = [] := by decide

/-! ## Small states and a small configuration -/

/-- Inputs loaded: empty SEED, DID and PEER, and a key type of three bytes. -/
def loaded (k0 k1 k2 : Byte) (len : Word) : State := { State.reset with
  mem := [(0x0400, k0), (0x0401, k1), (0x0402, k2)]
  seed := ⟨0, true⟩, did := ⟨0, true⟩, peer := ⟨0, true⟩, ktype := ⟨len, true⟩ }

/-- Key type "EC" with a byte beyond its length. -/
def loadedEc : State := loaded 0x45 0x43 0x20 2

/-- Key type "RSA" and `KEYSIZE = 16`. -/
def loadedRsa : State := { loaded 0x52 0x53 0x41 3 with keySize := 16 }

/-- Key type "DSA". -/
def loadedDsa : State := loaded 0x44 0x53 0x41 3

/-- The command `i` running, at a phase of its element. -/
def running (i : Instr) (ph : Phase) (s : State) : State := { s with
  flags := { s.flags with busy := true }
  seq := { s.seq with cur := opcode i, sub := opcode i, phase := ph } }

/-- `GEN` running at a place of its sequence. -/
def genAt (pc : BitVec 4) (s : State) : State :=
  { running .gen .operands s with seq := { (running .gen .operands s).seq with gidx := pc } }

/-- A keyed hash of constant digests, and an oracle for the numbers of these tests; granule 16. -/
def toy : Config := { Config.defaults
    (fun key _ => if key = [0x00] then Vector.replicate 64 0x08 else Vector.replicate 64 0x00)
    (fun v => [131, 137, 257, 37441, 65537].contains v) with granule := .g16 }

/-- The same with an oracle that rejects everything. -/
def deaf : Config := { toy with primeOracle := fun _ => false }

/-- The same with `ITER_CAP = 6`. -/
def capped : Config := { deaf with iterCapPred := some 5 }

/-- `STATUS` and `ERR` after an outcome that is a next state. -/
def shows : Host.Outcome State Fault Refusal → Option (Word × Word)
  | .next t => some (statusWord t, errWord t.err)
  | .fault _ => none
  | .refused _ => none

/-! ## One step of each command -/

/-- R220's worked example: after `UnsupportedKeyType`, CLR leaves `STATUS = 0x00010F00` and `ERR = 0`. -/
theorem test_clr : statusWord (clr (raise (.unsupportedKeyType 3) loadedDsa)) = 0x00010F00 ∧
    errWord (clr (raise (.unsupportedKeyType 3) loadedDsa)).err = 0 := by decide

/-- R222: `STATUS = 0x00020000`, the inputs gone. -/
theorem test_wipe : statusWord (wipe loadedRsa) = 0x00020000 ∧ (wipe loadedRsa).mem = [] ∧
    (wipe loadedRsa).keySize = 0 := by decide

/-- Section 2.8: MKEY accepted, `STATUS = 0x00100F01`. -/
theorem test_mkey_accepted : statusWord (mkey toy loadedEc) = 0x00100F01 := by decide

/-- Section 2.9: only SEED loaded, MKEY reports DID: `ERR = 0x00000212`. -/
theorem test_mkey_operand :
    errWord (mkey toy (running .mkey .operands { State.reset with seed := ⟨0, true⟩ })).err = 0x00000212 := by decide

/-- R194: the message of PSEC's round is PEER, which is empty here. -/
theorem test_psec_operands : (psec toy (running .psec .operands { loadedEc with
    derived := { Derived.invalid with mk := some [0x11] } })).seq.chain = [] := by decide

/-- R156: `LB = KEYSIZE / 16`; section 2.9: an illegal size is `ERR = 0x00000011`. -/
theorem test_pgen_size :
    (pgen toy (running .pgen .operands { loadedRsa with
      derived := { Derived.invalid with mk := some [] } })).derived.lb = some 1 ∧
    errWord (pgen toy (running .pgen .operands { loadedRsa with
      keySize := 1000, derived := { Derived.invalid with mk := some [] } })).err = 0x00000011 := by decide

/-- R157: the key of QGEN's round is the unforced PBASE. -/
theorem test_qgen_round : (qgen toy (running .qgen .loop { loadedRsa with
    derived := { Derived.invalid with pbase := some [0x00], lb := some 1 } })).seq.acc =
      List.replicate 64 0x08 := by decide

/-- Section 2.4, row `12 34`: 37429 is rejected, 37431 comes next; R162 counts the test. -/
theorem test_psrch_rejects : (psrch toy (running .psrch .loop { State.reset with
    derived := { Derived.invalid with pbase := some [0x12, 0x34], cand := some 37429 } })).derived.cand =
      some 37431 := by decide

/-- Section 2.4, row `FF FF`, and D14: 65535 is rejected, and the step to 65537 sets `OVF`; the step from 37429 to 37431 of the
row `12 34` does not. -/
theorem test_psrch_reaches_width :
    (psrch toy (running .psrch .loop { State.reset with
      derived := { Derived.invalid with pbase := some [0xFF, 0xFF], cand := some 65535 } })).flags.ovf = true ∧
    (psrch toy (running .psrch .loop { State.reset with
      derived := { Derived.invalid with pbase := some [0x12, 0x34], cand := some 37429 } })).flags.ovf = false := by
  decide

/-- Section 2.4, row `FF FF`: 65537 needs more than 16 bits, `OVF` is set and `P` keeps the whole number. -/
theorem test_psrch_overflow :
    (psrch toy (running .psrch .commit { State.reset with
      derived := { Derived.invalid with pbase := some [0xFF, 0xFF], cand := some 65537 } })).derived.p = some 65537 ∧
    (psrch toy (running .psrch .commit { State.reset with
      derived := { Derived.invalid with pbase := some [0xFF, 0xFF], cand := some 65537 } })).flags.ovf = true := by
  decide

/-- Section 2.4: with `ITER_CAP = 6` the sixth rejection of a q search is `ERR = 0x00000103`. -/
theorem test_qsrch_cap : errWord (qsrch capped (running .qsrch .loop { State.reset with
    derived := { Derived.invalid with qbase := some [0x12, 0x34], cand := some 37439 }
    seq := { State.reset.seq with tests := 5 } })).err = 0x00000103 := by decide

/-- R161: QSRCH stores `Q` and invalidates `CAND`. -/
theorem test_qsrch_commit :
    (qsrch toy (running .qsrch .commit { State.reset with
      derived := { Derived.invalid with qbase := some [0xE6, 0x11], cand := some 58897 } })).derived =
      { Derived.invalid with qbase := some [0xE6, 0x11], q := some 58897 } := by decide

/-- Section 2.5. -/
theorem test_rsaasm : (rsaasm (running .rsaasm .operands { State.reset with
    derived := { Derived.invalid with p := some 131, q := some 257 } })).derived =
      ⟨none, none, none, none, some 131, some 257, some 33667, some 23553, some 23, some 1, some 26, none, none, none,
        none, none⟩ := by decide +kernel

/-- Section 2.9: Q is missing, `ERR = 0x00000A12`. -/
theorem test_rsaasm_operand : errWord (rsaasm (running .rsaasm .operands { State.reset with
    derived := { Derived.invalid with p := some 131 } })).err = 0x00000A12 := by decide

/-- Section 2.5, row (131, 257) with `LB = 1`: the overflowed q is truncated, the text of `83` is `gw`. -/
theorem test_rsaexp : (rsaexp (running .rsaexp .operands { State.reset with
    derived := ⟨none, none, none, none, some 131, some 257, some 33667, some 23553, some 23, some 1, some 26, none, none,
      none, some 1, none⟩ })).out =
    .rsa ⟨1, ⟨[0x01, 0x00, 0x01], [0x41, 0x51, 0x41, 0x42]⟩, ⟨[0x83, 0x83], [0x67, 0x34, 0x4D]⟩,
      ⟨[0x5C, 0x01], [0x58, 0x41, 0x45]⟩, ⟨[0x83], [0x67, 0x77]⟩, ⟨[0x01], [0x41, 0x51]⟩, ⟨[0x17], [0x46, 0x77]⟩,
      ⟨[0x01], [0x41, 0x51]⟩, ⟨[0x1A], [0x47, 0x67]⟩⟩ := by decide +kernel

/-- Section 2.6: the order reduces to 0, the order and one more to 1. -/
theorem test_ecred : (ecred (running .ecred .operands { State.reset with
    derived := { Derived.invalid with ps := some (List.replicate 32 0x00 ++ beBytes 32 (ecN + 1)) } })).derived.ecd =
      some 1 := by decide +kernel

/-- R196: `d = 1` gives the generator. -/
theorem test_ecmul : (ecmul (running .ecmul .operands { State.reset with
    derived := { Derived.invalid with ecd := some 1 } })).derived.qx = some ecGx := by decide +kernel

/-- Section 2.6: the scalar 0 is `ERR = 0x00000013`. -/
theorem test_ecmul_zero : errWord (ecmul (running .ecmul .operands { State.reset with
    derived := { Derived.invalid with ecd := some 0 } })).err = 0x00000013 := by decide +kernel

/-- Section 2.9: QX is missing, `ERR = 0x00001112`. -/
theorem test_ecexp_operand : errWord (ecexp (running .ecexp .operands { State.reset with
    derived := { Derived.invalid with ecd := some 5 } })).err = 0x00001112 := by decide

/-- R197: `d = 5` exports as 31 zero bytes, then `05`. -/
theorem test_ecexp : ((ecRecord 5 ecGx ecGy).d.raw = List.replicate 31 0x00 ++ [0x05]) ∧
    (ecRecord 5 ecGx ecGy).d.txt.length = 43 := by decide +kernel

/-- Section 3.3: key type "DSA": `STATUS = 0x00200F04`, `ERR = 0x00000301`, the sticky flags of before GEN cleared. -/
theorem test_gen_key_type :
    statusWord (gen toy (running .gen .operands { loadedDsa with
      flags := { loadedDsa.flags with drop := true } })) = 0x00200F04 ∧
    errWord (gen toy (running .gen .operands loadedDsa)).err = 0x00000301 := by decide

/-- R219: SCRUB leaves the record alone and drops every derived register; the next step completes. -/
theorem test_gen_scrub :
    (gen toy (genAt 6 { loadedEc with derived := { Derived.invalid with ecd := some 1 } })).derived =
      Derived.invalid ∧
    statusWord (gen toy (genAt 7 loadedEc)) = 0x00200F02 := by decide

/-! ## Command writes: section 2.8 -/

/-- `0x00000120`: `STATUS = 0x00200F04`, `ERR = 0x00002010`. -/
theorem test_illegal_command :
    shows (writeCommand exec 0x00000120 loadedEc) = some (0x00200F04, 0x00002010) := by decide

/-- A command in the fault state is dropped: `0x00FF0F14`, the first fault kept. -/
theorem test_fault_state_drops :
    shows (writeCommand exec 0x00000010 (raise (.illegalCommand 0xFF)
      { loadedEc with seq := { loadedEc.seq with cur := 0xFF } })) = some (0x00FF0F14, 0x0000FF10) := by decide

/-- The step after reset runs the command word that `withFetchWord` places. -/
theorem test_fetch_word :
    shows (step (State.reset.withFetchWord 32 0x14)) = some (0x00140001, 0) := by decide

/-! ## Host accesses: section 2.10 -/

/-- `MemWrite(0x0400, 4, 0x00004345)`; `MemWrite(0x001C, 4, 2)`: KTYPE is "EC". -/
theorem test_load_key_type :
    (writeLength toy .ktype 2 (writeBytes toy .ktype 0x0400 0x00004345 State.reset)).input .ktype =
      some [0x45, 0x43] := by decide

/-- `MemWrite(0x001C, 4, 17)` with `KTYPE_MAX = 16` is dropped. -/
theorem test_long_length : (writeLength toy .ktype 17 State.reset).flags.drop = true ∧
    (writeLength toy .ktype 17 State.reset).ktype = ⟨0, false⟩ := by decide

/-- A read of the seed is 0, of DID `0x64636261`. -/
theorem test_read_inputs :
    readWord toy 0x0100 { State.reset with mem := [(0x0100, 0x78)] } = 0 ∧
      readWord toy 0x0200 { State.reset with
        mem := [(0x0200, 0x61), (0x0201, 0x62), (0x0202, 0x63), (0x0203, 0x64)] } = 0x64636261 := by decide

/-- An RSA record's `e`: `0x00010001` at 0x1000, `0x42415141` at 0x2000, no value at 0x1004 or in the EC slots. -/
theorem test_output_windows :
    let o := Out.rsa (rsaRecord 131 257 33667 23553 23 1 26 2)
    outWord o 0x1000 = 0x00010001 ∧ outWord o 0x2000 = 0x42415141 ∧ outHasByte o 0x1004 = false ∧
      outHasByte o 0x1B00 = false ∧ outWord o 0x1200 = 0x83830000 := by decide +kernel

/-- A read at reset of 0x1000 sets `RDERR`; of 0x0034 and of the reserved 0x1C00 (R71, R74) it changes nothing. -/
theorem test_read_errors : (readEffect toy 0x1000 State.reset).flags.rdErr = true ∧
    readEffect toy 0x0034 State.reset = State.reset ∧ readEffect toy 0x1C00 State.reset = State.reset := by decide

/-- D22: while `BUSY = 1` a read of `OUT` returns 0 and sets `RDERR`, whatever record is there; at an idle engine the same
read returns `e` and sets nothing. -/
theorem test_read_while_busy :
    let s := { State.reset with out := .rsa (rsaRecord 131 257 33667 23553 23 1 26 2) }
    let t := running .mkey .loop s
    readWord toy 0x1000 t = 0 ∧ (readEffect toy 0x1000 t).flags.rdErr = true ∧ readWord toy 0x002C t = 0 ∧
      readWord toy 0x1000 s = 0x00010001 ∧ readEffect toy 0x1000 s = s ∧ readWord toy 0x002C s = 1 := by decide +kernel

/-- Sections 3.1 and 3.2: the expansion of `LOAD DID, "abcdef"` and of `PSRCH`. -/
theorem test_script : (ScriptLine.load .did [0x61, 0x62, 0x63, 0x64, 0x65, 0x66]).expand =
      [.write 0x0200 0x64636261, .write 0x0204 0x00006665, .write 0x0014 6] ∧
    (ScriptLine.command .psrch).expand = [.write 0x0000 0x00000014] := by decide

/-- A misaligned access is no move of the host (R74). -/
theorem test_misaligned : step (State.reset.withMove (.read 0x0002)) = .fault (.misalignedAccess 0x0002) := rfl

/-! ## Witnesses: concrete states and operands that meet the hypotheses of each statement, clause by clause -/

theorem witness_decode_encode : Instr.gen.wellFormed = true ∧ decode 0x00000020 = some .gen := by decide

theorem witness_illegal_word : Ready State.reset ∧ decode 0x00000000 = none ∧ decode 0xFFFFFFFF = none := by
  unfold Ready; decide

theorem witness_acceptance : Instr.mkey ≠ .clr ∧ Instr.mkey ≠ .wipe ∧ Ready State.reset := by unfold Ready; decide

/-- The idle clauses, the fault state among them, and the clauses for a running command. -/
theorem witness_step_runs :
    (State.reset.flags.busy = false ∧ State.reset.flags.fault = false ∧ decode 0x00000014 = some .psrch) ∧
    ((raise .invalidKeySize State.reset).flags.busy = false ∧ decode 0x00000001 = some .clr) ∧
    ((running .psrch .loop State.reset).flags.busy = true ∧ (running .psrch .loop State.reset).seq.cur = opcode .psrch ∧
      (running .psrch .loop State.reset).host.script = []) ∧ State.reset.host.script = [] := by decide

/-- Both ends of every unmapped range. -/
theorem witness_register_reads :
    [0x0034, 0x00FC, 0x0500, 0x0FFC, 0x1C00, 0x1FFC, 0x3000, 0x3FFC].all (fun off => off % 4 == 0 &&
      (decide (0x0034 ≤ off ∧ off ≤ 0x00FF) || decide (0x0500 ≤ off ∧ off ≤ 0x0FFF) ||
        decide (0x1C00 ≤ off ∧ off ≤ 0x1FFF) || decide (0x3000 ≤ off ∧ off ≤ 0x3FFC))) = true := by decide

theorem witness_reads : [0x0000, 0x0FFC, 0x1000, 0x1BFC, 0x1C00, 0x1FFC, 0x2000, 0x2FFC, 0x3000, 0x3FFC].all
    (fun off => off % 4 == 0 && decide (off ≤ 0x3FFC)) = true := by decide

/-- A running command and, at an idle engine, both ends of each read-only or unmapped range. -/
theorem witness_dropped_writes : (running .gen .loop State.reset).flags.busy = true ∧
    [0x0004, 0x0008, 0x0020, 0x00FC, 0x0500, 0x3FFC].all (fun off => off % 4 == 0 && decide (off ≤ 0x3FFC) &&
      (off == 0x0004 || off == 0x0008 || decide (0x0020 ≤ off ∧ off ≤ 0x00FF) || decide (0x0500 ≤ off))) = true := by
  decide

/-- For `LengthWrites` and `KeySizeWrites`; `Buf.seed` differs from `Buf.did`. -/
theorem witness_register_writes : State.reset.flags.busy = false ∧ Buf.seed ≠ Buf.did := by decide

/-- The first and the last word of a buffer's range. -/
theorem witness_array_writes : loadedEc.flags.busy = false ∧ Memory.wf loadedEc.mem = true ∧ 0x0400 % 4 = 0 ∧
    Buf.ktype.base ≤ 0x0400 ∧ 0x0400 < Buf.ktype.base + 0x100 ∧ 0x04FC % 4 = 0 ∧ Buf.ktype.base ≤ 0x04FC ∧
    0x04FC < Buf.ktype.base + 0x100 := by decide

theorem witness_array_reads : StorageInv Config.platform State.reset ∧ Buf.did ≠ .seed ∧ 0x02FC % 4 = 0 ∧
    Buf.did.base ≤ 0x02FC ∧ 0x02FC < Buf.did.base + 0x100 ∧ (0x0100 ≤ 0x01FC ∧ 0x01FC ≤ 0x01FF) :=
  ⟨⟨rfl, fun _ h => absurd rfl h, fun b => by cases b <;> exact Nat.zero_le _⟩, by decide⟩

/-- The state after reset, and one that differs from it in a seed byte, a derived register and the sequencer. -/
theorem witness_secrets :
    let t := { State.reset with
      mem := [(0x0100, 0x78)]
      derived := { Derived.invalid with mk := some [0x11] }
      seq := { State.reset.seq with sub := 0x10 } }
    (∀ a, (a < 0x0100 ∨ 0x01FF < a) → Memory.read t.mem a = Memory.read State.reset.mem a) ∧
      (∀ b : Buf, t.inputReg b = State.reset.inputReg b) ∧ t.keySize = State.reset.keySize ∧
      t.out = State.reset.out ∧ t.flags = State.reset.flags ∧ t.seq.cur = State.reset.seq.cur ∧
      t.err = State.reset.err ∧ t.counters = State.reset.counters := by
  refine ⟨fun a h => ?_, fun b => by cases b <;> rfl, rfl, rfl, rfl, rfl, rfl, rfl⟩
  have : a ≠ 0x0100 := by omega
  simp [Memory.read, this, State.reset]

/-- Two running states that differ in the record alone. -/
theorem witness_secrets_running :
    let s := running .gen .operands State.reset
    let t := { s with out := .ec (ecRecord 1 ecGx ecGy) }
    (∀ a, (a < 0x0100 ∨ 0x01FF < a) → Memory.read t.mem a = Memory.read s.mem a) ∧
      (∀ b : Buf, t.inputReg b = s.inputReg b) ∧ t.keySize = s.keySize ∧ (s.flags.busy = false → t.out = s.out) ∧
      t.out ≠ s.out ∧ t.flags = s.flags ∧ t.seq.cur = s.seq.cur ∧ t.err = s.err ∧ t.counters = s.counters :=
  ⟨fun _ _ => rfl, fun b => by cases b <;> rfl, rfl, fun h => (by cases h), nofun, rfl, rfl, rfl, rfl⟩

/-- A record of each kind that meets `OutInv`: the values of section 2.5 (131, 257) with `LB = 2`, and the scalar 1. -/
theorem witness_output_windows :
    OutInv { State.reset with out := .rsa (rsaRecord 131 257 33667 23553 23 1 26 2) } ∧
      OutInv { State.reset with out := .ec (ecRecord 1 ecGx ecGy) } := by
  unfold OutInv FieldHeld
  decide +kernel

/-- Both ends of the windows; a running engine; at an idle one a word with a field byte, and one without. -/
theorem witness_output_reads :
    [0x1000, 0x1BFC, 0x2000, 0x2FFC].all (fun off => off % 4 == 0 &&
        (decide (0x1000 ≤ off ∧ off ≤ 0x1BFF) || decide (0x2000 ≤ off ∧ off ≤ 0x2FFF))) = true ∧
      (running .mkey .loop State.reset).flags.busy = true ∧ State.reset.flags.busy = false ∧
      (∀ k, k < 4 → State.reset.out.byteAt (0x2FFC + k) = none) ∧
      ∃ k, k < 4 ∧ (Out.rsa (rsaRecord 131 257 33667 23553 23 1 26 2)).byteAt (0x1000 + k) ≠ none := by
  refine ⟨by decide, by decide, by decide, by decide, 0, ?_⟩
  decide +kernel

/-- The lowest and the highest offsets of each clause. -/
theorem witness_bad_accesses : 0x0001 % 4 ≠ 0 ∧ 0x3FFF % 4 ≠ 0 ∧ 0x4000 % 4 = 0 ∧ 0x3FFC < 0x4000 := by decide

/-- For `ClrDiscards` and `WipeRestoresReset`: an idle engine, in the fault state and not. -/
theorem witness_clr_wipe : State.reset.flags.busy = false ∧ (raise .invalidKeySize loadedEc).flags.busy = false ∧
    (raise .invalidKeySize loadedEc).flags.fault = true := by decide

/-- A state in the fault state that keeps `LifecycleInv`, one step each way: by CLR, by reset, and staying there. -/
theorem witness_fault_state :
    let s := raise .invalidKeySize State.reset
    LifecycleInv s ∧ s.flags.fault = true ∧
      (∃ t, step (s.withMove (.write 0x0000 0x00000001)) = .next t ∧ t.flags.fault = false) ∧
      (∃ t, step (s.withMove .reset) = .next t ∧ t.flags.fault = false) ∧
      ∃ t, step (s.withMove (.write 0x0000 0x00000014)) = .next t ∧ t.flags.fault = true :=
  ⟨⟨by decide, by decide, by decide, by decide, fun _ => rfl, fun h => absurd h (by decide), rfl, fun _ _ => rfl⟩, rfl, ⟨_, rfl, rfl⟩,
    ⟨_, rfl, rfl⟩, ⟨_, rfl, rfl⟩⟩

/-- Each way a sticky flag falls. -/
theorem witness_sticky :
    let s := { State.reset with flags := { State.reset.flags with drop := true, rdErr := true, ovf := true } }
    (∃ t, step (s.withMove .reset) = .next t ∧ t.flags.drop = false) ∧
      (∃ t, step (s.withMove (.write 0x0000 0x00000002)) = .next t ∧ t.flags.rdErr = false) ∧
      ∃ t, step (running .gen .operands s) = .next t ∧ t.flags.ovf = false :=
  ⟨⟨_, rfl, rfl⟩, ⟨_, rfl, rfl⟩, ⟨_, rfl, rfl⟩⟩

theorem witness_busy_isolated : (running .ecred .operands State.reset).flags.busy = true ∧
    (∀ rest, (running .ecred .operands State.reset).host.script ≠ .reset :: rest) ∧
    ∃ t, step (running .ecred .operands State.reset) = .next t :=
  ⟨rfl, (by intro _ h; cases h), ⟨_, rfl⟩⟩

/-- A step command's engine step that ends without a fault, and one that raises. -/
theorem witness_frames : Instr.ecred ≠ .clr ∧ Instr.ecred ≠ .wipe ∧ Instr.ecred ≠ .gen ∧
    (∃ t, exec .ecred (running .ecred .operands { State.reset with
      derived := { Derived.invalid with ps := some [0x05] } }) = .next t ∧ t.flags.fault = false) ∧
    ∃ t, exec .ecred (running .ecred .operands State.reset) = .next t ∧ t.flags.fault = true :=
  ⟨by decide, by decide, by decide, ⟨_, rfl, rfl⟩, ⟨_, rfl, rfl⟩⟩

/-! The commands' results: a `Ready` state for each clause. -/

theorem witness_mkey_result : Ready State.reset ∧ firstMissing (sources .mkey State.reset) = some .seed ∧
    firstMissing (sources .mkey { State.reset with seed := ⟨0, true⟩ }) = some .did ∧
    Ready loadedEc ∧ loadedEc.input .seed = some [] ∧ loadedEc.input .did = some [] := by unfold Ready; decide

theorem witness_psec_result : firstMissing (sources .psec State.reset) = some .peer ∧
    firstMissing (sources .psec loadedEc) = some .mk ∧
    (let s := { loadedEc with derived := { Derived.invalid with mk := some [0x11] } }
     Ready s ∧ s.input .peer = some [] ∧ s.derived.mk = some [0x11]) := by unfold Ready; decide

/-- Under the configuration `toy`: an illegal key size and a legal one. -/
theorem witness_pgen_result : firstMissing (sources .pgen State.reset) = some .peer ∧
    (let s := { loadedRsa with derived := { Derived.invalid with mk := some [0x11] } }
     Ready s ∧ s.input .peer = some [] ∧ s.derived.mk = some [0x11] ∧ keySizeLegal toy s.keySize.toNat = true ∧
       keySizeLegal toy ({ s with keySize := 1000 } : State).keySize.toNat = false) := by unfold Ready; decide

theorem witness_qgen_result : firstMissing (sources .qgen loadedRsa) = some .pbase ∧
    (let s := { loadedRsa with derived := { Derived.invalid with pbase := some [0x00], lb := some 1 } }
     Ready s ∧ s.input .peer = some [] ∧ s.derived.pbase = some [0x00] ∧ s.derived.lb = some 1) := by
  unfold Ready; decide

theorem witness_deriving_steps :
    let s := running .qgen .loop { loadedRsa with
      derived := { Derived.invalid with mk := some [0x11], pbase := some [0x00], lb := some 1 } }
    s.flags.busy = true ∧ s.seq.phase = .loop ∧ s.input .seed = some [] ∧ s.input .did = some [] ∧
      s.input .peer = some [] ∧ s.derived.mk = some [0x11] ∧ s.derived.pbase = some [0x00] ∧ s.derived.lb = some 1 := by
  decide

/-- Each of the three phases, for each search. -/
theorem witness_search_steps (w : Which) (ph : Phase) :
    let s := running w.instr ph { State.reset with
      derived := { Derived.invalid with pbase := some [0x12], qbase := some [0x12], cand := some 147 } }
    s.flags.busy = true ∧ w.base s.derived = some [0x12] ∧ s.seq.phase = ph ∧ s.derived.cand = some 147 := by
  cases w <;> cases ph <;> decide

/-- Section 2.4: `12 34` finds 37441 after 6 rejections, `FF FF` finds 65537 after 1 (an overflow). -/
theorem witness_search_result :
    let s := { State.reset with derived := { Derived.invalid with pbase := some [0x12, 0x34], qbase := some [0xFF, 0xFF] } }
    Ready s ∧ Which.p.base State.reset.derived = none ∧ Which.p.base s.derived = some [0x12, 0x34] ∧
      Which.q.base s.derived = some [0xFF, 0xFF] ∧ SearchFinds toy [0x12, 0x34] 6 37441 ∧
      SearchFinds toy [0xFF, 0xFF] 1 65537 ∧ CapAllows toy 6 := by
  refine ⟨⟨rfl, rfl⟩, rfl, rfl, rfl, ?_, ?_, fun _ h => nomatch h⟩ <;> unfold SearchFinds <;> decide

/-- The cap 6 on `12 34`, and an oracle that rejects everything without a cap. -/
theorem witness_search_without_result :
    let s := { State.reset with derived := { Derived.invalid with pbase := some [0x12, 0x34] } }
    Ready s ∧ Which.p.base s.derived = some [0x12, 0x34] ∧ capped.iterCap = some 6 ∧
      (∀ j < 6, capped.primeOracle (cand0 [0x12, 0x34] + 2 * j) = false) ∧ deaf.iterCap = none ∧
      SearchHasNoResult deaf [0x12, 0x34] :=
  ⟨⟨rfl, rfl⟩, rfl, rfl, fun _ _ => rfl, rfl, fun _ => rfl⟩

/-- The oracle of R165 that accepts every odd number above 1, and 2: complete, not sound. -/
theorem witness_search_terminates :
    let c := { toy with primeOracle := fun v => v % 2 == 1 || v == 2 }
    let s := { State.reset with derived := { Derived.invalid with pbase := some [0x12, 0x34] } }
    Ready s ∧ Which.p.base s.derived = some [0x12, 0x34] ∧ c.iterCap = none ∧ OracleComplete c := by
  refine ⟨⟨rfl, rfl⟩, rfl, rfl, fun v hv => ?_⟩
  rcases hv.eq_two_or_odd with h | h <;> simp [h]

/-- Section 2.5: the rows (131, 257), (917519, 131) and (32771, 32771). -/
theorem witness_rsaasm_result : firstMissing (sources .rsaasm State.reset) = some .p ∧
    (let s := { State.reset with derived := { Derived.invalid with p := some 131, q := some 257 } }
     Ready s ∧ s.derived.p = some 131 ∧ s.derived.q = some 257) ∧ 2 < 131 ∧ 2 < 257 ∧
    (Nat.gcd 65537 ((131 - 1) * (257 - 1)) = 1 ∧ Nat.gcd 257 131 = 1) ∧
    Nat.gcd 65537 ((917519 - 1) * (131 - 1)) ≠ 1 ∧
    (Nat.gcd 65537 ((32771 - 1) * (32771 - 1)) = 1 ∧ Nat.gcd 32771 32771 ≠ 1) := by
  unfold Ready
  decide +kernel

/-- All eight sources valid, and the last of them missing. -/
theorem witness_rsaexp_result :
    let d : Derived := ⟨none, none, none, none, some 131, some 257, some 33667, some 23553, some 23, some 1, some 26,
      none, none, none, some 2, none⟩
    let s := { State.reset with derived := d }
    Ready s ∧ s.derived.p = some 131 ∧ s.derived.q = some 257 ∧ s.derived.nmod = some 33667 ∧
      s.derived.dexp = some 23553 ∧ s.derived.dp = some 23 ∧ s.derived.dq = some 1 ∧ s.derived.qi = some 26 ∧
      s.derived.lb = some 2 ∧
      firstMissing (sources .rsaexp { State.reset with derived := { d with lb := none } }) = some .lb := by
  unfold Ready; decide

theorem witness_ecred_result : State.reset.derived.ps = none ∧
    (let s := { State.reset with derived := { Derived.invalid with ps := some [0x05] } }
     Ready s ∧ s.derived.ps = some [0x05]) := by unfold Ready; decide

theorem witness_ecmul_result : State.reset.derived.ecd = none ∧
    (let s := { State.reset with derived := { Derived.invalid with ecd := some 0 } }
     Ready s ∧ s.derived.ecd = some 0) ∧
    (let s := { State.reset with derived := { Derived.invalid with ecd := some 1 } }
     Ready s ∧ s.derived.ecd = some 1) ∧ 1 < ecN ∧ mulPoint 1 ecG = .affine ecGx ecGy := by unfold Ready; decide +kernel

/-- The group law's cases: the generator and its opposite, the generator twice, the generator and its double. -/
theorem witness_group_law : ecG.OnCurve ∧ (Point.affine ecGx (ecP - ecGy)).OnCurve ∧ (ecGy + (ecP - ecGy)) % ecP = 0 ∧
    (ecGy + ecGy) % ecP ≠ 0 ∧ ∃ x y, addPoint ecG ecG = .affine x y ∧ (Point.affine x y).OnCurve ∧ x ≠ ecGx := by
  refine ⟨ecG_onCurve, ?_, by decide +kernel, by decide +kernel, _, _, rfl, ?_, by decide +kernel⟩ <;>
    unfold Point.OnCurve <;> decide +kernel

theorem witness_ecexp_result :
    let d := { Derived.invalid with ecd := some 1, qx := some ecGx, qy := some ecGy }
    let s := { State.reset with derived := d }
    Ready s ∧ s.derived.ecd = some 1 ∧ s.derived.qx = some ecGx ∧ s.derived.qy = some ecGy ∧
      firstMissing (sources .ecexp { State.reset with derived := { d with qy := none } }) = some .qy := by
  unfold Ready; decide

theorem witness_gen_start_faults : (Ready State.reset ∧ State.reset.input .ktype = none) ∧
    (Ready loadedDsa ∧ loadedDsa.input .ktype = some [0x44, 0x53, 0x41] ∧ matchKeyType [0x44, 0x53, 0x41] = none) ∧
    (let s := { loadedEc with peer := ⟨0, false⟩ }
     Ready s ∧ s.input .ktype = some [0x45, 0x43] ∧ matchKeyType [0x45, 0x43] = some .ec ∧
       firstMissing [(.seed, s.seed.valid), (.did, s.did.valid), (.peer, s.peer.valid)] = some .peer) ∧
    (let s := { loadedRsa with keySize := 0 }
     Ready s ∧ s.input .ktype = some [0x52, 0x53, 0x41] ∧ matchKeyType [0x52, 0x53, 0x41] = some .rsa ∧
       s.seed.valid = true ∧ s.did.valid = true ∧ s.peer.valid = true ∧
       keySizeLegal toy s.keySize.toNat = false) := by unfold Ready; decide

/-- The first and the last step command of each sequence, SCRUB and the end. -/
theorem witness_gen_sequence :
    loadedEc.input .ktype = some [0x45, 0x43] ∧ matchKeyType [0x45, 0x43] = some .ec ∧
      loadedRsa.input .ktype = some [0x52, 0x53, 0x41] ∧ matchKeyType [0x52, 0x53, 0x41] = some .rsa ∧
      (genAt 1 loadedEc).flags.busy = true ∧ (genAt 1 loadedEc).seq.gidx ≠ 0 ∧
      (stepScript .ec)[(genAt 1 loadedEc).seq.gidx.toNat]? = some .mkey ∧
      (stepScript .ec)[(genAt 5 loadedEc).seq.gidx.toNat]? = some .ecexp ∧
      (stepScript .rsa)[(genAt 7 loadedRsa).seq.gidx.toNat]? = some .rsaexp ∧
      (genAt 6 loadedEc).seq.gidx.toNat = (stepScript .ec).length ∧
      (genAt 8 loadedRsa).seq.gidx.toNat = (stepScript .rsa).length ∧
      (genAt 9 loadedRsa).seq.gidx.toNat = (stepScript .rsa).length + 1 := by decide

theorem witness_gen_ec_record : Ready loadedEc ∧ loadedEc.input .ktype = some [0x45, 0x43] ∧
    matchKeyType [0x45, 0x43] = some .ec ∧ loadedEc.input .seed = some [] ∧ loadedEc.input .did = some [] ∧
    loadedEc.input .peer = some [] := by unfold Ready; decide

/-- Under the configuration `toy`: `PBASE = 00` finds 131 after one rejection, `QBASE = 08` finds 137 at once. -/
theorem witness_gen_rsa_record : Ready loadedRsa ∧ loadedRsa.input .ktype = some [0x52, 0x53, 0x41] ∧
    matchKeyType [0x52, 0x53, 0x41] = some .rsa ∧ loadedRsa.input .seed = some [] ∧ loadedRsa.input .did = some [] ∧
    loadedRsa.input .peer = some [] ∧ keySizeLegal toy loadedRsa.keySize.toNat = true ∧
    deriveBytes toy (toy.hmac [] ([] ++ signatureSuffix)).toList 1 [] = [0x00] ∧
    deriveBytes toy [0x00] 1 [] = [0x08] ∧
    SearchFinds toy [0x00] 1 131 ∧ SearchFinds toy [0x08] 0 137 ∧ CapAllows toy 1 ∧ CapAllows toy 0 ∧
    ∃ r, rsaParts 131 137 = .ok r := by
  refine ⟨⟨rfl, rfl⟩, by decide, by decide, by decide, by decide, by decide, by decide, by decide, by decide, ?_, ?_,
    (by intro _ h; cases h), (by intro _ h; cases h), ⟨_, rfl⟩⟩ <;> unfold SearchFinds <;> decide

/-- Two states of the same inputs that differ in a byte beyond the key type's length, a counter and a derived register;
GEN ends from the first (a fault, of the key type). -/
theorem witness_gen_purity :
    let s := loaded 0x45 0x43 0x20 2
    let t := { loaded 0x45 0x43 0x41 2 with
      counters := ⟨7, 0, 0⟩, derived := { Derived.invalid with mk := some [0x11] } }
    Ready s ∧ Ready t ∧ SameInputs s t ∧ RunsTo toy .gen loadedDsa (commandStep toy .gen (commandStep toy .gen loadedDsa)) := by
  refine ⟨⟨rfl, rfl⟩, ⟨rfl, rfl⟩, ⟨fun b => by cases b <;> decide, rfl⟩, ?_⟩
  exact .turn _ _ rfl (.idle _ rfl)

/-- A key type GEN knows, and, under `toy`, a run of GEN and a run of the script that end (both fault for want of a
seed). -/
theorem witness_gen_script :
    let s := { loadedEc with seed := ⟨0, false⟩ }
    Ready s ∧ s.input .ktype = some [0x45, 0x43] ∧ matchKeyType [0x45, 0x43] = some .ec ∧
      (∃ g, RunsTo toy .gen s g) ∧ ∃ u, ScriptRunsTo toy (stepScript .ec) s u := by
  refine ⟨⟨rfl, rfl⟩, by decide, by decide, ⟨_, .turn _ _ rfl (.idle _ rfl)⟩, _, _, .idle _ rfl, _,
    .turn _ _ rfl (.idle _ rfl), _, .idle _ rfl, _, .idle _ rfl, _, .idle _ rfl, _, .idle _ rfl, rfl⟩

theorem witness_fixed_big_endian : le2intS [0xFF, 0x00] = ((255 : Nat) : Int) ∧ ([0x01] : Bytes).length ≤ 1 := by decide

theorem witness_base64 : 3 < (4 * ([0x01, 0x00, 0x01] : Bytes).length + 2) / 3 ∧ b64url [] = b64url [] ∧ 63 < 64 := by
  decide

theorem witness_start_candidate : 1 ≤ ([0x00] : Bytes).length ∧ ([0x00] : Bytes)[0]? = some 0x00 := by decide

theorem witness_modular_inverse : (2 ≤ 2 ∧ Nat.gcd 3 2 = 1) ∧ 2 ≤ 4 ∧ Nat.gcd 2 4 ≠ 1 := by decide

theorem witness_rsa_validity : 2 < 131 ∧ 2 < 137 ∧ 131 < 256 ^ 1 ∧ 137 < 256 ^ 1 ∧ ∃ r, rsaParts 131 137 = .ok r :=
  ⟨by decide, by decide, by decide, by decide, ⟨_, rfl⟩⟩

theorem witness_ec_validity : 1 < ecN ∧ mulPoint 1 ecG = .affine ecGx ecGy := by decide +kernel

/-- A search under way: PSRCH before its first oracle test on the base `12 34`. -/
def searching : State := running .psrch .loop { State.reset with
  derived := { Derived.invalid with pbase := some [0x12, 0x34], cand := some 37429 } }

/-- For the invariants: the state `searching` meets them all, under the platform's configuration, and has a next step. -/
theorem witness_invariants : StorageInv Config.platform searching ∧ LifecycleInv searching ∧
    RegisterInv Config.platform searching ∧ OutInv searching ∧ ∃ t, step searching = .next t := by
  refine ⟨⟨rfl, fun _ h => absurd rfl h, fun b => by cases b <;> exact Nat.zero_le _⟩,
    ⟨by decide, by decide, by decide, by decide, by decide,
      fun _ => .inl ⟨.psrch, by decide, by decide, by decide, rfl, rfl, rfl⟩, rfl, fun _ _ => rfl⟩, ?_, trivial, ⟨_, rfl⟩⟩
  constructor
  case cand =>
    intro v hv
    exact ⟨rfl, by decide, .p, rfl, [0x12, 0x34], rfl, by cases hv; decide, fun j h => absurd h (Nat.not_lt_zero j),
      fun h => absurd h (by decide), fun h => by cases hv; exact absurd h (by decide)⟩
  case pbase => intro b hb; cases hb; decide
  all_goals (intro x hx; cases hx)

end Sys2Proof.Tests
end

namespace Sys2Proof.Machine

/-! ## The decoder -/

theorem opcodeMap_rows : ∀ r ∈ opcodeMap, r.mask = BitVec.allOnes 32 ∧ r.pattern = encode r.instr := by decide

theorem decode_encode (i : Instr) : decode (encode i) = some i := by cases i <;> rfl

/-- The decoder knows one word of each command, its encoding, and no other word (R101, R103). -/
theorem decode_eq_some_iff {w : Word} {i : Instr} : decode w = some i ↔ w = encode i := by
  refine ⟨fun h => ?_, fun h => h ▸ decode_encode i⟩
  obtain ⟨r, hr, rfl⟩ := Option.map_eq_some_iff.mp h
  obtain ⟨hmask, hpattern⟩ := opcodeMap_rows r (List.mem_of_find?_eq_some hr)
  have hsel := List.find?_some hr
  rw [OpcodeRow.selects, hmask, hpattern, BitVec.and_allOnes] at hsel
  exact eq_of_beq hsel

theorem encode_injective : Function.Injective encode := fun i j h =>
  Option.some.inj (by rw [← decode_encode i, h, decode_encode])

theorem wordOfOpcode_injective : Function.Injective wordOfOpcode := fun _ _ h =>
  (BitVec.append_right_inj _).mp h

/-- The command a running engine's `SEQ.CUR` names is the one with that operation code (R36, R107). -/
theorem decode_wordOfOpcode_iff {b : Byte} {i : Instr} : decode (wordOfOpcode b) = some i ↔ b = opcode i := by
  rw [decode_eq_some_iff]
  exact wordOfOpcode_injective.eq_iff (b := opcode i)

theorem opcode_injective : Function.Injective opcode := fun _ _ h =>
  encode_injective (congrArg wordOfOpcode h)

end Sys2Proof.Machine

namespace Sys2Proof.Machine

/-! ## The lifecycle invariant under the shared operations -/

/-- The lifecycle speaks of `BUSY`, `DONE`, `FAULT`, `ERR`, the sequencer, the record and, while a command runs, the key
type alone. -/
theorem LifecycleInv.congr {s t : State} (h : LifecycleInv s) (hbusy : t.flags.busy = s.flags.busy)
    (hdone : t.flags.done = s.flags.done) (hfault : t.flags.fault = s.flags.fault) (hseq : t.seq = s.seq)
    (herr : t.err = s.err) (hout : t.out = s.out)
    (hin : s.flags.busy = true → t.input .ktype = s.input .ktype) : LifecycleInv t where
  busyAlone := by rw [hbusy, hdone, hfault]; exact h.busyAlone
  doneAlone := by rw [hdone, hfault]; exact h.doneAlone
  errClear := by rw [hfault, herr]; exact h.errClear
  errSet := by rw [hfault, herr]; exact h.errSet
  idle := by rw [hbusy, hseq]; exact h.idle
  running hb := by
    rw [hbusy] at hb
    have hr := h.running hb
    unfold RunningSeq at hr ⊢
    rwa [hseq, hin hb]
  digests := by rw [hseq]; exact h.digests
  resultDone := by rw [hbusy, hdone, hout]; exact h.resultDone

theorem cause_code_ne_zero (f : Cause) : f.err.code ≠ 0x00 := by cases f <;> simp [Cause.err]

/-- Fault entry makes the fault state whole, whatever was there before (R240). -/
theorem lifecycleInv_raise (f : Cause) (s : State) : LifecycleInv (raise f s) where
  busyAlone h := by cases h
  doneAlone h := by cases h
  errClear h := by cases h
  errSet _ := cause_code_ne_zero f
  idle _ := rfl
  running h := by cases h
  digests := rfl
  resultDone _ _ := rfl

/-- A running command completes into an idle engine with `DONE = 1` (R221). -/
theorem lifecycleInv_complete {s : State} (h : LifecycleInv s) (hb : s.flags.busy = true) :
    LifecycleInv (complete s) where
  busyAlone h := by cases h
  doneAlone _ := (h.busyAlone hb).2
  errClear := h.errClear
  errSet := h.errSet
  idle _ := rfl
  running h := by cases h
  digests := rfl
  resultDone _ h := by cases h

/-- CLR's discarding leaves no flag of the lifecycle but `BUSY`, so all that is left to see to is a running command's place
(R215, R220). -/
theorem lifecycleInv_clearDerivedState {s : State} (h : s.flags.busy = true → RunningSeq (clearDerivedState s)) :
    LifecycleInv (clearDerivedState s) where
  busyAlone _ := ⟨rfl, rfl⟩
  doneAlone _ := rfl
  errClear _ := rfl
  errSet h := by cases h
  idle _ := rfl
  running := h
  digests := rfl
  resultDone _ _ := rfl

/-- GEN's microsequence moves to a place of its key type's sequence, or just past it (R217). -/
theorem lifecycleInv_setPc {s : State} {k : Kind} {pc : BitVec 4} {t : Bytes} (h : LifecycleInv s)
    (hb : s.flags.busy = true) (hcur : s.seq.cur = opcode .gen) (ht : s.input .ktype = some t)
    (hk : matchKeyType t = some k) (h0 : pc ≠ 0) (hlen : pc.toNat ≤ (microsequence k).length + 1) :
    LifecycleInv (setPc k pc s) where
  busyAlone := h.busyAlone
  doneAlone := h.doneAlone
  errClear := h.errClear
  errSet := h.errSet
  idle hi := by rw [setPc_flags, hb] at hi; cases hi
  running _ := .inr (.inr ⟨hcur, h0, t, k, ht, hk, hlen, rfl⟩)
  digests := h.digests
  resultDone := h.resultDone

theorem lifecycleInv_dropWrite {s : State} (h : LifecycleInv s) : LifecycleInv (dropWrite s) :=
  h.congr rfl rfl rfl rfl rfl rfl fun _ => rfl

theorem lifecycleInv_hostRead (c : Config) (off : Nat) {s : State} (h : LifecycleInv s) :
    LifecycleInv (hostRead c off s) := by
  rw [hostRead_eq]
  exact h.congr rfl rfl rfl rfl rfl rfl fun _ => rfl

theorem lifecycleInv_writeLength (c : Config) (b : Buf) (v : Word) {s : State} (h : LifecycleInv s)
    (hb : s.flags.busy = false) : LifecycleInv (writeLength c b v s) := by
  unfold writeLength
  split
  · exact h.congr (by simp) (by simp) (by simp) (by simp) (by simp) (by simp) fun hb' => by simp [hb] at hb'
  · exact lifecycleInv_dropWrite h

theorem lifecycleInv_resetEvent (s : State) : LifecycleInv (resetEvent s) where
  busyAlone h := by cases h
  doneAlone h := by cases h
  errClear _ := rfl
  errSet h := by cases h
  idle _ := rfl
  running h := by cases h
  digests := rfl
  resultDone _ _ := rfl

/-! ## The lifecycle invariant under an element's step -/

/-- Within an element a running command keeps its place in the sequencer. GEN before its first element is the exception:
its phase is fixed there. -/
theorem RunningSeq.of_engineKeeps {s u : State} (h : RunningSeq s)
    (hg : s.seq.cur = opcode .gen → s.seq.gidx ≠ 0) (hk : EngineKeeps s u) : RunningSeq u := by
  obtain ⟨i, hclr, hwipe, hgen, hcur, hsub, hgidx⟩ | ⟨hcur, hgidx, -, -⟩ | hplace := h
  · exact .inl ⟨i, hclr, hwipe, hgen, hk.cur.trans hcur, hk.sub.trans hsub, hk.gidx.trans hgidx⟩
  · exact absurd hgidx (hg hcur)
  · right; right
    rwa [hk.cur, hk.gidx, hk.sub, hk.input]

theorem lifecycleInv_of_engineKeeps {s u : State} (h : LifecycleInv s) (hb : s.flags.busy = true)
    (hg : s.seq.cur = opcode .gen → s.seq.gidx ≠ 0) (hk : EngineKeeps s u) : LifecycleInv u where
  busyAlone := by rw [hk.busy, hk.done, hk.fault]; exact h.busyAlone
  doneAlone := by rw [hk.done, hk.fault]; exact h.doneAlone
  errClear := by rw [hk.fault, hk.err]; exact h.errClear
  errSet := by rw [hk.fault, hk.err]; exact h.errSet
  idle hi := by rw [hk.busy, hb] at hi; cases hi
  running _ := (h.running hb).of_engineKeeps hg hk
  digests := hk.digests h.digests
  resultDone hi := by rw [hk.busy, hb] at hi; cases hi

/-- An element's step keeps the lifecycle when what stands at the element's end does. -/
theorem lifecycleInv_elementBody (c : Config) (e : Element) {fin : State → State} {s : State} (h : LifecycleInv s)
    (hb : s.flags.busy = true) (hg : s.seq.cur = opcode .gen → s.seq.gidx ≠ 0)
    (hfin : ∀ u, EngineKeeps s u → LifecycleInv u → LifecycleInv (fin u)) :
    LifecycleInv (elementBody c e fin s) := by
  obtain ⟨u, hk, hu | ⟨f, hu⟩ | hu⟩ := elementBody_stepsTo c e fin s <;> rw [hu]
  · exact lifecycleInv_of_engineKeeps h hb hg hk
  · exact lifecycleInv_raise f u
  · exact hfin u hk (lifecycleInv_of_engineKeeps h hb hg hk)

/-! ## The lifecycle invariant under a command's step -/

/-- CLR and WIPE run no element, GEN a sequence of them, and every other command one. -/
theorem Instr.element_cases (i : Instr) :
    i = .clr ∨ i = .wipe ∨ i ≠ .clr ∧ i ≠ .wipe ∧ (i = .gen ∨ ∃ e, Instr.element i = some e) := by
  cases i <;> simp [Instr.element]

theorem elementAt_bounds {k : Kind} {pc : BitVec 4} {e : Element} (h : elementAt k pc = some e) :
    pc ≠ 0 ∧ pc.toNat ≤ (microsequence k).length := by
  unfold elementAt at h
  split at h
  · cases h
  · next h0 =>
    obtain ⟨hlt, -⟩ := List.getElem?_eq_some_iff.mp h
    exact ⟨h0, by omega⟩

theorem microsequence_length_le (k : Kind) : (microsequence k).length ≤ 8 := by cases k <;> decide

theorem lifecycleInv_genBody (c : Config) {s : State} (h : LifecycleInv s) (hb : s.flags.busy = true)
    (hcur : s.seq.cur = opcode .gen) : LifecycleInv (genBody c s) := by
  unfold genBody
  split
  · next h0 =>
    have hsub : s.seq.sub = opcode .gen := by
      obtain ⟨i, -, -, hgen, hi, -⟩ | ⟨-, -, hsub, -⟩ | ⟨-, hne, -⟩ := h.running hb
      · exact absurd (opcode_injective (hi.symm.trans hcur)) hgen
      · exact hsub
      · exact absurd h0 hne
    have hstart : LifecycleInv (clearDerivedState s) :=
      lifecycleInv_clearDerivedState fun _ => .inr (.inl ⟨hcur, rfl, hsub, rfl⟩)
    obtain ⟨f, hf⟩ | ⟨t, k, ht, hk, hpc⟩ := genChecks_cases c (clearDerivedState s)
    · rw [hf]; exact lifecycleInv_raise f _
    · rw [hpc]
      exact lifecycleInv_setPc hstart hb hcur ht hk (by decide) (Nat.le_add_left _ _)
  · next h0 =>
    obtain ⟨f, hf⟩ | ⟨t, k, ht, hk, ⟨-, hend⟩ | ⟨e, he, hbody⟩⟩ := genElement_cases c s
    · rw [hf]; exact lifecycleInv_raise f s
    · rw [hend]; exact lifecycleInv_complete h hb
    · rw [hbody]
      refine lifecycleInv_elementBody c e h hb (fun _ => h0) fun u hu hinv => ?_
      obtain ⟨-, hle⟩ := elementAt_bounds he
      have hlen := microsequence_length_le k
      have hnext : (u.seq.gidx + 1).toNat = s.seq.gidx.toNat + 1 := by
        rw [hu.gidx, BitVec.toNat_add_of_lt (by simp; omega)]; rfl
      refine lifecycleInv_setPc hinv (hu.busy.trans hb) (hu.cur.trans hcur) ((hu.input .ktype).trans ht) hk ?_ ?_
      · intro hz; rw [hz] at hnext; simp at hnext
      · rw [hnext]; exact Nat.succ_le_succ hle

theorem lifecycleInv_accept {i : Instr} (hclr : i ≠ .clr) (hwipe : i ≠ .wipe) {s : State} (h : LifecycleInv s) :
    LifecycleInv (accept i s) := by
  cases hf : s.flags.fault
  case true => rw [accept_fault i s hf]; exact lifecycleInv_dropWrite h
  case false =>
    rw [accept_ready i s hf]
    have hrun : RunningSeq { s with
        flags := { s.flags with busy := true, done := false }
        seq := { s.seq with cur := opcode i, sub := opcode i, gidx := 0, phase := .operands } } := by
      by_cases hgen : i = .gen
      · exact .inr (.inl ⟨congrArg opcode hgen, rfl, congrArg opcode hgen, rfl⟩)
      · exact .inl ⟨i, hclr, hwipe, hgen, rfl, rfl, rfl⟩
    exact
      { busyAlone := fun _ => ⟨rfl, hf⟩
        doneAlone := fun hd => Bool.noConfusion hd
        errClear := h.errClear
        errSet := h.errSet
        idle := fun hi => Bool.noConfusion hi
        running := fun _ => hrun
        digests := h.digests
        resultDone := fun hi => Bool.noConfusion hi }

theorem lifecycleInv_clr {s : State} (h : LifecycleInv s) : LifecycleInv (clr s) := by
  unfold clr
  split
  · exact lifecycleInv_dropWrite h
  · next hb => exact lifecycleInv_clearDerivedState fun hb' => absurd hb' hb

theorem lifecycleInv_wipe {s : State} (h : LifecycleInv s) : LifecycleInv (wipe s) := by
  unfold wipe
  split
  · exact lifecycleInv_dropWrite h
  · next hb =>
    have hclear : LifecycleInv (clearDerivedState { latchCommand .wipe s with
        seq := { (latchCommand .wipe s).seq with sub := 0x00 } }) :=
      lifecycleInv_clearDerivedState fun hb' => absurd hb' hb
    exact hclear.congr rfl rfl rfl rfl rfl rfl fun hb' => absurd hb' hb

/-- A command's step keeps the lifecycle at an idle engine, and while that command runs. -/
theorem lifecycleInv_commandStep (c : Config) (i : Instr) {s : State} (h : LifecycleInv s)
    (hrun : s.flags.busy = true → s.seq.cur = opcode i) : LifecycleInv (commandStep c i s) := by
  obtain rfl | rfl | ⟨hclr, hwipe, hi⟩ := Instr.element_cases i
  · exact lifecycleInv_clr h
  · exact lifecycleInv_wipe h
  cases hb : s.flags.busy
  case false =>
    rw [commandStep_idle c i s hclr hwipe hb]
    exact lifecycleInv_accept hclr hwipe h
  case true =>
    obtain rfl | ⟨e, he⟩ := hi
    · rw [commandStep_gen_busy c s hb]
      exact lifecycleInv_genBody c h hb (hrun hb)
    · rw [commandStep_busy c i e s he hb]
      have hgen : s.seq.cur ≠ opcode .gen := by
        rw [hrun hb]
        intro hi
        rw [opcode_injective hi] at he
        cases he
      exact lifecycleInv_elementBody c e h hb (fun hc => absurd hc hgen) fun u hu hinv =>
        lifecycleInv_complete hinv (hu.busy.trans hb)

theorem lifecycleInv_moves {c : Config} {u t : State} (h : LifecycleInv u) (hm : Moves c u t) : LifecycleInv t := by
  cases hm with
  | idle _ ht => rw [ht]; exact h
  | engine i _ hi ht =>
    rw [ht]; exact lifecycleInv_commandStep c i h fun _ => decode_wordOfOpcode_iff.mp hi
  | read off ht => rw [ht]; exact lifecycleInv_hostRead c off h
  | drop ht => rw [ht]; exact lifecycleInv_dropWrite h
  | keySize v _ ht => rw [ht]; exact h.congr rfl rfl rfl rfl rfl rfl fun _ => rfl
  | length b v hb ht => rw [ht]; exact lifecycleInv_writeLength c b v h hb
  | bytes b off v hb _ ht =>
    rw [ht]; exact h.congr rfl rfl rfl rfl rfl rfl fun hb' => by rw [hb] at hb'; cases hb'
  | illegal w _ _ _ ht => rw [ht]; exact lifecycleInv_raise _ _
  | command w i hb _ _ ht =>
    rw [ht]; exact lifecycleInv_commandStep c i h fun hb' => by rw [hb] at hb'; cases hb'
  | reset ht => rw [ht]; exact lifecycleInv_resetEvent u

/-- Settles O58: every way a step's next state comes about keeps the lifecycle. -/
theorem lifecycleKept : Obligations.LifecycleKept := by
  intro s t h hst
  obtain ⟨p, hm⟩ := step_moves s t hst
  have hp : LifecycleInv { s with host := p } := h.congr rfl rfl rfl rfl rfl rfl fun _ => rfl
  exact lifecycleInv_moves hp hm

end Sys2Proof.Machine

namespace Sys2Proof.Machine

/-! ## The modular inverse -/

theorem modInverse_eq_euclid {a m : Nat} (hm : 2 ≤ m) : modInverse a m =
    if (euclid m (m + 1) m (a % m) 0 1).1 = 1 then some (euclid m (m + 1) m (a % m) 0 1).2 else none := by
  rw [modInverse, if_neg (by omega)]

/-- What Euclid's algorithm answers to `modInverse`: the greatest common divisor, and its coefficient of `a`. -/
theorem euclid_modInverse (a : Nat) {m : Nat} (hm : 2 ≤ m) :
    (euclid m (m + 1) m (a % m) 0 1).1 = Nat.gcd a m ∧
      a * (euclid m (m + 1) m (a % m) 0 1).2 ≡ Nat.gcd a m [MOD m] ∧ (euclid m (m + 1) m (a % m) 0 1).2 < m := by
  have hgcd : Nat.gcd m (a % m) = Nat.gcd a m := by rw [Nat.gcd_comm, ← Nat.gcd_rec, Nat.gcd_comm]
  have hlt : a % m < m + 1 := (Nat.mod_lt a (by omega)).trans (Nat.lt_succ_self m)
  rw [← hgcd]
  exact euclid_spec m a (by omega) (m + 1) m (a % m) 0 1 hlt (by simp [Nat.ModEq]) (by simp [Nat.ModEq]) (by omega)
    (by omega)

theorem modInverse_eq_none {a m : Nat} (hm : 2 ≤ m) (h : Nat.gcd a m ≠ 1) : modInverse a m = none := by
  obtain ⟨hg, -, -⟩ := euclid_modInverse a hm
  rw [modInverse_eq_euclid hm, hg, if_neg h]

theorem modInverse_eq_some {a m : Nat} (hm : 2 ≤ m) (h : Nat.gcd a m = 1) :
    ∃ x, modInverse a m = some x ∧ x < m ∧ a * x % m = 1 := by
  obtain ⟨hg, hmul, hlt⟩ := euclid_modInverse a hm
  rw [h] at hmul
  exact ⟨_, by rw [modInverse_eq_euclid hm, hg, if_pos h], hlt, Eq.trans hmul (Nat.mod_eq_of_lt hm)⟩

/-- Two inverses of one number below the modulus are the same. -/
theorem inverse_unique {a m x y : Nat} (hgcd : Nat.gcd a m = 1) (hx : x < m) (hy : y < m) (hax : a * x % m = 1)
    (hay : a * y % m = 1) : y = x := by
  have hxy : y ≡ x [MOD m] :=
    Nat.ModEq.cancel_left_of_coprime (by rwa [Nat.gcd_comm]) (hay.trans hax.symm)
  exact hxy.eq_of_lt_of_lt hy hx

/-- Settles O53, from what Euclid's algorithm answers. -/
theorem modularInverse : Obligations.ModularInverse := by
  intro a m hm
  refine ⟨modInverse_eq_none hm, fun hgcd => ?_⟩
  obtain ⟨x, hx, hlt, hmul⟩ := modInverse_eq_some hm hgcd
  exact ⟨x, hx, hlt, hmul, fun y hy hay => inverse_unique hgcd hlt hy hmul hay⟩

/-! ## A step and the command it runs -/

/-- A command word the host writes at an idle engine is run, in the fault state that of CLR and WIPE alone (R107). -/
theorem step_writeCommand {s : State} {w : Word} {i : Instr} (hb : s.flags.busy = false)
    (hf : s.flags.fault = false ∨ i = .clr ∨ i = .wipe) (hw : decode w = some i) :
    step (s.withMove (.write 0x0000 w)) = exec i s := by
  have hjudged : ¬ (s.flags.fault = true ∧ leavesFault w = false) := by
    rintro ⟨hfault, hl⟩
    rw [decode_eq_some_iff.mp hw] at hl
    obtain hf | rfl | rfl := hf
    · rw [hf] at hfault; cases hfault
    · exact absurd hl (by decide)
    · exact absurd hl (by decide)
  have hloc : locate Config.platform 0x0000 = .cmd := rfl
  rw [step_write s w (by decide) (by decide), hostWrite, if_neg (by simp [hb]), hloc]
  simp only [writeCommand, if_neg hjudged, hw]

theorem withFetchWord_eq (s : State) (w : Word) : s.withFetchWord 32 w.toNat = s.withMove (.write 0x0000 w) := by
  rw [State.withFetchWord, Nat.mod_eq_of_lt w.isLt, BitVec.ofNat_toNat, BitVec.setWidth_eq]

/-- A running engine's turn is a step of the command `SEQ.CUR` names (R221). -/
theorem engineTurn_busy (run : Instr → State → Host.Outcome State Fault Refusal) {s : State} {i : Instr}
    (hb : s.flags.busy = true) (hcur : s.seq.cur = opcode i) : engineTurn run s = run i s := by
  simp only [engineTurn, hb, if_true, decode_wordOfOpcode_iff.mpr hcur]

theorem engineTurn_idle (run : Instr → State → Host.Outcome State Fault Refusal) {s : State}
    (hb : s.flags.busy = false) : engineTurn run s = .next s := by
  simp [engineTurn, hb]

/-- With no host move left a step is the engine's turn. -/
theorem step_noMove {s : State} (h : s.host.script = []) : step s = engineTurn exec s := by
  simp only [step, machineStep, h]

theorem step_yield (s : State) : step (s.withMove .yield) = engineTurn exec s := rfl

theorem step_wait_busy {s : State} (hb : s.flags.busy = true) :
    step (s.withMove .wait) = engineTurn exec (s.withMove .wait) := by
  simp only [step_withMove, hostMove, hb, if_true]

theorem step_wait_idle {s : State} (hb : s.flags.busy = false) :
    step (s.withMove .wait) = step (s.withMove (.read 0x0004)) := by
  rw [step_read s (by decide) (by decide)]
  simp [step_withMove, hostMove, hb]

/-- Settles O5: the step of each kind of move, then the engine's turn. -/
theorem stepRunsDecodedInstruction : Obligations.StepRunsDecodedInstruction := by
  refine ⟨fun s w i hb hf hw => ?_, fun s i hb hcur => ?_, fun s hb => ?_, exec_eq_commandStep⟩
  · have hrun := step_writeCommand hb hf hw
    exact ⟨hrun, by rw [withFetchWord_eq, hrun]⟩
  · exact ⟨fun h => (step_noMove h).trans (engineTurn_busy exec hb hcur),
      (step_yield s).trans (engineTurn_busy exec hb hcur),
      (step_wait_busy hb).trans (engineTurn_busy exec (s := s.withMove .wait) hb hcur)⟩
  · exact ⟨fun h => (step_noMove h).trans (engineTurn_idle exec hb), (step_yield s).trans (engineTurn_idle exec hb),
      step_wait_idle hb⟩

end Sys2Proof.Machine

namespace Sys2Proof.Machine

/-! ## States no command can tell apart -/

/-- Agreement in all a command's step reads: the values of the inputs, the derived registers, the record, the sequencer,
`ERR` and the flags `BUSY`, `DONE`, `FAULT` and `OVF`. The inputs' storage, the counters, `DROP`, `RDERR` and the host's
port may differ (R14, R38, R246). -/
structure Alike (s t : State) : Prop where
  input : ∀ b : Buf, s.input b = t.input b
  keySize : s.keySize = t.keySize
  derived : s.derived = t.derived
  out : s.out = t.out
  seq : s.seq = t.seq
  err : s.err = t.err
  busy : s.flags.busy = t.flags.busy
  done : s.flags.done = t.flags.done
  fault : s.flags.fault = t.flags.fault
  ovf : s.flags.ovf = t.flags.ovf

/-- What stands at the end of an element takes states that are alike to states that are alike. -/
def KeepsAlike (fin : State → State) : Prop := ∀ s t, Alike s t → Alike (fin s) (fin t)

section

variable {s t : State}

theorem Alike.phase (h : Alike s t) : s.seq.phase = t.seq.phase := congrArg Seq.phase h.seq

theorem Alike.gidx (h : Alike s t) : s.seq.gidx = t.seq.gidx := congrArg Seq.gidx h.seq

/-! ### Alike under the updates of the state -/

theorem alike_derived (h : Alike s t) (f : Derived → Derived) :
    Alike { s with derived := f s.derived } { t with derived := f t.derived } :=
  { h with derived := congrArg f h.derived }

theorem alike_seq (h : Alike s t) (f : Seq → Seq) : Alike { s with seq := f s.seq } { t with seq := f t.seq } :=
  { h with seq := congrArg f h.seq }

theorem alike_out (h : Alike s t) (o : Out) : Alike { s with out := o } { t with out := o } :=
  { h with out := rfl }

theorem alike_counters (h : Alike s t) (j k : Counters) : Alike { s with counters := j } { t with counters := k } :=
  { h with }

theorem alike_raise (h : Alike s t) (f : Cause) : Alike (raise f s) (raise f t) :=
  { h with
    derived := rfl, out := rfl, seq := congrArg Seq.cleared h.seq, err := rfl, busy := rfl, done := rfl, fault := rfl }

theorem alike_clearDerivedState (h : Alike s t) : Alike (clearDerivedState s) (clearDerivedState t) :=
  { h with
    derived := rfl, out := rfl, seq := congrArg Seq.cleared h.seq, err := rfl, done := rfl, fault := rfl, ovf := rfl }

theorem alike_clearInputs (h : Alike s t) : Alike (clearInputs s) (clearInputs t) :=
  { h with input := fun b => by cases b <;> rfl, keySize := rfl }

theorem alike_dropWrite (h : Alike s t) : Alike (dropWrite s) (dropWrite t) := { h with }

theorem alike_latchCommand (h : Alike s t) (i : Instr) : Alike (latchCommand i s) (latchCommand i t) :=
  { h with
    seq := congrArg (fun q => { q with cur := opcode i, sub := opcode i, gidx := 0, phase := .operands }) h.seq
    done := rfl }

theorem alike_complete (h : Alike s t) : Alike (complete s) (complete t) :=
  { h with seq := congrArg (fun q => { q.cleared with sub := q.cur }) h.seq, busy := rfl, done := rfl }

theorem alike_setPc (h : Alike s t) (k : Kind) (pc : BitVec 4) : Alike (setPc k pc s) (setPc k pc t) :=
  alike_seq h fun q => { q with
    gidx := pc, sub := ((elementAt k pc).map Element.sub).getD (opcode .gen), phase := .operands }

theorem alike_advancePc (h : Alike s t) (k : Kind) : Alike (advancePc k s) (advancePc k t) := by
  unfold advancePc
  rw [h.gidx]
  exact alike_setPc h k _

theorem alike_enterDerive (h : Alike s t) (msg : Bytes) : Alike (enterDerive msg s) (enterDerive msg t) :=
  alike_seq h fun q => { q with rnd := 0, chain := msg, acc := [], phase := .loop }

theorem alike_countRound (h : Alike s t) (c : Config) : Alike (countRound c s) (countRound c t) := by
  unfold countRound
  split
  · exact alike_counters h _ _
  · exact h

theorem alike_hmacRound (h : Alike s t) (c : Config) (key : Bytes) : Alike (hmacRound c key s) (hmacRound c key t) :=
  alike_countRound (alike_seq h fun q => { q with
    acc := q.acc ++ (c.hmac key q.chain).toList, chain := (c.hmac key q.chain).toList, rnd := q.rnd + 1 }) c

theorem alike_noteOverflow (h : Alike s t) (v : Nat) (b : Bytes) :
    Alike (noteOverflow v b s) (noteOverflow v b t) := by
  rw [noteOverflow_eq, noteOverflow_eq]
  exact { h with ovf := by simp only [h.ovf] }

theorem alike_enterSearch (h : Alike s t) (w : Which) (b : Bytes) : Alike (enterSearch w b s) (enterSearch w b t) :=
  alike_counters (alike_seq (alike_derived h fun d => { d with cand := some (cand0 b) }) fun q =>
    { q with tests := 0, phase := .loop }) _ _

theorem alike_storeResult (h : Alike s t) (w : Which) (v : Nat) (b : Bytes) :
    Alike (storeResult w v b s) (storeResult w v b t) :=
  alike_noteOverflow (alike_derived h fun d => { w.storePrime v d with cand := none }) v b

/-! ### Alike under the parts of an element -/

theorem alike_need {α : Type} (h : Alike s t) (r : Reg) {v w : Option α} (hv : v = w) {f g : α → State}
    (hfg : ∀ x, Alike (f x) (g x)) : Alike (need r v s f) (need r w t g) := by
  subst hv
  cases v with
  | none => exact alike_raise h _
  | some x => exact hfg x

theorem alike_deriveLoop (h : Alike s t) (c : Config) (key : Bytes) (l : Nat) {f g : Bytes → State}
    (hfg : ∀ b, Alike (f b) (g b)) : Alike (deriveLoop c key l f s) (deriveLoop c key l g t) := by
  unfold deriveLoop
  rw [congrArg Seq.acc h.seq]
  split
  · exact alike_hmacRound h c key
  · exact hfg _

theorem alike_rejectCandidate (h : Alike s t) (c : Config) (w : Which) (v : Nat) (b : Bytes) :
    Alike (rejectCandidate c w v b s) (rejectCandidate c w v b t) := by
  have hcount := alike_counters (alike_seq h fun q => { q with tests := q.tests + 1 })
    (if c.hasCounters then w.bumpCounter s.counters else s.counters)
    (if c.hasCounters then w.bumpCounter t.counters else t.counters)
  have hcap : capReached c (s.seq.tests + 1) = capReached c (t.seq.tests + 1) := by rw [h.seq]
  unfold rejectCandidate
  dsimp only
  rw [hcap]
  split
  · exact alike_raise hcount _
  · exact alike_noteOverflow (alike_derived hcount fun d => { d with cand := some (v + 2) }) _ b

theorem alike_testCandidate (h : Alike s t) (c : Config) (w : Which) (v : Nat) (b : Bytes) :
    Alike (testCandidate c w v b s) (testCandidate c w v b t) := by
  unfold testCandidate
  split
  · exact alike_seq h fun q => { q with phase := .commit }
  · exact alike_rejectCandidate h c w v b

/-! ### Alike under the elements -/

variable {fin : State → State}

theorem alike_mkeyBody (h : Alike s t) (hfin : KeepsAlike fin) (c : Config) :
    Alike (mkeyBody c fin s) (mkeyBody c fin t) := by
  refine alike_need h _ (h.input .seed) fun seed => alike_need h _ (h.input .did) fun did => ?_
  rw [h.phase]
  cases t.seq.phase
  case operands => exact alike_enterDerive h _
  all_goals
    exact alike_deriveLoop h c seed 64 fun b => hfin _ _ (alike_derived h fun d => { d with mk := some b })

theorem alike_psecBody (h : Alike s t) (hfin : KeepsAlike fin) (c : Config) :
    Alike (psecBody c fin s) (psecBody c fin t) := by
  refine alike_need h _ (h.input .peer) fun peer => alike_need h _ (congrArg Derived.mk h.derived) fun mk => ?_
  rw [h.phase]
  cases t.seq.phase
  case operands => exact alike_enterDerive h _
  all_goals
    exact alike_deriveLoop h c mk 64 fun b => hfin _ _ (alike_derived h fun d => { d with ps := some b })

theorem alike_pgenBody (h : Alike s t) (hfin : KeepsAlike fin) (c : Config) :
    Alike (pgenBody c fin s) (pgenBody c fin t) := by
  refine alike_need h _ (h.input .peer) fun peer => alike_need h _ (congrArg Derived.mk h.derived) fun mk => ?_
  rw [h.phase]
  cases t.seq.phase
  case operands =>
    dsimp only
    rw [congrArg BitVec.toNat h.keySize]
    split
    · exact alike_enterDerive (alike_derived h fun d => { d with lb := some (t.keySize.toNat / 16) }) _
    · exact alike_raise h _
  all_goals
    exact alike_need h _ (congrArg Derived.lb h.derived) fun l =>
      alike_deriveLoop h c mk l fun b => hfin _ _ (alike_derived h fun d => { d with pbase := some b })

theorem alike_qgenBody (h : Alike s t) (hfin : KeepsAlike fin) (c : Config) :
    Alike (qgenBody c fin s) (qgenBody c fin t) := by
  refine alike_need h _ (h.input .peer) fun peer => alike_need h _ (congrArg Derived.pbase h.derived) fun pbase =>
    alike_need h _ (congrArg Derived.lb h.derived) fun l => ?_
  rw [h.phase]
  cases t.seq.phase
  case operands => exact alike_enterDerive h _
  all_goals
    exact alike_deriveLoop h c pbase l fun b => hfin _ _ (alike_derived h fun d => { d with qbase := some b })

theorem alike_searchBody (h : Alike s t) (hfin : KeepsAlike fin) (c : Config) (w : Which) :
    Alike (searchBody c w fin s) (searchBody c w fin t) := by
  refine alike_need h _ (congrArg w.base h.derived) fun b => ?_
  rw [h.phase]
  cases t.seq.phase
  case operands => exact alike_enterSearch h w b
  case loop => exact alike_need h _ (congrArg Derived.cand h.derived) fun v => alike_testCandidate h c w v b
  case commit =>
    exact alike_need h _ (congrArg Derived.cand h.derived) fun v => hfin _ _ (alike_storeResult h w v b)

theorem alike_rsaasmBody (h : Alike s t) (hfin : KeepsAlike fin) : Alike (rsaasmBody fin s) (rsaasmBody fin t) := by
  refine alike_need h _ (congrArg Derived.p h.derived) fun p =>
    alike_need h _ (congrArg Derived.q h.derived) fun q => ?_
  cases rsaParts p q with
  | error f => exact alike_raise h f
  | ok r =>
    exact hfin _ _ (alike_derived h fun d => { d with
      nmod := some r.n, dexp := some r.d, dp := some r.dp, dq := some r.dq, qi := some r.qi })

theorem alike_rsaexpBody (h : Alike s t) (hfin : KeepsAlike fin) : Alike (rsaexpBody fin s) (rsaexpBody fin t) := by
  refine alike_need h _ (congrArg Derived.p h.derived) fun p =>
    alike_need h _ (congrArg Derived.q h.derived) fun q =>
    alike_need h _ (congrArg Derived.nmod h.derived) fun n =>
    alike_need h _ (congrArg Derived.dexp h.derived) fun d =>
    alike_need h _ (congrArg Derived.dp h.derived) fun dp =>
    alike_need h _ (congrArg Derived.dq h.derived) fun dq =>
    alike_need h _ (congrArg Derived.qi h.derived) fun qi =>
    alike_need h _ (congrArg Derived.lb h.derived) fun l => ?_
  exact hfin _ _ (alike_out h _)

theorem alike_ecredBody (h : Alike s t) (hfin : KeepsAlike fin) : Alike (ecredBody fin s) (ecredBody fin t) :=
  alike_need h _ (congrArg Derived.ps h.derived) fun ps =>
    hfin _ _ (alike_derived h fun d => { d with ecd := some (be2int ps % ecN) })

theorem alike_ecmulBody (h : Alike s t) (hfin : KeepsAlike fin) : Alike (ecmulBody fin s) (ecmulBody fin t) := by
  refine alike_need h _ (congrArg Derived.ecd h.derived) fun d => ?_
  cases mulPoint d ecG with
  | infinity => exact alike_raise h _
  | affine x y => exact hfin _ _ (alike_derived h fun d => { d with qx := some x, qy := some y })

theorem alike_ecexpBody (h : Alike s t) (hfin : KeepsAlike fin) : Alike (ecexpBody fin s) (ecexpBody fin t) :=
  alike_need h _ (congrArg Derived.ecd h.derived) fun _ => alike_need h _ (congrArg Derived.qx h.derived) fun _ =>
    alike_need h _ (congrArg Derived.qy h.derived) fun _ => hfin _ _ (alike_out h _)

/-- An element does the same in states that are alike. -/
theorem alike_elementBody (h : Alike s t) (hfin : KeepsAlike fin) (c : Config) (e : Element) :
    Alike (elementBody c e fin s) (elementBody c e fin t) := by
  cases e with
  | mkey => exact alike_mkeyBody h hfin c
  | pgen => exact alike_pgenBody h hfin c
  | psrch => exact alike_searchBody h hfin c .p
  | qgen => exact alike_qgenBody h hfin c
  | qsrch => exact alike_searchBody h hfin c .q
  | rsaasm => exact alike_rsaasmBody h hfin
  | rsaexp => exact alike_rsaexpBody h hfin
  | psec => exact alike_psecBody h hfin c
  | ecred => exact alike_ecredBody h hfin
  | ecmul => exact alike_ecmulBody h hfin
  | ecexp => exact alike_ecexpBody h hfin
  | scrub => exact hfin _ _ (alike_derived h fun _ => Derived.invalid)

/-! ### Alike under the commands -/

theorem alike_genChecks (h : Alike s t) (c : Config) : Alike (genChecks c s) (genChecks c t) := by
  refine alike_need h _ (h.input .ktype) fun kt => ?_
  cases matchKeyType kt with
  | none => exact alike_raise h _
  | some k =>
    refine alike_need h _ (h.input .seed) fun _ => alike_need h _ (h.input .did) fun _ =>
      alike_need h _ (h.input .peer) fun _ => ?_
    rw [congrArg BitVec.toNat h.keySize]
    split
    · exact alike_raise h _
    · exact alike_setPc h k 1

theorem alike_genElement (h : Alike s t) (c : Config) : Alike (genElement c s) (genElement c t) := by
  refine alike_need h _ (h.input .ktype) fun kt => ?_
  cases matchKeyType kt with
  | none => exact alike_raise h _
  | some k =>
    dsimp only
    rw [h.gidx]
    cases elementAt k t.seq.gidx with
    | none => exact alike_complete h
    | some e => exact alike_elementBody h (fun _ _ hu => alike_advancePc hu k) c e

theorem alike_genBody (h : Alike s t) (c : Config) : Alike (genBody c s) (genBody c t) := by
  unfold genBody
  rw [h.gidx]
  split
  · exact alike_genChecks (alike_clearDerivedState h) c
  · exact alike_genElement h c

theorem alike_accept (h : Alike s t) (i : Instr) : Alike (accept i s) (accept i t) := by
  unfold accept
  rw [h.fault]
  split
  · exact alike_dropWrite h
  · exact { alike_latchCommand h i with busy := rfl }

theorem alike_clr (h : Alike s t) : Alike (clr s) (clr t) := by
  unfold clr
  rw [h.busy]
  split
  · exact alike_dropWrite h
  · exact alike_clearDerivedState (alike_latchCommand h .clr)

theorem alike_wipe (h : Alike s t) : Alike (wipe s) (wipe t) := by
  unfold wipe
  rw [h.busy]
  split
  · exact alike_dropWrite h
  · exact alike_seq (alike_clearInputs (alike_clearDerivedState (alike_latchCommand h .wipe))) fun q =>
      { q with sub := 0x00 }

/-- A command's step does the same in states that are alike. -/
theorem alike_commandStep (h : Alike s t) (c : Config) (i : Instr) :
    Alike (commandStep c i s) (commandStep c i t) := by
  obtain rfl | rfl | ⟨hclr, hwipe, hi⟩ := Instr.element_cases i
  · exact alike_clr h
  · exact alike_wipe h
  cases hb : t.flags.busy
  case false =>
    rw [commandStep_idle c i s hclr hwipe (h.busy.trans hb), commandStep_idle c i t hclr hwipe hb]
    exact alike_accept h i
  case true =>
    obtain rfl | ⟨e, he⟩ := hi
    · rw [commandStep_gen_busy c s (h.busy.trans hb), commandStep_gen_busy c t hb]
      exact alike_genBody h c
    · rw [commandStep_busy c i e s he (h.busy.trans hb), commandStep_busy c i e t he hb]
      exact alike_elementBody h (fun _ _ => alike_complete) c e

end

/-- Runs from states that are alike end together, in states that are alike. -/
theorem alike_engineRunWith {c : Config} {i : Instr} {s t s' : State} (h : Alike s t)
    (hr : EngineRunWith c i s s') : ∃ t', EngineRunWith c i t t' ∧ Alike s' t' := by
  induction hr generalizing t with
  | idle s hb => exact ⟨t, .idle t (h.busy.symm.trans hb), h⟩
  | turn s s' hb _ ih =>
    obtain ⟨t', hrun, ht'⟩ := ih (alike_commandStep h c i)
    exact ⟨t', .turn t t' (h.busy.symm.trans hb) hrun, ht'⟩

/-! ## What a command's step does to the inputs' storage -/

/-- The same cells, length registers and valid bits. -/
structure SameStorage (s t : State) : Prop where
  mem : t.mem = s.mem
  seed : t.seed = s.seed
  did : t.did = s.did
  peer : t.peer = s.peer
  ktype : t.ktype = s.ktype

theorem SameStorage.symm {s t : State} (h : SameStorage s t) : SameStorage t s :=
  ⟨h.mem.symm, h.seed.symm, h.did.symm, h.peer.symm, h.ktype.symm⟩

theorem SameStorage.trans {s t u : State} (h : SameStorage s t) (h' : SameStorage t u) : SameStorage s u :=
  ⟨h'.mem.trans h.mem, h'.seed.trans h.seed, h'.did.trans h.did, h'.peer.trans h.peer, h'.ktype.trans h.ktype⟩

theorem SameStorage.inputReg {s t : State} (h : SameStorage s t) (b : Buf) : t.inputReg b = s.inputReg b := by
  cases b with
  | seed => exact h.seed
  | did => exact h.did
  | peer => exact h.peer
  | ktype => exact h.ktype

theorem sameStorage_raise (f : Cause) (s : State) : SameStorage s (raise f s) := ⟨rfl, rfl, rfl, rfl, rfl⟩

theorem sameStorage_clearDerivedState (s : State) : SameStorage s (clearDerivedState s) := ⟨rfl, rfl, rfl, rfl, rfl⟩

theorem sameStorage_dropWrite (s : State) : SameStorage s (dropWrite s) := ⟨rfl, rfl, rfl, rfl, rfl⟩

theorem sameStorage_latchCommand (i : Instr) (s : State) : SameStorage s (latchCommand i s) :=
  ⟨rfl, rfl, rfl, rfl, rfl⟩

theorem sameStorage_complete (s : State) : SameStorage s (complete s) := ⟨rfl, rfl, rfl, rfl, rfl⟩

theorem sameStorage_setPc (k : Kind) (pc : BitVec 4) (s : State) : SameStorage s (setPc k pc s) :=
  ⟨rfl, rfl, rfl, rfl, rfl⟩

theorem sameStorage_elementBody (c : Config) (e : Element) {fin : State → State} (s : State)
    (hfin : ∀ u, SameStorage u (fin u)) : SameStorage s (elementBody c e fin s) := by
  obtain ⟨u, hk, hu⟩ := elementBody_stepsTo c e fin s
  have hsu : SameStorage s u := ⟨hk.mem, hk.seed, hk.did, hk.peer, hk.ktype⟩
  obtain hu | ⟨f, hu⟩ | hu := hu <;> rw [hu]
  · exact hsu
  · exact hsu.trans (sameStorage_raise f u)
  · exact hsu.trans (hfin u)

theorem sameStorage_genBody (c : Config) (s : State) : SameStorage s (genBody c s) := by
  unfold genBody
  split
  · refine (sameStorage_clearDerivedState s).trans ?_
    obtain ⟨f, hf⟩ | ⟨t, k, -, -, hpc⟩ := genChecks_cases c (clearDerivedState s)
    · rw [hf]; exact sameStorage_raise f _
    · rw [hpc]; exact sameStorage_setPc k 1 _
  · obtain ⟨f, hf⟩ | ⟨t, k, -, -, ⟨-, hend⟩ | ⟨e, -, hbody⟩⟩ := genElement_cases c s
    · rw [hf]; exact sameStorage_raise f s
    · rw [hend]; exact sameStorage_complete s
    · rw [hbody]; exact sameStorage_elementBody c e s fun u => sameStorage_setPc k _ u

theorem sameStorage_accept (i : Instr) (s : State) : SameStorage s (accept i s) := by
  unfold accept
  split
  · exact sameStorage_dropWrite s
  · exact ⟨rfl, rfl, rfl, rfl, rfl⟩

theorem sameStorage_clr (s : State) : SameStorage s (clr s) := by
  unfold clr
  split
  · exact sameStorage_dropWrite s
  · exact (sameStorage_latchCommand .clr s).trans (sameStorage_clearDerivedState _)

/-- No command but WIPE writes the inputs' storage (R31, R222). -/
theorem sameStorage_commandStep (c : Config) {i : Instr} (hwipe : i ≠ .wipe) (s : State) :
    SameStorage s (commandStep c i s) := by
  obtain rfl | rfl | ⟨hclr, -, hi⟩ := Instr.element_cases i
  · exact sameStorage_clr s
  · exact absurd rfl hwipe
  cases hb : s.flags.busy
  case false =>
    rw [commandStep_idle c i s hclr hwipe hb]
    exact sameStorage_accept i s
  case true =>
    obtain rfl | ⟨e, he⟩ := hi
    · rw [commandStep_gen_busy c s hb]
      exact sameStorage_genBody c s
    · rw [commandStep_busy c i e s he hb]
      exact sameStorage_elementBody c e s sameStorage_complete

theorem wipe_sameStorage {s t : State} (h : SameStorage s t) (hb : t.flags.busy = s.flags.busy) :
    SameStorage (wipe s) (wipe t) := by
  unfold wipe
  rw [hb]
  split
  · exact ((sameStorage_dropWrite s).symm.trans h).trans (sameStorage_dropWrite t)
  · exact ⟨rfl, rfl, rfl, rfl, rfl⟩

/-- A command leaves equal storage equal. -/
theorem commandStep_sameStorage {s t : State} (h : SameStorage s t) (hb : t.flags.busy = s.flags.busy) (c : Config)
    (i : Instr) : SameStorage (commandStep c i s) (commandStep c i t) := by
  by_cases hwipe : i = .wipe
  · subst hwipe; exact wipe_sameStorage h hb
  · exact ((sameStorage_commandStep c hwipe s).symm.trans h).trans (sameStorage_commandStep c hwipe t)

/-- Settles O25: the two states are alike and hold the same storage, and so do the states one step leads to. -/
theorem commandsIgnoreCountersAndHost : Obligations.CommandsIgnoreCountersAndHost := by
  intro c i s k drop rdErr h
  have halike : Alike { s with counters := k, flags := { s.flags with drop := drop, rdErr := rdErr }, host := h } s :=
    ⟨fun _ => rfl, rfl, rfl, rfl, rfl, rfl, rfl, rfl, rfl, rfl⟩
  have hstorage : SameStorage s { s with
      counters := k, flags := { s.flags with drop := drop, rdErr := rdErr }, host := h } :=
    ⟨rfl, rfl, rfl, rfl, rfl⟩
  have hstep := alike_commandStep halike c i
  have hkept := commandStep_sameStorage hstorage rfl c i
  exact ⟨hkept.mem, hkept.inputReg, hstep.keySize, hstep.derived, hstep.out, hstep.seq, hstep.err, hstep.busy,
    hstep.done, hstep.fault, hstep.ovf⟩

/-! ## GEN and the five inputs -/

/-- GEN's run from an idle engine goes on after its start, the first engine step. -/
theorem runsTo_gen {c : Config} {s t : State} (hs : Ready s) :
    RunsTo c .gen s t ↔ EngineRunWith c .gen (genBody c (accept .gen s)) t := by
  rw [accept_ready .gen s hs.2]
  exact runsTo_accepted (by decide) (by decide) hs

/-- That step is the clearing of CLR and the checks (R215). -/
theorem genBody_accept (c : Config) {s : State} (hs : Ready s) :
    genBody c (accept .gen s) = genChecks c (clearDerivedState (accept .gen s)) := by
  rw [accept_ready .gen s hs.2]
  exact if_pos rfl

/-- GEN's start leaves nothing of what came before: from idle engines with the same inputs it leads to states that are
alike (R14, R215). -/
theorem alike_genStart (c : Config) {s t : State} (hs : Ready s) (ht : Ready t) (hin : SameInputs s t) :
    Alike (genBody c (accept .gen s)) (genBody c (accept .gen t)) := by
  obtain ⟨hinput, hkeySize⟩ := hin
  have hclear : Alike (clearDerivedState (accept .gen s)) (clearDerivedState (accept .gen t)) := by
    rw [accept_ready .gen s hs.2, accept_ready .gen t ht.2]
    exact ⟨hinput, hkeySize, rfl, rfl, rfl, rfl, rfl, rfl, rfl, rfl⟩
  rw [genBody_accept c hs, genBody_accept c ht]
  exact alike_genChecks hclear c

/-- Settles O46: from GEN's first engine step on the two runs are alike. -/
theorem genPurity : Obligations.GenPurity := by
  intro c s t s' hs ht hin hrun
  obtain ⟨t', hrun', hend⟩ := alike_engineRunWith (alike_genStart c hs ht hin) ((runsTo_gen hs).mp hrun)
  exact ⟨t', (runsTo_gen ht).mpr hrun', hend.out.symm, hend.fault.symm, hend.err.symm, hend.ovf.symm⟩

end Sys2Proof.Machine

namespace Sys2Proof.Machine

/-! ## The start candidate of a search -/

theorem foldl_be2int (b : Bytes) (v : Nat) :
    b.foldl (fun v x => v * 256 + x.toNat) v = v * 256 ^ b.length + be2int b := by
  induction b generalizing v with
  | nil => simp [be2int]
  | cons x b ih =>
    simp only [be2int, List.foldl_cons, List.length_cons] at ih ⊢
    rw [ih, ih (0 * 256 + x.toNat)]
    ring

/-- The first byte is the most significant (R16). -/
theorem be2int_cons (x : Byte) (b : Bytes) : be2int (x :: b) = x.toNat * 256 ^ b.length + be2int b := by
  rw [be2int, List.foldl_cons, foldl_be2int, Nat.zero_mul, Nat.zero_add]

theorem be2int_lt (b : Bytes) : be2int b < 256 ^ b.length := by
  induction b with
  | nil => decide
  | cons x b ih =>
    have hx : (x.toNat + 1) * 256 ^ b.length ≤ 256 * 256 ^ b.length := Nat.mul_le_mul_right _ x.isLt
    rw [be2int_cons, List.length_cons, Nat.pow_succ]
    linarith

theorem length_forceBottom (b : Bytes) : (forceBottom b).length = b.length := by
  induction b using forceBottom.induct with
  | case1 => rfl
  | case2 x => rfl
  | case3 x y b ih => simp [forceBottom, ih]

theorem length_force (b : Bytes) : (force b).length = b.length := by
  rw [force, length_forceBottom]
  cases b <;> rfl

theorem forceBottom_odd (x : Byte) (b : Bytes) : be2int (forceBottom (x :: b)) % 2 = 1 := by
  induction b generalizing x with
  | nil => simp [forceBottom, be2int, Nat.or_mod_two_eq_one]
  | cons y b ih =>
    rw [forceBottom, be2int_cons, length_forceBottom, List.length_cons, Nat.pow_succ, ← Nat.mul_assoc]
    have := ih y
    omega

theorem le_forceBottom (x : Byte) (b : Bytes) : x.toNat ≤ be2int (forceBottom (x :: b)) := by
  cases b with
  | nil => simp [forceBottom, be2int, Nat.left_le_or]
  | cons y b =>
    rw [forceBottom, be2int_cons]
    exact (Nat.le_mul_of_pos_right _ (by positivity)).trans (Nat.le_add_right _ _)

theorem cand0_lt (b : Bytes) : cand0 b < 256 ^ b.length := by
  have := be2int_lt (force b)
  rwa [length_force] at this

/-- The start candidate of a base that is not empty is odd and has its top bit set (R158, R159). -/
theorem cand0_bounds {b : Bytes} (h : 1 ≤ b.length) : cand0 b % 2 = 1 ∧ 129 ≤ cand0 b := by
  obtain _ | ⟨x, b⟩ := b
  · cases h
  · have hodd : cand0 (x :: b) % 2 = 1 := forceBottom_odd _ b
    have hge : (x ||| 0x80).toNat ≤ cand0 (x :: b) := le_forceBottom _ b
    have htop : 128 ≤ (x ||| 0x80).toNat := by
      rw [BitVec.toNat_or]
      exact Nat.right_le_or
    omega

/-! ## An element's step, said once -/

/-- The element of a search (R160, R161). -/
def Which.element (w : Which) : Element :=
  match w with
  | .p => .psrch
  | .q => .qsrch

@[simp] theorem Which.element_sub (w : Which) : w.element.sub = opcode w.instr := by cases w <;> rfl

theorem Which.element_injective : Function.Injective Which.element := by
  intro v w h
  cases v <;> cases w <;> first | rfl | cases h

/-- Only a search runs under a search's opcode. -/
theorem Element.eq_of_sub {e : Element} {w : Which} (h : e.sub = opcode w.instr) : e = w.element := by
  cases w <;> cases e <;> first | rfl | exact absurd h (by decide)

theorem Which.instr_injective : Function.Injective Which.instr := by
  intro v w h
  cases v <;> cases w <;> first | rfl | cases h

/-- The elements that derive a byte string (R133). -/
def Element.derives (e : Element) : Prop := e = .mkey ∨ e = .psec ∨ e = .pgen ∨ e = .qgen

theorem Which.element_not_derives (w : Which) : ¬ w.element.derives := by
  cases w <;> simp [Element.derives, Which.element]

@[simp] theorem hmacRound_derived (c : Config) (key : Bytes) (s : State) : (hmacRound c key s).derived = s.derived := by
  unfold hmacRound countRound
  dsimp only
  split <;> rfl

@[simp] theorem hmacRound_out (c : Config) (key : Bytes) (s : State) : (hmacRound c key s).out = s.out := by
  unfold hmacRound countRound
  dsimp only
  split <;> rfl

/-- One more rejected candidate is counted, in `TESTS` and where there are counters (R162, R246). -/
def State.countTest (c : Config) (w : Which) (s : State) : State :=
  { s with
    seq := { s.seq with tests := s.seq.tests + 1 }
    counters := if c.hasCounters then w.bumpCounter s.counters else s.counters }

theorem rejectCandidate_eq (c : Config) (w : Which) (v : Nat) (b : Bytes) (s : State) :
    rejectCandidate c w v b s =
      if capReached c (s.seq.tests + 1) then raise (.primeSearchExhausted w.info) (s.countTest c w)
      else noteOverflow (v + 2) b
        { s.countTest c w with derived := { s.derived with cand := some (v + 2) } } := rfl

/-- The states in which an element's step leaves the element running. -/
inductive GoesOn (c : Config) (s : State) : Element → State → Prop where
  | derive (e : Element) (msg : Bytes) (he : e.derives) : GoesOn c s e (enterDerive msg s)
  | pgen (msg : Bytes) (hk : keySizeLegal c s.keySize.toNat = true) :
    GoesOn c s .pgen (enterDerive msg { s with derived := { s.derived with lb := some (s.keySize.toNat / 16) } })
  | round (e : Element) (key : Bytes) (he : e.derives) : GoesOn c s e (hmacRound c key s)
  | search (w : Which) (b : Bytes) (hb : w.base s.derived = some b) : GoesOn c s w.element (enterSearch w b s)
  | accepted (w : Which) (v : Nat) (hp : s.seq.phase = .loop) (hv : s.derived.cand = some v)
    (ho : c.primeOracle v = true) : GoesOn c s w.element { s with seq := { s.seq with phase := .commit } }
  | rejected (w : Which) (b : Bytes) (v : Nat) (hb : w.base s.derived = some b) (hp : s.seq.phase = .loop)
    (hv : s.derived.cand = some v) (ho : c.primeOracle v = false) :
    GoesOn c s w.element (noteOverflow (v + 2) b
      { s.countTest c w with derived := { s.derived with cand := some (v + 2) } })

/-- The states an element's last step leaves to `complete` or to GEN's `pc <- pc + 1`. -/
inductive Ends (c : Config) (s : State) : Element → State → Prop where
  | mkey (hl : 64 ≤ s.seq.acc.length) :
    Ends c s .mkey { s with derived := { s.derived with mk := some (s.seq.acc.take 64) } }
  | psec (hl : 64 ≤ s.seq.acc.length) :
    Ends c s .psec { s with derived := { s.derived with ps := some (s.seq.acc.take 64) } }
  | pgen (l : Nat) (hlb : s.derived.lb = some l) (hl : l ≤ s.seq.acc.length) :
    Ends c s .pgen { s with derived := { s.derived with pbase := some (s.seq.acc.take l) } }
  | qgen (l : Nat) (hlb : s.derived.lb = some l) (hl : l ≤ s.seq.acc.length) :
    Ends c s .qgen { s with derived := { s.derived with qbase := some (s.seq.acc.take l) } }
  | search (w : Which) (b : Bytes) (v : Nat) (hb : w.base s.derived = some b) (hp : s.seq.phase = .commit)
    (hv : s.derived.cand = some v) : Ends c s w.element (storeResult w v b s)
  | rsaasm (p q : Nat) (r : RsaParts) (hp : s.derived.p = some p) (hq : s.derived.q = some q)
    (hr : rsaParts p q = .ok r) :
    Ends c s .rsaasm { s with derived := { s.derived with
      nmod := some r.n, dexp := some r.d, dp := some r.dp, dq := some r.dq, qi := some r.qi } }
  | rsaexp (p q n d dp dq qi l : Nat) (hlb : s.derived.lb = some l) :
    Ends c s .rsaexp { s with out := .rsa (rsaRecord p q n d dp dq qi l) }
  | ecred (ps : Bytes) (hps : s.derived.ps = some ps) :
    Ends c s .ecred { s with derived := { s.derived with ecd := some (be2int ps % ecN) } }
  | ecmul (d x y : Nat) (hd : s.derived.ecd = some d) (hxy : mulPoint d ecG = .affine x y) :
    Ends c s .ecmul { s with derived := { s.derived with qx := some x, qy := some y } }
  | ecexp (d x y : Nat) : Ends c s .ecexp { s with out := .ec (ecRecord d x y) }
  | scrub : Ends c s .scrub { s with derived := Derived.invalid }

/-- An element's step goes on, ends the element, or raises. -/
inductive ElementStep (c : Config) (e : Element) (fin : State → State) (s : State) : State → Prop where
  | goesOn (u : State) (h : GoesOn c s e u) : ElementStep c e fin s u
  | ends (u : State) (h : Ends c s e u) : ElementStep c e fin s (fin u)
  | raises (f : Cause) : ElementStep c e fin s (raise f s)
  | exhausted (w : Which) (he : e = w.element) :
    ElementStep c e fin s (raise (.primeSearchExhausted w.info) (s.countTest c w))

section
variable {c : Config} {e : Element} {fin : State → State} {s : State}

/-- A read at the head of an element raises, or the element goes on with the value there. -/
theorem elementStep_need {α : Type} (r : Reg) (v : Option α) (rest : α → State)
    (h : ∀ x, v = some x → ElementStep c e fin s (rest x)) : ElementStep c e fin s (need r v s rest) := by
  obtain ⟨-, hn⟩ | ⟨x, hx, hn⟩ := need_cases r v s rest <;> rw [hn]
  · exact .raises _
  · exact h x hx

theorem elementStep_deriveLoop (he : e.derives) (key : Bytes) (l : Nat) (store : Bytes → State)
    (h : l ≤ s.seq.acc.length → Ends c s e (store (s.seq.acc.take l))) :
    ElementStep c e fin s (deriveLoop c key l (fun b => fin (store b)) s) := by
  unfold deriveLoop
  split
  · exact .goesOn _ (.round e key he)
  · next hl => exact .ends _ (h (by omega))

theorem elementStep_searchBody (w : Which) : ElementStep c w.element fin s (searchBody c w fin s) := by
  refine elementStep_need _ _ _ fun b hb => ?_
  cases hp : s.seq.phase
  · exact .goesOn _ (.search w b hb)
  · refine elementStep_need _ _ _ fun v hv => ?_
    rw [testCandidate, rejectCandidate_eq]
    split
    · next ho => exact .goesOn _ (.accepted w v hp hv ho)
    · next ho =>
      split
      · exact .exhausted w rfl
      · exact .goesOn _ (.rejected w b v hb hp hv (by simpa using ho))
  · exact elementStep_need _ _ _ fun v hv => .ends _ (.search w b v hb hp hv)

/-- Everything a step of an element can do (R217). -/
theorem elementBody_cases (c : Config) (e : Element) (fin : State → State) (s : State) :
    ElementStep c e fin s (elementBody c e fin s) := by
  cases e <;> simp only [elementBody]
  case psrch => exact elementStep_searchBody .p
  case qsrch => exact elementStep_searchBody .q
  case mkey =>
    have he : Element.mkey.derives := .inl rfl
    refine elementStep_need _ _ _ fun _ _ => elementStep_need _ _ _ fun _ _ => ?_
    cases s.seq.phase
    · exact .goesOn _ (.derive _ _ he)
    all_goals exact elementStep_deriveLoop he _ _ _ .mkey
  case psec =>
    have he : Element.psec.derives := .inr (.inl rfl)
    refine elementStep_need _ _ _ fun _ _ => elementStep_need _ _ _ fun _ _ => ?_
    cases s.seq.phase
    · exact .goesOn _ (.derive _ _ he)
    all_goals exact elementStep_deriveLoop he _ _ _ .psec
  case pgen =>
    have he : Element.pgen.derives := .inr (.inr (.inl rfl))
    refine elementStep_need _ _ _ fun _ _ => elementStep_need _ _ _ fun _ _ => ?_
    cases s.seq.phase
    · dsimp only
      split
      · next hk => exact .goesOn _ (.pgen _ hk)
      · exact .raises _
    all_goals exact elementStep_need _ _ _ fun l hlb => elementStep_deriveLoop he _ _ _ (.pgen l hlb)
  case qgen =>
    have he : Element.qgen.derives := .inr (.inr (.inr rfl))
    refine elementStep_need _ _ _ fun _ _ => elementStep_need _ _ _ fun _ _ => elementStep_need _ _ _ fun l hlb => ?_
    cases s.seq.phase
    · exact .goesOn _ (.derive _ _ he)
    all_goals exact elementStep_deriveLoop he _ _ _ (.qgen l hlb)
  case rsaasm =>
    refine elementStep_need _ _ _ fun p hp => elementStep_need _ _ _ fun q hq => ?_
    dsimp only
    split
    · exact .raises _
    · next r hr => exact .ends _ (.rsaasm p q r hp hq hr)
  case rsaexp =>
    iterate 7 refine elementStep_need _ _ _ fun _ _ => ?_
    exact elementStep_need _ _ _ fun l hlb => .ends _ (.rsaexp _ _ _ _ _ _ _ l hlb)
  case ecred => exact elementStep_need _ _ _ fun ps hps => .ends _ (.ecred ps hps)
  case ecmul =>
    refine elementStep_need _ _ _ fun d hd => ?_
    dsimp only
    split
    · exact .raises _
    · next x y hxy => exact .ends _ (.ecmul d x y hd hxy)
  case ecexp =>
    exact elementStep_need _ _ _ fun d _ => elementStep_need _ _ _ fun x _ => elementStep_need _ _ _ fun y _ =>
      .ends _ (.ecexp d x y)
  case scrub => exact .ends _ .scrub

end

end Sys2Proof.Machine

namespace Sys2Proof.Machine

/-! ## What a running sequencer names -/

theorem Instr.element_sub {i : Instr} {e : Element} (h : Instr.element i = some e) : e.sub = opcode i := by
  cases i <;> cases h <;> rfl

/-- While a step command runs `SUB` is its opcode (R36, R107). -/
theorem sub_of_running {s : State} {i : Instr} {e : Element} (h : RunningSeq s) (hcur : s.seq.cur = opcode i)
    (he : Instr.element i = some e) : s.seq.sub = opcode i := by
  have hgen : opcode i ≠ opcode .gen := fun hi => by rw [opcode_injective hi] at he; cases he
  obtain ⟨j, -, -, -, hj, hsub, -⟩ | ⟨hg, -⟩ | ⟨hg, -⟩ := h
  · rw [hsub, ← hj, hcur]
  · exact absurd (hcur.symm.trans hg) hgen
  · exact absurd (hcur.symm.trans hg) hgen

/-- While GEN runs its sequence `SUB` is the opcode of the element at its place (R36, R217). -/
theorem genSub_of_running {s : State} {t : Bytes} {k : Kind} (h : RunningSeq s) (hcur : s.seq.cur = opcode .gen)
    (h0 : s.seq.gidx ≠ 0) (ht : s.input .ktype = some t) (hk : matchKeyType t = some k) :
    s.seq.sub = ((elementAt k s.seq.gidx).map Element.sub).getD (opcode .gen) := by
  obtain ⟨i, -, -, hgen, hi, -⟩ | ⟨-, hz, -⟩ | ⟨-, -, t', k', ht', hk', -, hsub⟩ := h
  · exact absurd (opcode_injective (hi.symm.trans hcur)) hgen
  · exact absurd hz h0
  · obtain rfl : t' = t := Option.some.inj (ht'.symm.trans ht)
    obtain rfl : k' = k := Option.some.inj (hk'.symm.trans hk)
    exact hsub

/-! ## The registers' and the record's widths under an element's step -/

/-- The part of `RegisterInv` that speaks of the derived registers alone: all of it but `CAND`. -/
structure DerivedHeld (c : Config) (d : Derived) : Prop where
  ofFields ::
  mk : ∀ b, d.mk = some b → b.length = 64
  ps : ∀ b, d.ps = some b → b.length = 64
  pbase : CandidateBytesHeld d.pbase
  qbase : CandidateBytesHeld d.qbase
  lb : ∀ l, d.lb = some l → 1 ≤ l ∧ l ≤ 256
  p : PrimeHeld c d.p
  q : PrimeHeld c d.q
  ecd : ∀ x, d.ecd = some x → x < ecN
  qx : ∀ x, d.qx = some x → x < ecP
  qy : ∀ y, d.qy = some y → y < ecP

theorem RegisterInv.held {c : Config} {s : State} (h : RegisterInv c s) : DerivedHeld c s.derived := { h with }

theorem DerivedHeld.registerInv {c : Config} {s : State} (h : DerivedHeld c s.derived)
    (hcand : ∀ v, s.derived.cand = some v → SearchUnderWay c s v) : RegisterInv c s := { h with cand := hcand }

/-- `RegisterInv` speaks of the derived registers and, for `CAND`, of `BUSY`, `OVF` and the sequencer alone. -/
theorem RegisterInv.congr {c : Config} {s t : State} (h : RegisterInv c s) (hd : t.derived = s.derived)
    (hbusy : t.flags.busy = s.flags.busy) (hovf : t.flags.ovf = s.flags.ovf) (hseq : t.seq = s.seq) :
    RegisterInv c t := by
  refine DerivedHeld.registerInv (hd ▸ h.held) fun v hv => ?_
  have hs := h.cand v (hd ▸ hv)
  unfold SearchUnderWay at hs ⊢
  rwa [hbusy, hovf, hseq, hd]

theorem OutInv.congr {s t : State} (h : OutInv s) (ho : t.out = s.out) : OutInv t := by
  unfold OutInv at h ⊢
  rwa [ho]

/-- Widths and ranges are right and no search is under way, so that nothing but the registers and the record matters. -/
structure Settled (c : Config) (s : State) : Prop where
  held : DerivedHeld c s.derived
  noCand : s.derived.cand = none
  out : OutInv s

theorem Settled.invs {c : Config} {s : State} (h : Settled c s) : RegisterInv c s ∧ OutInv s :=
  ⟨h.held.registerInv (by rw [h.noCand]; intro v hv; cases hv), h.out⟩

theorem Settled.congr {c : Config} {s t : State} (h : Settled c s) (hd : t.derived = s.derived)
    (ho : t.out = s.out) : Settled c t :=
  ⟨hd ▸ h.held, hd ▸ h.noCand, h.out.congr ho⟩

theorem derivedHeld_invalid (c : Config) : DerivedHeld c Derived.invalid := by
  constructor <;> intro _ h <;> cases h

theorem settled_invalid {c : Config} {s : State} (hd : s.derived = Derived.invalid) (ho : s.out = .none) :
    Settled c s where
  held := hd ▸ derivedHeld_invalid c
  noCand := by rw [hd]; rfl
  out := by rw [OutInv, ho]; trivial

theorem settled_raise (c : Config) (f : Cause) (s : State) : Settled c (raise f s) := settled_invalid rfl rfl

/-- A candidate stands only under a search's opcode. -/
theorem settled_of_not_search {c : Config} {s : State} (h : RegisterInv c s) (ho : OutInv s)
    (hns : ∀ w : Which, s.seq.sub ≠ opcode w.instr) : Settled c s := by
  refine ⟨h.held, Option.eq_none_iff_forall_ne_some.mpr fun v hv => ?_, ho⟩
  obtain ⟨-, -, w, hsub, -⟩ := h.cand v hv
  exact hns w hsub

/-- An idle engine holds no candidate. -/
theorem settled_of_idle {c : Config} {s : State} (h : RegisterInv c s) (ho : OutInv s)
    (hb : s.flags.busy = false) : Settled c s := by
  refine ⟨h.held, Option.eq_none_iff_forall_ne_some.mpr fun v hv => ?_, ho⟩
  obtain ⟨hbusy, -⟩ := h.cand v hv
  rw [hb] at hbusy
  cases hbusy

/-- The search that holds the candidate is the one that runs, on the base it reads. -/
theorem searchUnderWay_of_sub {c : Config} {s : State} {w : Which} {b : Bytes} {v : Nat} (h : RegisterInv c s)
    (hsub : s.seq.sub = opcode w.instr) (hb : w.base s.derived = some b) (hv : s.derived.cand = some v) :
    s.flags.busy = true ∧ v = cand0 b + 2 * s.seq.tests ∧
      (∀ j < s.seq.tests, c.primeOracle (cand0 b + 2 * j) = false) ∧
      (s.seq.phase = .commit → c.primeOracle v = true) ∧ (256 ^ b.length ≤ v → s.flags.ovf = true) := by
  obtain ⟨hbusy, -, w', hsub', b', hb', hrest⟩ := h.cand v hv
  obtain rfl : w' = w := Which.instr_injective (opcode_injective (hsub'.symm.trans hsub))
  obtain rfl : b' = b := Option.some.inj (hb'.symm.trans hb)
  exact ⟨hbusy, hrest⟩

theorem candidateBytesHeld_base {c : Config} {d : Derived} (h : DerivedHeld c d) (w : Which) :
    CandidateBytesHeld (w.base d) := by
  cases w
  · exact h.pbase
  · exact h.qbase

theorem DerivedHeld.storePrime {c : Config} {d : Derived} (h : DerivedHeld c d) (w : Which) {v : Nat}
    (hv : PrimeHeld c (some v)) : DerivedHeld c { w.storePrime v d with cand := none } := by
  cases w
  · exact { h with p := hv }
  · exact { h with q := hv }

/-- Every length PGEN latches is a prime byte length (R10, R155). -/
theorem primeLength_bounds {c : Config} {k : Nat} (h : keySizeLegal c k = true) : 1 ≤ k / 16 ∧ k / 16 ≤ 256 := by
  simp only [keySizeLegal, Bool.and_eq_true, decide_eq_true_eq] at h
  obtain ⟨⟨-, hge⟩, hle⟩ := h
  have hmax := c.keySizeMax.isLt
  have hgranule : 16 ≤ c.granuleBits := by rw [Config.granuleBits]; split <;> decide
  omega

theorem mulPoint_ecG_lt {k x y : Nat} (h : mulPoint k ecG = .affine x y) : x < ecP ∧ y < ecP := by
  have : Fact (Nat.Prime ecP) := ⟨ecP_prime⟩
  obtain ⟨hcurve, -⟩ := toCurve_mulPoint ecG ecG_onCurve k
  rw [h] at hcurve
  obtain ⟨hx, hy, -⟩ := hcurve
  exact ⟨hx, hy⟩

theorem length_beBytes (w v : Nat) : (beBytes w v).length = w := by
  induction w with
  | zero => rfl
  | succ w ih => rw [beBytes, List.length_cons, ih]

theorem fieldHeld_outField (v width : Nat) : FieldHeld width (outField v width) := ⟨length_beBytes _ _, rfl⟩

theorem ePub_bytes : fixBE ePub 3 = [0x01, 0x00, 0x01] := by decide

/-- The record RSAEXP writes has the widths of R177. -/
theorem outInv_rsaRecord {s : State} {p q n d dp dq qi l : Nat} (hl : 1 ≤ l ∧ l ≤ 256)
    (ho : s.out = .rsa (rsaRecord p q n d dp dq qi l)) : OutInv s := by
  rw [OutInv, ho]
  exact ⟨hl.1, hl.2, ePub_bytes, fieldHeld_outField _ _, fieldHeld_outField _ _, fieldHeld_outField _ _,
    fieldHeld_outField _ _, fieldHeld_outField _ _, fieldHeld_outField _ _, fieldHeld_outField _ _,
    fieldHeld_outField _ _⟩

theorem candidateBytesHeld_take {b : Bytes} {l : Nat} (hl : 1 ≤ l ∧ l ≤ 256) (h : l ≤ b.length) :
    CandidateBytesHeld (some (b.take l)) := fun x hx => by
  rwa [← Option.some.inj hx, List.length_take_of_le h]

/-- The end of an element that searches nothing keeps a settled state settled. -/
theorem Settled.ends {c : Config} {e : Element} {s u : State} (h : Settled c s) (hne : ∀ w : Which, e ≠ w.element)
    (hu : Ends c s e u) : Settled c u := by
  obtain ⟨hheld, hcand, hout⟩ := h
  cases hu with
  | mkey hl => exact ⟨{ hheld with mk := fun _ h => Option.some.inj h ▸ List.length_take_of_le hl }, hcand, hout⟩
  | psec hl => exact ⟨{ hheld with ps := fun _ h => Option.some.inj h ▸ List.length_take_of_le hl }, hcand, hout⟩
  | pgen l hlb hl => exact ⟨{ hheld with pbase := candidateBytesHeld_take (hheld.lb l hlb) hl }, hcand, hout⟩
  | qgen l hlb hl => exact ⟨{ hheld with qbase := candidateBytesHeld_take (hheld.lb l hlb) hl }, hcand, hout⟩
  | search w => exact absurd rfl (hne w)
  | rsaasm => exact ⟨{ hheld with }, hcand, hout⟩
  | rsaexp _ _ _ _ _ _ _ l hlb => exact ⟨hheld, hcand, outInv_rsaRecord (hheld.lb l hlb) rfl⟩
  | ecred =>
    exact ⟨{ hheld with ecd := fun d hd => Option.some.inj hd ▸ Nat.mod_lt _ (by decide) }, hcand, hout⟩
  | ecmul d x y _ hxy =>
    obtain ⟨hx, hy⟩ := mulPoint_ecG_lt hxy
    exact ⟨{ hheld with qx := fun _ hv => Option.some.inj hv ▸ hx, qy := fun _ hv => Option.some.inj hv ▸ hy },
      hcand, hout⟩
  | ecexp => exact ⟨hheld, hcand, fieldHeld_outField _ _, fieldHeld_outField _ _, fieldHeld_outField _ _⟩
  | scrub => exact ⟨derivedHeld_invalid c, rfl, hout⟩

/-- What a search leaves at its end is settled: it has stored its prime and given up its candidate (R160). -/
theorem settled_storeResult {c : Config} {s : State} {w : Which} {b : Bytes} {v : Nat} (h : RegisterInv c s)
    (ho : OutInv s) (hsub : s.seq.sub = opcode w.instr) (hb : w.base s.derived = some b)
    (hp : s.seq.phase = .commit) (hv : s.derived.cand = some v) : Settled c (storeResult w v b s) := by
  obtain ⟨-, hval, -, hacc, -⟩ := searchUnderWay_of_sub h hsub hb hv
  obtain ⟨hodd, hge⟩ := cand0_bounds (candidateBytesHeld_base h.held w b hb).1
  have hprime : PrimeHeld c (some v) := fun x hx => by
    obtain rfl := Option.some.inj hx
    exact ⟨by omega, by omega, hacc hp⟩
  rw [storeResult, noteOverflow_eq]
  exact ⟨h.held.storePrime w hprime, rfl, ho.congr rfl⟩

/-- Outside a search `CAND` is invalid. -/
theorem settled_of_element {c : Config} {e : Element} {s : State} (h : RegisterInv c s) (ho : OutInv s)
    (hsub : s.seq.sub = e.sub) (hne : ∀ w : Which, e ≠ w.element) : Settled c s :=
  settled_of_not_search h ho fun w hw => hne w (Element.eq_of_sub (hsub.symm.trans hw))

/-- Whatever an element leaves at its end is settled. -/
theorem settled_of_ends {c : Config} {e : Element} {s u : State} (h : RegisterInv c s) (ho : OutInv s)
    (hsub : s.seq.sub = e.sub) (hu : Ends c s e u) : Settled c u := by
  by_cases hne : ∀ w : Which, e ≠ w.element
  · exact (settled_of_element h ho hsub hne).ends hne hu
  · cases hu with
    | search w b v hb hp hv => exact settled_storeResult h ho (hsub.trans w.element_sub) hb hp hv
    | _ => exact absurd (by intro w; cases w <;> decide) hne

/-- Where an element that searches nothing goes on, no derived register changes but `LB`, which PGEN latches (R156). -/
theorem Settled.goesOn {c : Config} {e : Element} {s u : State} (h : Settled c s) (hne : ∀ w : Which, e ≠ w.element)
    (hu : GoesOn c s e u) : Settled c u := by
  obtain ⟨hheld, hcand, hout⟩ := h
  cases hu with
  | derive => exact ⟨hheld, hcand, hout⟩
  | pgen _ hk => exact ⟨{ hheld with lb := fun l hl => Option.some.inj hl ▸ primeLength_bounds hk }, hcand, hout⟩
  | round e key => exact (Settled.mk hheld hcand hout).congr (hmacRound_derived c key s) (hmacRound_out c key s)
  | search w | accepted w | rejected w => exact absurd rfl (hne w)

/-- A search that goes on tests the candidates in order, and sets `OVF` when one reaches the width of its base. -/
theorem invs_of_search_goesOn {c : Config} {w : Which} {s u : State} (h : RegisterInv c s) (ho : OutInv s)
    (hbusy : s.flags.busy = true) (hsub : s.seq.sub = opcode w.instr) (hu : GoesOn c s w.element u) :
    RegisterInv c u ∧ OutInv u := by
  generalize he : w.element = e at hu
  cases hu with
  | derive _ _ hd => exact absurd (he ▸ hd) w.element_not_derives
  | round _ _ hd => exact absurd (he ▸ hd) w.element_not_derives
  | pgen => exact absurd (he ▸ .inr (.inr (.inl rfl))) w.element_not_derives
  | search w' b hb =>
    obtain rfl := Which.element_injective he
    refine ⟨{ h.held with cand := fun v hv => ?_ }, ho⟩
    obtain rfl : cand0 b = v := Option.some.inj hv
    exact ⟨hbusy, Phase.noConfusion, w, hsub, b, by cases w <;> exact hb, rfl,
      fun j hj => absurd hj (Nat.not_lt_zero j), Phase.noConfusion,
      fun hle => absurd (cand0_lt b) (Nat.not_lt.mpr hle)⟩
  | accepted w' v hp hv hacc =>
    obtain rfl := Which.element_injective he
    refine ⟨{ h.held with cand := fun v' hv' => ?_ }, ho⟩
    obtain rfl : v = v' := Option.some.inj (hv.symm.trans hv')
    obtain ⟨-, -, w', hsub', b, hb, hval, hrej, -, hovf⟩ := h.cand v hv
    exact ⟨hbusy, Phase.noConfusion, w', hsub', b, hb, hval, hrej, fun _ => hacc, hovf⟩
  | rejected w' b v hb hp hv hrej =>
    obtain rfl := Which.element_injective he
    obtain ⟨-, hval, hall, -, -⟩ := searchUnderWay_of_sub h hsub hb hv
    rw [noteOverflow_eq]
    refine ⟨{ h.held with cand := fun v' hv' => ?_ }, ho⟩
    obtain rfl : v + 2 = v' := Option.some.inj hv'
    have hphase : ∀ ph, s.seq.phase = ph → ph = .loop := fun ph h' => h'.symm.trans hp
    refine ⟨hbusy, fun h0 => Phase.noConfusion (hphase _ h0), w, hsub, b, by cases w <;> exact hb, ?_,
      fun j hj => ?_, fun hc => Phase.noConfusion (hphase _ hc), fun hle => ?_⟩
    · show v + 2 = cand0 b + 2 * (s.seq.tests + 1)
      omega
    · obtain hj | rfl : j < s.seq.tests ∨ j = s.seq.tests := Nat.lt_succ_iff_lt_or_eq.mp hj
      · exact hall j hj
      · exact hval ▸ hrej
    · simp [hle]

theorem invs_of_goesOn {c : Config} {e : Element} {s u : State} (h : RegisterInv c s) (ho : OutInv s)
    (hbusy : s.flags.busy = true) (hsub : s.seq.sub = e.sub) (hu : GoesOn c s e u) : RegisterInv c u ∧ OutInv u := by
  by_cases hne : ∀ w : Which, e ≠ w.element
  · exact ((settled_of_element h ho hsub hne).goesOn hne hu).invs
  · obtain ⟨w, rfl⟩ : ∃ w : Which, e = w.element := by simpa using hne
    exact invs_of_search_goesOn h ho hbusy (hsub.trans w.element_sub) hu

/-- An element's step keeps widths and ranges, when what stands at its end keeps the registers and the record. -/
theorem invs_elementBody {c : Config} {e : Element} {fin : State → State} {s : State} (h : RegisterInv c s)
    (ho : OutInv s) (hbusy : s.flags.busy = true) (hsub : s.seq.sub = e.sub)
    (hfin : ∀ u, (fin u).derived = u.derived ∧ (fin u).out = u.out) :
    RegisterInv c (elementBody c e fin s) ∧ OutInv (elementBody c e fin s) := by
  have hstep := elementBody_cases c e fin s
  generalize elementBody c e fin s = t at hstep ⊢
  cases hstep with
  | goesOn _ hu => exact invs_of_goesOn h ho hbusy hsub hu
  | ends u hu => exact ((settled_of_ends h ho hsub hu).congr (hfin u).1 (hfin u).2).invs
  | raises f => exact (settled_raise c f s).invs
  | exhausted w => exact (settled_raise c _ _).invs

/-! ## The registers' and the record's widths under a command's step -/

theorem invs_genBody {c : Config} {s : State} (hl : LifecycleInv s) (h : RegisterInv c s) (ho : OutInv s)
    (hb : s.flags.busy = true) (hcur : s.seq.cur = opcode .gen) :
    RegisterInv c (genBody c s) ∧ OutInv (genBody c s) := by
  unfold genBody
  split
  · obtain ⟨f, hf⟩ | ⟨t, k, -, -, hpc⟩ := genChecks_cases c (clearDerivedState s)
    · rw [hf]; exact (settled_raise c f _).invs
    · rw [hpc]; exact (settled_invalid rfl rfl).invs
  · next h0 =>
    obtain ⟨f, hf⟩ | ⟨t, k, ht, hk, hplace⟩ := genElement_cases c s
    · rw [hf]; exact (settled_raise c f s).invs
    · have hsub := genSub_of_running (hl.running hb) hcur h0 ht hk
      obtain ⟨hend, hbody⟩ | ⟨e, he, hbody⟩ := hplace <;> rw [hbody]
      · have hset : Settled c s := settled_of_element (e := .scrub) h ho (by rw [hsub, hend]; rfl)
          (by intro w; cases w <;> decide)
        exact (hset.congr (complete_derived s) (complete_out s)).invs
      · exact invs_elementBody h ho hb (by rw [hsub, he]; rfl) fun _ => ⟨rfl, rfl⟩

/-- A command's step keeps widths and ranges at an idle engine, and while that command runs. -/
theorem invs_commandStep {c : Config} {i : Instr} {s : State} (hl : LifecycleInv s) (h : RegisterInv c s)
    (ho : OutInv s) (hrun : s.flags.busy = true → s.seq.cur = opcode i) :
    RegisterInv c (commandStep c i s) ∧ OutInv (commandStep c i s) := by
  have hdrop : RegisterInv c (dropWrite s) ∧ OutInv (dropWrite s) := ⟨h.congr rfl rfl rfl rfl, ho⟩
  obtain rfl | rfl | ⟨hclr, hwipe, hi⟩ := Instr.element_cases i
  · show RegisterInv c (clr s) ∧ OutInv (clr s)
    unfold clr
    split
    · exact hdrop
    · exact (settled_invalid rfl rfl).invs
  · show RegisterInv c (wipe s) ∧ OutInv (wipe s)
    unfold wipe
    split
    · exact hdrop
    · exact (settled_invalid rfl rfl).invs
  cases hb : s.flags.busy
  case false =>
    rw [commandStep_idle c i s hclr hwipe hb]
    unfold accept
    split
    · exact hdrop
    · exact Settled.invs ((settled_of_idle h ho hb).congr rfl rfl)
  case true =>
    obtain rfl | ⟨e, he⟩ := hi
    · rw [commandStep_gen_busy c s hb]
      exact invs_genBody hl h ho hb (hrun hb)
    · rw [commandStep_busy c i e s he hb]
      have hsub : s.seq.sub = e.sub :=
        (sub_of_running (hl.running hb) (hrun hb) he).trans (Instr.element_sub he).symm
      exact invs_elementBody h ho hb hsub fun _ => ⟨rfl, rfl⟩

theorem invs_moves {c : Config} {u t : State} (hl : LifecycleInv u) (h : RegisterInv c u) (ho : OutInv u)
    (hm : Moves c u t) : RegisterInv c t ∧ OutInv t := by
  cases hm with
  | idle _ ht => rw [ht]; exact ⟨h, ho⟩
  | engine i _ hi ht => rw [ht]; exact invs_commandStep hl h ho fun _ => decode_wordOfOpcode_iff.mp hi
  | read off ht => rw [ht, hostRead_eq]; exact ⟨h.congr rfl rfl rfl rfl, ho⟩
  | drop ht => rw [ht]; exact ⟨h.congr rfl rfl rfl rfl, ho⟩
  | keySize v _ ht => rw [ht]; exact ⟨h.congr rfl rfl rfl rfl, ho⟩
  | length b v hb ht =>
    rw [ht, writeLength]
    split
    · exact ((settled_of_idle h ho hb).congr (by simp) (by simp)).invs
    · exact ⟨h.congr rfl rfl rfl rfl, ho⟩
  | bytes b off v _ _ ht => rw [ht]; exact ⟨h.congr rfl rfl rfl rfl, ho⟩
  | illegal w _ _ _ ht => rw [ht]; exact (settled_raise c _ _).invs
  | command w i hb _ _ ht =>
    rw [ht]; exact invs_commandStep hl h ho fun hb' => by rw [hb] at hb'; cases hb'
  | reset ht => rw [ht]; exact (settled_invalid rfl rfl).invs

/-- Settles O59: every way a step's next state comes about keeps widths and ranges. -/
theorem registersAndOutKept : Obligations.RegistersAndOutKept := by
  intro s t hl h ho hst
  obtain ⟨p, hm⟩ := step_moves s t hst
  have hlp : LifecycleInv { s with host := p } := hl.congr rfl rfl rfl rfl rfl rfl fun _ => rfl
  exact invs_moves hlp (h.congr rfl rfl rfl rfl) (ho.congr rfl) hm

end Sys2Proof.Machine

namespace Sys2Proof.Machine

/-! ## The storage invariant -/

/-- `StorageInv` speaks of the cells and the length registers alone. -/
theorem StorageInv.of_sameStorage {c : Config} {s t : State} (h : StorageInv c s) (hst : SameStorage s t) :
    StorageInv c t where
  cells := by rw [hst.mem]; exact h.cells
  mapped := by rw [hst.mem]; exact h.mapped
  lengths b := by rw [hst.inputReg]; exact h.lengths b

/-- Empty cells and lengths of 0, which WIPE and reset leave, are within any capacity. -/
theorem storageInv_cleared (c : Config) {s : State} (hmem : s.mem = [])
    (hlen : ∀ b : Buf, s.inputReg b = ⟨0, false⟩) : StorageInv c s where
  cells := by rw [hmem]; rfl
  mapped a ha := by rw [hmem] at ha; exact absurd rfl ha
  lengths b := by rw [hlen]; exact Nat.zero_le _

/-- Canonical cells, only at bytes that exist: the part of `StorageInv` that speaks of the cells. -/
def CellsHeld (c : Config) (m : List Host.Cell) : Prop :=
  Memory.wf m = true ∧ ∀ a, Memory.read m a ≠ 0#8 → ∃ b : Buf, b.holds c a = true

/-- A lane is stored only where a byte exists (R78). -/
theorem cellsHeld_storeLane {c : Config} {m : List Host.Cell} (h : CellsHeld c m) (b : Buf) (off : Nat) (v : Byte) :
    CellsHeld c (storeLane c b off v m) := by
  unfold storeLane
  split
  · next hb =>
    refine ⟨memory_wf_write m off v h.1, fun a ha => ?_⟩
    by_cases hao : a = off
    · exact ⟨b, hao ▸ hb⟩
    · rw [memory_read_write_other m off a v hao] at ha
      exact h.2 a ha
  · exact h

theorem storageInv_writeBytes {c : Config} {s : State} (h : StorageInv c s) (b : Buf) (off : Nat) (v : Word) :
    StorageInv c (writeBytes c b off v s) := by
  have hcells : CellsHeld c s.mem := ⟨h.cells, h.mapped⟩
  obtain ⟨hwf, hmapped⟩ : CellsHeld c (writeBytes c b off v s).mem :=
    cellsHeld_storeLane (cellsHeld_storeLane (cellsHeld_storeLane (cellsHeld_storeLane hcells ..) ..) ..) ..
  exact ⟨hwf, hmapped, h.lengths⟩

theorem storageInv_writeLength {c : Config} {s : State} (h : StorageInv c s) (b : Buf) (v : Word) :
    StorageInv c (writeLength c b v s) := by
  unfold writeLength
  split
  · next hv =>
    refine ⟨by simpa using h.cells, by simpa using h.mapped, fun b' => ?_⟩
    by_cases hb : b' = b
    · rw [hb, inputReg_setInputReg_same]; exact hv
    · rw [inputReg_setInputReg_other s b b' _ hb]; exact h.lengths b'
  · exact h.of_sameStorage (sameStorage_dropWrite s)

theorem storageInv_commandStep {c : Config} {s : State} (h : StorageInv c s) (i : Instr) :
    StorageInv c (commandStep c i s) := by
  by_cases hwipe : i = .wipe
  · subst hwipe
    show StorageInv c (wipe s)
    unfold wipe
    split
    · exact h.of_sameStorage (sameStorage_dropWrite s)
    · exact storageInv_cleared c rfl fun b => by cases b <;> rfl
  · exact h.of_sameStorage (sameStorage_commandStep c hwipe s)

theorem storageInv_moves {c : Config} {u t : State} (h : StorageInv c u) (hm : Moves c u t) : StorageInv c t := by
  cases hm with
  | idle _ ht => rw [ht]; exact h
  | engine i _ _ ht => rw [ht]; exact storageInv_commandStep h i
  | read off ht => rw [ht, hostRead_eq]; exact h.of_sameStorage ⟨rfl, rfl, rfl, rfl, rfl⟩
  | drop ht => rw [ht]; exact h.of_sameStorage (sameStorage_dropWrite u)
  | keySize v _ ht => rw [ht]; exact h.of_sameStorage ⟨rfl, rfl, rfl, rfl, rfl⟩
  | length b v _ ht => rw [ht]; exact storageInv_writeLength h b v
  | bytes b off v _ _ ht => rw [ht]; exact storageInv_writeBytes h b off v
  | illegal w _ _ _ ht => rw [ht]; exact h.of_sameStorage ⟨rfl, rfl, rfl, rfl, rfl⟩
  | command w i _ _ _ ht => rw [ht]; exact storageInv_commandStep h i
  | reset ht => rw [ht]; exact storageInv_cleared c rfl fun b => by cases b <;> rfl

/-- Settles O57: every way a step's next state comes about keeps the storage. -/
theorem storageKept : Obligations.StorageKept := by
  intro s t h hst
  obtain ⟨p, hm⟩ := step_moves s t hst
  have hp : StorageInv Config.platform { s with host := p } := h.of_sameStorage ⟨rfl, rfl, rfl, rfl, rfl⟩
  exact storageInv_moves hp hm

/-! ## What a read tells -/

/-- The words a read of a buffer other than the seed's returns lie outside the seed's range (R71). -/
theorem bufferWord_congr {c : Config} {s t : State} {b : Buf} {off : Nat} (hb : b ≠ .seed)
    (hloc : locate c off = .bytes b)
    (hmem : ∀ a, (a < 0x0100 ∨ 0x01FF < a) → Memory.read t.mem a = Memory.read s.mem a) :
    bufferWord t off = bufferWord s off := by
  obtain ⟨hbase, -⟩ := holds_window (locate_bytes c off b hloc)
  have habove : 0x01FF < off := by
    cases b <;> simp only [Buf.base, ne_eq, not_true_eq_false] at hb hbase <;> omega
  simp only [bufferWord, hmem _ (.inr (by omega : 0x01FF < off)), hmem _ (.inr (by omega : 0x01FF < off + 1)),
    hmem _ (.inr (by omega : 0x01FF < off + 2)), hmem _ (.inr (by omega : 0x01FF < off + 3))]

theorem shownOut_congr {s t : State} (hflags : t.flags = s.flags) (hout : s.flags.busy = false → t.out = s.out) :
    t.shownOut = s.shownOut := by
  cases hb : s.flags.busy
  · rw [shownOut_idle hb, shownOut_idle (hflags ▸ hb), hout hb]
  · rw [shownOut_busy hb, shownOut_busy (hflags ▸ hb)]

/-- Settles O14: location by location, a read looks at nothing the two states may differ in. -/
theorem secretsUnreadable : Obligations.SecretsUnreadable := by
  intro s t off h4 hoff hmem hreg hkey hout hflags hcur herr hcount
  have hshown := shownOut_congr hflags hout
  have hstatus : statusWord t = statusWord s := by
    have hvalid : t.seed = s.seed ∧ t.did = s.did ∧ t.peer = s.peer ∧ t.ktype = s.ktype :=
      ⟨hreg .seed, hreg .did, hreg .peer, hreg .ktype⟩
    obtain ⟨hs, hd, hp, hk⟩ := hvalid
    simp only [statusWord, hs, hd, hp, hk, hflags, hcur]
  have hword : readWord Config.platform off t = readWord Config.platform off s := by
    unfold readWord
    cases hloc : locate Config.platform off with
    | bytes b =>
      cases b with
      | seed => rfl
      | did | peer | ktype => exact bufferWord_congr (by decide) hloc hmem
    | _ => simp only [hstatus, herr, hkey, hreg, hcount, hshown]
  refine ⟨_, _, step_read s h4 hoff, step_read t h4 hoff, ?_, ?_⟩
  · simp only [hostRead, returnWord_host, hword]
  · simp only [hostRead, returnWord_flags, readEffect_eq, hshown, hflags]

/-! ## What brings a step's next state about -/

theorem locate_cmd {c : Config} {off : Nat} (h : locate c off = .cmd) : off = 0x0000 := by
  unfold locate at h
  split at h
  · next l hl =>
    subst h
    obtain ⟨r, hr, hb⟩ := Option.map_eq_some_iff.mp hl
    have hsel : r.1 = off := by simpa using List.find?_some hr
    have hrows : ∀ r ∈ registerMap, r.2 = .cmd → r.1 = 0x0000 := by decide
    exact hsel.symm.trans (hrows r (List.mem_of_find?_eq_some hr) hb)
  · split at h
    · cases h
    · split at h <;> cases h

/-- The next states that no reset and no command word of the host brings about: the engine's turn, a read, a dropped
write, and at an idle engine nothing or a write into the inputs. -/
inductive QuietMove (c : Config) (u t : State) : Prop where
  | engine (i : Instr) (h : u.flags.busy = true) (hi : decode (wordOfOpcode u.seq.cur) = some i)
    (ht : t = commandStep c i u)
  | read (off : Nat) (ht : t = hostRead c off u)
  | drop (ht : t = dropWrite u)
  | inputs (h : u.flags.busy = false) (hf : t.flags = u.flags)

theorem quietMove_engineTurn {c : Config} {u t : State} (h : engineTurn (runWith c) u = .next t) :
    QuietMove c u t := by
  unfold engineTurn at h
  split at h
  · next hb =>
    split at h
    · next i hi => exact .engine i hb hi (by cases h; rfl)
    · cases h
  · next hb => exact .inputs (by simpa using hb) (by cases h; rfl)

theorem hostWrite_cases {c : Config} {off : Nat} {v : Word} {u t : State}
    (h : hostWrite c (runWith c) off v u = .next t) :
    (off = 0x0000 ∧ u.flags.busy = false ∧ writeCommand (runWith c) v u = .next t) ∨ QuietMove c u t := by
  unfold hostWrite at h
  split at h
  · cases h; exact .inr (.drop rfl)
  · next hb =>
    have hb : u.flags.busy = false := by simpa using hb
    split at h
    case h_1 hl => exact .inl ⟨locate_cmd hl, hb, h⟩
    case h_2 => cases h; exact .inr (.inputs hb rfl)
    case h_3 b _ =>
      cases h
      unfold writeLength
      split
      · exact .inr (.inputs hb (by simp))
      · exact .inr (.drop rfl)
    case h_4 => cases h; exact .inr (.inputs hb rfl)
    all_goals (cases h; exact .inr (.drop rfl))

/-- A step's next state comes of reset, of a command word written at an idle engine, or of a quiet move. -/
theorem step_script_cases {s t : State} (h : step s = .next t) :
    (∃ rest, s.host.script = .reset :: rest) ∨
      (∃ w rest, s.host.script = .write 0x0000 w :: rest ∧ s.flags.busy = false ∧
        writeCommand (runWith Config.platform) w { s with host := { s.host with script := rest } } = .next t) ∨
      ∃ p, QuietMove Config.platform { s with host := p } t := by
  rw [step_eq, machineStep] at h
  split at h
  · exact .inr (.inr ⟨s.host, quietMove_engineTurn h⟩)
  · next m rest hm =>
    cases m with
    | read off =>
      simp only [hostMove] at h
      split at h
      · cases h
      · cases h; exact .inr (.inr ⟨_, .read off rfl⟩)
    | write off v =>
      simp only [hostMove] at h
      split at h
      · cases h
      · obtain ⟨rfl, hb, hw⟩ | hq := hostWrite_cases h
        · exact .inr (.inl ⟨v, rest, hm, hb, hw⟩)
        · exact .inr (.inr ⟨_, hq⟩)
    | wait =>
      simp only [hostMove] at h
      split at h
      · exact .inr (.inr ⟨s.host, quietMove_engineTurn h⟩)
      · cases h; exact .inr (.inr ⟨_, .read 0x0004 rfl⟩)
    | yield => exact .inr (.inr ⟨_, quietMove_engineTurn h⟩)
    | reset => exact .inl ⟨rest, hm⟩

/-! ## What an engine step of a command can do -/

/-- The ways an engine step of command `i` comes about while `BUSY = 1`. -/
inductive BusyStep (c : Config) (i : Instr) (s : State) : State → Prop where
  | drop (hi : i = .clr ∨ i = .wipe) : BusyStep c i s (dropWrite s)
  | start (hi : i = .gen) (h0 : s.seq.gidx = 0) : BusyStep c i s (genChecks c (clearDerivedState s))
  | raises (hi : i = .gen) (f : Cause) : BusyStep c i s (raise f s)
  | completes (hi : i = .gen) : BusyStep c i s (complete s)
  | place (hi : i = .gen) (e : Element) (k : Kind) : BusyStep c i s (elementBody c e (advancePc k) s)
  | element (e : Element) (he : Instr.element i = some e) : BusyStep c i s (elementBody c e complete s)

theorem busyStep_commandStep (c : Config) (i : Instr) {s : State} (hb : s.flags.busy = true) :
    BusyStep c i s (commandStep c i s) := by
  obtain rfl | rfl | ⟨-, -, rfl | ⟨e, he⟩⟩ := Instr.element_cases i
  · have hclr : commandStep c .clr s = dropWrite s := if_pos hb
    rw [hclr]; exact .drop (.inl rfl)
  · have hwipe : commandStep c .wipe s = dropWrite s := if_pos hb
    rw [hwipe]; exact .drop (.inr rfl)
  · rw [commandStep_gen_busy c s hb, genBody]
    split
    · next h0 => exact .start rfl h0
    · obtain ⟨f, hf⟩ | ⟨t, k, -, -, ⟨-, hend⟩ | ⟨e, -, hbody⟩⟩ := genElement_cases c s
      · rw [hf]; exact .raises rfl f
      · rw [hend]; exact .completes rfl
      · rw [hbody]; exact .place rfl e k
  · rw [commandStep_busy c i e s he hb]; exact .element e he

/-! ## The inputs and the host's port under a command's step -/

/-- `KEYSIZE` and the host's port. -/
def State.keySizeAndPort (s : State) : Word × HostPort := (s.keySize, s.host)

theorem keySizeAndPort_elementBody (c : Config) (e : Element) {fin : State → State} (s : State)
    (hfin : ∀ u, (fin u).keySizeAndPort = u.keySizeAndPort) :
    (elementBody c e fin s).keySizeAndPort = s.keySizeAndPort := by
  obtain ⟨u, hk, hu⟩ := elementBody_stepsTo c e fin s
  have hkept : u.keySizeAndPort = s.keySizeAndPort := Prod.ext hk.keySize hk.host
  obtain hu | ⟨f, hu⟩ | hu := hu <;> rw [hu, ← hkept]
  · rfl
  · exact hfin u

theorem keySizeAndPort_genChecks (c : Config) (s : State) :
    (genChecks c s).keySizeAndPort = s.keySizeAndPort := by
  obtain ⟨f, hf⟩ | ⟨t, k, -, -, hpc⟩ := genChecks_cases c s
  · rw [hf]; rfl
  · rw [hpc]; rfl

/-- A running command writes neither `KEYSIZE` nor the host's port (R84). -/
theorem BusyStep.keySizeAndPort {c : Config} {i : Instr} {s t : State} (h : BusyStep c i s t) :
    t.keySizeAndPort = s.keySizeAndPort := by
  cases h with
  | drop | raises | completes => rfl
  | start => exact keySizeAndPort_genChecks c (clearDerivedState s)
  | place _ e k => exact keySizeAndPort_elementBody c e s fun _ => rfl
  | element e => exact keySizeAndPort_elementBody c e s fun _ => rfl

theorem accept_keySizeAndPort (i : Instr) (s : State) : (accept i s).keySizeAndPort = s.keySizeAndPort := by
  unfold accept
  split <;> rfl

/-- No command writes the host's port, and none but WIPE writes `KEYSIZE` (R32, R222). -/
theorem commandStep_keySizeAndPort (c : Config) (i : Instr) (s : State) :
    (commandStep c i s).host = s.host ∧ (i ≠ .wipe → (commandStep c i s).keySize = s.keySize) := by
  cases hb : s.flags.busy
  case true =>
    have h := (busyStep_commandStep c i hb).keySizeAndPort
    exact ⟨congrArg Prod.snd h, fun _ => congrArg Prod.fst h⟩
  case false =>
    obtain rfl | rfl | ⟨hclr, hwipe, -⟩ := Instr.element_cases i
    · have hclr : commandStep c .clr s = clearDerivedState (latchCommand .clr s) := if_neg (by simp [hb])
      rw [hclr]
      exact ⟨rfl, fun _ => rfl⟩
    · refine ⟨?_, fun h => absurd rfl h⟩
      show (wipe s).host = s.host
      rw [wipe, if_neg (by simp [hb])]
      rfl
    · rw [commandStep_idle c i s hclr hwipe hb]
      have h := accept_keySizeAndPort i s
      exact ⟨congrArg Prod.snd h, fun _ => congrArg Prod.fst h⟩

theorem inputsKept_of_sameStorage {s t : State} (h : SameStorage s t) (hk : t.keySize = s.keySize) :
    InputsKept s t := ⟨fun a => by rw [h.mem], h.inputReg, hk⟩

theorem inputsKept_commandStep (c : Config) {i : Instr} (hwipe : i ≠ .wipe) (s : State) :
    InputsKept s (commandStep c i s) :=
  inputsKept_of_sameStorage (sameStorage_commandStep c hwipe s) ((commandStep_keySizeAndPort c i s).2 hwipe)

/-- A running engine drops WIPE too, and keeps the inputs under any command (R84). -/
theorem inputsKept_commandStep_busy (c : Config) (i : Instr) {s : State} (hb : s.flags.busy = true) :
    InputsKept s (commandStep c i s) := by
  by_cases hwipe : i = .wipe
  · have hdrop : commandStep c .wipe s = dropWrite s := if_pos hb
    rw [hwipe, hdrop]
    exact inputsKept_of_sameStorage (sameStorage_dropWrite s) rfl
  · exact inputsKept_commandStep c hwipe s

/-- Settles O26: of the ways a step comes about, reset and the host's writes are shut out. -/
theorem busyCommandIsolated : Obligations.BusyCommandIsolated := by
  intro s t hb hreset hst
  obtain ⟨rest, hr⟩ | ⟨w, rest, -, hidle, -⟩ | ⟨p, hq⟩ := step_script_cases hst
  · exact absurd hr (hreset rest)
  · rw [hb] at hidle; cases hidle
  · cases hq with
    | engine i _ _ ht => rw [ht]; exact inputsKept_commandStep_busy _ i (s := { s with host := p }) hb
    | read off ht => rw [ht, hostRead_eq]; exact inputsKept_of_sameStorage ⟨rfl, rfl, rfl, rfl, rfl⟩ rfl
    | drop ht => rw [ht]; exact inputsKept_of_sameStorage ⟨rfl, rfl, rfl, rfl, rfl⟩ rfl
    | inputs hidle => rw [hb] at hidle; cases hidle

/-! ## The frame of an element's step -/

/-- What an element's step leaves of the flags, `CUR`, `ERR`, the counters, the derived registers and the record before
a fault or the element's end (R33, R35, R38). -/
structure ElementFrame (e : Element) (s u : State) : Prop where
  flags : ∃ o, u.flags = { s.flags with ovf := s.flags.ovf || o } ∧ (o = false ∨ ∃ w : Which, e = w.element)
  cur : u.seq.cur = s.seq.cur
  err : u.err = s.err
  iterP : u.counters.iterP = s.counters.iterP ∨ e = .psrch
  iterQ : u.counters.iterQ = s.counters.iterQ ∨ e = .qsrch
  rounds : u.counters.rounds = s.counters.rounds ∨ e.derives
  derived : ∀ i, Instr.element i = some e → DerivedKept (destinations i) s.derived u.derived
  out : u.out = s.out ∨ e = .rsaexp ∨ e = .ecexp

/-- A step that touches neither flags nor counters. -/
theorem elementFrame_of_counters {e : Element} {s u : State} (hflags : u.flags = s.flags)
    (hcur : u.seq.cur = s.seq.cur) (herr : u.err = s.err) (hcount : u.counters = s.counters)
    (hd : ∀ i, Instr.element i = some e → DerivedKept (destinations i) s.derived u.derived)
    (hout : u.out = s.out ∨ e = .rsaexp ∨ e = .ecexp) : ElementFrame e s u where
  flags := ⟨false, by simp [hflags], .inl rfl⟩
  cur := hcur
  err := herr
  iterP := .inl (by rw [hcount])
  iterQ := .inl (by rw [hcount])
  rounds := .inl (by rw [hcount])
  derived := hd
  out := hout

theorem derivedKept_refl (l : List Reg) (d : Derived) : DerivedKept l d d := by simp [DerivedKept]

theorem ElementFrame.refl (e : Element) (s : State) : ElementFrame e s s :=
  elementFrame_of_counters rfl rfl rfl rfl (fun _ _ => derivedKept_refl _ _) (.inl rfl)

theorem elementFrame_hmacRound (c : Config) {e : Element} (he : e.derives) (key : Bytes) (s : State) :
    ElementFrame e s (hmacRound c key s) := by
  have hrefl : ∀ i, Instr.element i = some e → DerivedKept (destinations i) s.derived s.derived :=
    fun _ _ => derivedKept_refl _ _
  unfold hmacRound countRound
  dsimp only
  split <;> exact ⟨⟨false, by simp, .inl rfl⟩, rfl, rfl, .inl rfl, .inl rfl, .inr he, hrefl, .inl rfl⟩

/-- Two step commands run different elements. -/
theorem Instr.eq_of_element {i j : Instr} {e : Element} (hi : Instr.element i = some e)
    (hj : Instr.element j = some e) : i = j :=
  opcode_injective ((Instr.element_sub hi).symm.trans (Instr.element_sub hj))

/-- A search touches its own counter alone (R38). -/
def CountersKept (w : Which) (k k' : Counters) : Prop :=
  (k'.iterP = k.iterP ∨ w = .p) ∧ (k'.iterQ = k.iterQ ∨ w = .q) ∧ k'.rounds = k.rounds

theorem countersKept_refl (w : Which) (k : Counters) : CountersKept w k k := ⟨.inl rfl, .inl rfl, rfl⟩

theorem countersKept_zeroCounter (w : Which) (k : Counters) : CountersKept w k (w.zeroCounter k) := by
  cases w <;> simp [CountersKept, Which.zeroCounter]

theorem countersKept_countTest (c : Config) (w : Which) (s : State) :
    CountersKept w s.counters (s.countTest c w).counters := by
  unfold State.countTest
  dsimp only
  split
  · cases w <;> simp [CountersKept, Which.bumpCounter]
  · exact countersKept_refl w s.counters

theorem elementFrame_search {s u : State} {w : Which} (hcount : CountersKept w s.counters u.counters) (o : Bool)
    (hflags : u.flags = { s.flags with ovf := s.flags.ovf || o }) (hcur : u.seq.cur = s.seq.cur)
    (herr : u.err = s.err) (hout : u.out = s.out) (hd : DerivedKept (destinations w.instr) s.derived u.derived) :
    ElementFrame w.element s u := by
  obtain ⟨hp, hq, hr⟩ := hcount
  have hinstr : ∀ i, Instr.element i = some w.element → i = w.instr := fun i hi =>
    Instr.eq_of_element hi (by cases w <;> rfl)
  exact ⟨⟨o, hflags, .inr ⟨w, rfl⟩⟩, hcur, herr, hp.imp_right (congrArg Which.element),
    hq.imp_right (congrArg Which.element), .inl hr, fun i hi => hinstr i hi ▸ hd, .inl hout⟩

theorem derivedKept_cand (w : Which) (d : Derived) (v : Option Nat) :
    DerivedKept (destinations w.instr) d { d with cand := v } := by
  cases w <;> simp [DerivedKept, destinations, Which.instr]

theorem elementFrame_countTest (c : Config) (w : Which) (s : State) :
    ElementFrame w.element s (s.countTest c w) :=
  elementFrame_search (countersKept_countTest c w s) false (by simp [State.countTest]) rfl rfl rfl
    (derivedKept_refl _ _)

theorem elementFrame_goesOn {c : Config} {e : Element} {s u : State} (h : GoesOn c s e u) : ElementFrame e s u := by
  cases h with
  | derive => exact elementFrame_of_counters rfl rfl rfl rfl (fun _ _ => derivedKept_refl _ _) (.inl rfl)
  | pgen =>
    refine elementFrame_of_counters rfl rfl rfl rfl (fun i hi => ?_) (.inl rfl)
    cases i <;> cases hi
    simp [DerivedKept, destinations]
  | round _ key he => exact elementFrame_hmacRound c he key s
  | search w b =>
    exact elementFrame_search (countersKept_zeroCounter w _) false (by simp) rfl rfl rfl (derivedKept_cand w _ _)
  | accepted w => exact elementFrame_search (countersKept_refl w _) false (by simp) rfl rfl rfl (derivedKept_refl _ _)
  | rejected w b v =>
    rw [noteOverflow_eq]
    exact elementFrame_search (countersKept_countTest c w s) _ rfl rfl rfl rfl (derivedKept_cand w _ _)

theorem elementFrame_ends {c : Config} {e : Element} {s u : State} (h : Ends c s e u) : ElementFrame e s u := by
  cases h with
  | search w b v =>
    rw [storeResult, noteOverflow_eq]
    refine elementFrame_search (countersKept_refl w _) _ rfl rfl rfl rfl ?_
    cases w <;> simp [DerivedKept, destinations, Which.instr, Which.storePrime]
  | rsaexp => exact elementFrame_of_counters rfl rfl rfl rfl (fun _ _ => derivedKept_refl _ _) (.inr (.inl rfl))
  | ecexp => exact elementFrame_of_counters rfl rfl rfl rfl (fun _ _ => derivedKept_refl _ _) (.inr (.inr rfl))
  | _ =>
    refine elementFrame_of_counters rfl rfl rfl rfl (fun i hi => ?_) (.inl rfl)
    cases i <;> cases hi <;> simp [DerivedKept, destinations]

/-- An element's step leads within its frame to a state where it goes on, raises, or ends. -/
theorem elementBody_frame (c : Config) (e : Element) (fin : State → State) (s : State) :
    ∃ u, ElementFrame e s u ∧ (elementBody c e fin s = u ∨ (∃ f, elementBody c e fin s = raise f u) ∨
      elementBody c e fin s = fin u) := by
  have h := elementBody_cases c e fin s
  generalize elementBody c e fin s = t at h ⊢
  cases h with
  | goesOn _ hu => exact ⟨t, elementFrame_goesOn hu, .inl rfl⟩
  | ends u hu => exact ⟨u, elementFrame_ends hu, .inr (.inr rfl)⟩
  | raises f => exact ⟨s, .refl e s, .inr (.inl ⟨f, rfl⟩)⟩
  | exhausted w he => subst he; exact ⟨_, elementFrame_countTest c w s, .inr (.inl ⟨_, rfl⟩)⟩

/-- The step commands that count HMAC rounds. -/
theorem Element.derives_instr {i : Instr} {e : Element} (hi : Instr.element i = some e) (he : e.derives) :
    i = .mkey ∨ i = .psec ∨ i = .pgen ∨ i = .qgen := by
  obtain rfl | rfl | rfl | rfl := he
  · exact .inl (Instr.eq_of_element hi rfl)
  · exact .inr (.inl (Instr.eq_of_element hi rfl))
  · exact .inr (.inr (.inl (Instr.eq_of_element hi rfl)))
  · exact .inr (.inr (.inr (Instr.eq_of_element hi rfl)))

/-- The element of a step command that neither raised nor ended, raised, or completed. -/
theorem stepCommand_frame {c : Config} {e : Element} {s t : State} (ht : elementBody c e complete s = t) :
    ∃ u, ElementFrame e s u ∧
      (t.flags.drop = u.flags.drop ∧ t.flags.rdErr = u.flags.rdErr ∧ t.flags.ovf = u.flags.ovf ∧
        t.seq.cur = u.seq.cur ∧ t.counters = u.counters) ∧
      ((t.flags.fault = true ∧ t.derived = Derived.invalid ∧ t.out = .none) ∨
        (t.flags.fault = u.flags.fault ∧ t.err = u.err ∧ t.derived = u.derived ∧ t.out = u.out)) := by
  obtain ⟨u, hu, hend⟩ := elementBody_frame c e complete s
  refine ⟨u, hu, ?_⟩
  rw [ht] at hend
  obtain rfl | ⟨f, rfl⟩ | rfl := hend
  · exact ⟨⟨rfl, rfl, rfl, rfl, rfl⟩, .inr ⟨rfl, rfl, rfl, rfl⟩⟩
  · exact ⟨⟨rfl, rfl, rfl, rfl, rfl⟩, .inl ⟨rfl, rfl, rfl⟩⟩
  · exact ⟨⟨rfl, rfl, rfl, rfl, rfl⟩, .inr ⟨rfl, rfl, rfl, rfl⟩⟩

/-- Settles O27: the inputs and the port of any command, and the frame of a step command's element. -/
theorem commandFrames : Obligations.CommandFrames := by
  refine ⟨fun i s t hst => ?_, fun i s t hclr hwipe hgen hb hf hst => ?_⟩
  · rw [exec_eq_commandStep] at hst
    cases hst
    exact ⟨(commandStep_keySizeAndPort _ i s).1, fun hwipe => inputsKept_commandStep _ hwipe s⟩
  obtain ⟨e, he⟩ : ∃ e, Instr.element i = some e := by
    obtain hi | hi | ⟨-, -, hi | he⟩ := Instr.element_cases i
    · exact absurd hi hclr
    · exact absurd hi hwipe
    · exact absurd hi hgen
    · exact he
  rw [exec_eq_commandStep, commandStep_busy _ i e s he hb] at hst
  obtain ⟨u, ⟨⟨o, hflags, ho⟩, hcur, herr, hp, hq, hr, hd, hout⟩, ⟨tdrop, trdErr, tovf, tcur, tcount⟩, hend⟩ :=
    stepCommand_frame (Host.Outcome.next.inj hst)
  have hcommand : ∀ j e', Instr.element j = some e' → e = e' → i = j := fun j e' hj h =>
    Instr.eq_of_element (h ▸ he) hj
  rw [tdrop, trdErr, tovf, tcur, tcount, hflags]
  refine ⟨rfl, rfl, hcur, ?_, hp.imp_right (hcommand .psrch _ rfl), hq.imp_right (hcommand .qsrch _ rfl),
    hr.imp_right (Element.derives_instr he), ?_, ?_⟩
  · obtain rfl | ⟨w, hw⟩ := ho
    · exact .inl (Bool.or_false _)
    · cases w
      · exact .inr (.inl (hcommand .psrch _ rfl hw))
      · exact .inr (.inr (hcommand .qsrch _ rfl hw))
  · intro hfault
    obtain ⟨-, hder, hnone⟩ | ⟨hfault', -⟩ := hend
    · exact ⟨hder, hnone⟩
    · rw [hfault', hflags, hf] at hfault; cases hfault
  · intro hfault
    obtain ⟨hfault', -⟩ | ⟨-, terr, tder, tout⟩ := hend
    · rw [hfault'] at hfault; cases hfault
    · rw [terr, tder, tout]
      exact ⟨herr, hd i he, hout.imp_right (Or.imp (hcommand .rsaexp _ rfl) (hcommand .ecexp _ rfl))⟩

/-! ## The sticky flags -/

/-- None of `DROP`, `RDERR` and `OVF` falls. -/
def StickyKept (s t : State) : Prop :=
  (s.flags.drop = true → t.flags.drop = true) ∧ (s.flags.rdErr = true → t.flags.rdErr = true) ∧
    (s.flags.ovf = true → t.flags.ovf = true)

theorem StickyKept.not_fallen {s t : State} (h : StickyKept s t) :
    ¬ ((s.flags.drop = true ∧ t.flags.drop = false) ∨ (s.flags.rdErr = true ∧ t.flags.rdErr = false) ∨
      (s.flags.ovf = true ∧ t.flags.ovf = false)) := by
  obtain ⟨hd, hr, ho⟩ := h
  rintro (⟨h1, h0⟩ | ⟨h1, h0⟩ | ⟨h1, h0⟩)
  · rw [hd h1] at h0; cases h0
  · rw [hr h1] at h0; cases h0
  · rw [ho h1] at h0; cases h0

theorem stickyKept_of_flags {s t : State} (h : t.flags = s.flags) : StickyKept s t := by simp [StickyKept, h]

theorem stickyKept_dropWrite (s : State) : StickyKept s (dropWrite s) := ⟨fun _ => rfl, id, id⟩

theorem stickyKept_hostRead (c : Config) (off : Nat) (s : State) : StickyKept s (hostRead c off s) := by
  refine ⟨?_, ?_, ?_⟩ <;> simp +contextual [hostRead, readEffect_eq]

theorem stickyKept_accept (i : Instr) (s : State) : StickyKept s (accept i s) := by
  unfold accept
  split
  · exact stickyKept_dropWrite s
  · exact ⟨id, id, id⟩

theorem stickyKept_elementBody (c : Config) (e : Element) {fin : State → State} (s : State)
    (hfin : ∀ u, StickyKept u (fin u)) : StickyKept s (elementBody c e fin s) := by
  obtain ⟨u, hu, ht⟩ := elementBody_frame c e fin s
  obtain ⟨o, hflags, -⟩ := hu.flags
  have hkept : StickyKept s u := by simp +contextual [StickyKept, hflags]
  obtain ht | ⟨f, ht⟩ | ht := ht <;> rw [ht]
  · exact hkept
  · exact hkept
  · obtain ⟨hd, hr, ho⟩ := hkept
    obtain ⟨hd', hr', ho'⟩ := hfin u
    exact ⟨hd' ∘ hd, hr' ∘ hr, ho' ∘ ho⟩

/-- A running command lowers a sticky flag only where GEN starts (R215). -/
theorem BusyStep.stickyKept {c : Config} {i : Instr} {s t : State} (h : BusyStep c i s t) :
    StickyKept s t ∨ (i = .gen ∧ s.seq.gidx = 0) := by
  cases h with
  | drop => exact .inl (stickyKept_dropWrite s)
  | start hi h0 => exact .inr ⟨hi, h0⟩
  | raises | completes => exact .inl ⟨id, id, id⟩
  | place _ e k => exact .inl (stickyKept_elementBody c e s fun _ => ⟨id, id, id⟩)
  | element e => exact .inl (stickyKept_elementBody c e s fun _ => ⟨id, id, id⟩)

/-- A command word at an idle engine lowers a sticky flag only where it is CLR's or WIPE's (R220, R222). -/
theorem stickyKept_writeCommand {c : Config} {w : Word} {s t : State} (hb : s.flags.busy = false)
    (h : writeCommand (runWith c) w s = .next t) : StickyKept s t ∨ w = encode .clr ∨ w = encode .wipe := by
  unfold writeCommand at h
  split at h
  · cases h; exact .inl (stickyKept_dropWrite s)
  · split at h
    · cases h; exact .inl ⟨id, id, id⟩
    · next i hw =>
      cases h
      obtain rfl | rfl | ⟨hclr, hwipe, -⟩ := Instr.element_cases i
      · exact .inr (.inl (decode_eq_some_iff.mp hw))
      · exact .inr (.inr (decode_eq_some_iff.mp hw))
      · rw [commandStep_idle c i s hclr hwipe hb]
        exact .inl (stickyKept_accept i s)

/-- Settles O24: every other way a step comes about keeps the three flags. -/
theorem stickyFlags : Obligations.StickyFlags := by
  intro s t hst hfall
  have hnot : ¬ StickyKept s t := fun h => h.not_fallen hfall
  obtain hreset | ⟨w, rest, hscript, hb, hw⟩ | ⟨p, hq⟩ := step_script_cases hst
  · exact .inl hreset
  · have hword := (stickyKept_writeCommand (by exact hb) hw).resolve_left hnot
    exact .inr (.inl ⟨hb, w, rest, hscript, hword⟩)
  · cases hq with
    | engine i hb hi ht =>
      obtain ⟨rfl, h0⟩ := (busyStep_commandStep Config.platform i hb).stickyKept.resolve_left (ht ▸ hnot)
      exact .inr (.inr ⟨hb, decode_wordOfOpcode_iff.mp hi, h0⟩)
    | read off ht => rw [ht] at hnot; exact absurd (stickyKept_hostRead _ off { s with host := p }) hnot
    | drop ht => rw [ht] at hnot; exact absurd (stickyKept_dropWrite { s with host := p }) hnot
    | inputs _ hf => exact absurd (stickyKept_of_flags hf) hnot

end Sys2Proof.Machine

namespace Sys2Proof.Machine

/-! ## The state after reset -/

/-- Settles O18. -/
theorem resetState : Obligations.ResetState :=
  ⟨fun _ => rfl, fun b => by cases b <;> rfl, fun b => by cases b <;> rfl, rfl, rfl, rfl, rfl, fun _ => rfl, rfl, rfl,
    rfl, rfl, rfl, rfl, rfl, rfl, rfl, rfl⟩

/-- Settles O60: reset leaves nothing for an invariant to speak of. -/
theorem invariantsAtReset : Obligations.InvariantsAtReset :=
  ⟨storageInv_cleared _ rfl fun b => by cases b <;> rfl, lifecycleInv_resetEvent State.reset,
    (settled_invalid rfl rfl).invs⟩

/-! ## The words of STATUS and ERR -/

/-- `ERR`'s word as a number: `CODE + 256 * INFO` (R37). -/
theorem errWord_eq (e : Err) : errWord e = BitVec.ofNat 32 (e.code.toNat + 256 * e.info.toNat) := by
  have hc := e.code.isLt
  have hi := e.info.isLt
  have hinfo : ((0 : BitVec 16) ++ e.info).toNat = e.info.toNat := by rw [BitVec.toNat_append]; simp
  apply BitVec.eq_of_toNat_eq
  rw [errWord, BitVec.toNat_append, hinfo, BitVec.toNat_ofNat, ← Nat.shiftLeft_add_eq_or_of_lt hc, Nat.shiftLeft_eq]
  omega

theorem errWord_fields (e : Err) : (errWord e).extractLsb' 0 8 = e.code ∧ (errWord e).extractLsb' 8 8 = e.info ∧
    (errWord e).extractLsb' 16 16 = 0 := by
  unfold errWord
  refine ⟨BitVec.extractLsb'_append_eq_right, ?_, ?_⟩ <;> rw [BitVec.extractLsb'_append_eq_of_le (by decide)]
  · exact BitVec.extractLsb'_append_eq_right
  · exact BitVec.extractLsb'_append_eq_left

/-- The length is clamped to a byte (R230). -/
theorem errWord_unsupportedKeyType (n : Nat) :
    errWord (Cause.unsupportedKeyType n).err = BitVec.ofNat 32 (0x01 + 256 * min n 255) := by
  have hmin : min n 255 % 2 ^ 8 = min n 255 := Nat.mod_eq_of_lt (Nat.lt_succ_of_le (Nat.min_le_right n 255))
  rw [errWord_eq, Cause.err, BitVec.toNat_ofNat, hmin]
  rfl

/-- The flags stand at bits 5:0 of `STATUS`, the valid bits at 11:8 (R35). -/
theorem statusWord_bits (s : State) :
    (statusWord s).getLsbD 0 = s.flags.busy ∧ (statusWord s).getLsbD 1 = s.flags.done ∧
      (statusWord s).getLsbD 2 = s.flags.fault ∧ (statusWord s).getLsbD 3 = s.flags.ovf ∧
      (statusWord s).getLsbD 4 = s.flags.drop ∧ (statusWord s).getLsbD 5 = s.flags.rdErr ∧
      (statusWord s).getLsbD 8 = s.seed.valid ∧ (statusWord s).getLsbD 9 = s.did.valid ∧
      (statusWord s).getLsbD 10 = s.peer.valid ∧ (statusWord s).getLsbD 11 = s.ktype.valid := by
  unfold statusWord
  refine ⟨?_, ?_, ?_, ?_, ?_, ?_, ?_, ?_, ?_, ?_⟩ <;> (repeat rw [BitVec.getLsbD_append]) <;> simp

/-- `CUR` stands in 23:16 of `STATUS`, and the reserved fields are 0 (R35). -/
theorem statusWord_fields (s : State) :
    (statusWord s).extractLsb' 6 2 = 0 ∧ (statusWord s).extractLsb' 12 4 = 0 ∧
      (statusWord s).extractLsb' 16 8 = s.seq.cur ∧ (statusWord s).extractLsb' 24 8 = 0 := by
  unfold statusWord
  refine ⟨?_, ?_, ?_, ?_⟩ <;> iterate 6 rw [BitVec.extractLsb'_append_eq_of_le (by decide)]
  · exact BitVec.extractLsb'_append_eq_right
  all_goals iterate 5 rw [BitVec.extractLsb'_append_eq_of_le (by decide)]
  · exact BitVec.extractLsb'_append_eq_right
  all_goals rw [BitVec.extractLsb'_append_eq_of_le (by decide)]
  · exact BitVec.extractLsb'_append_eq_right
  · exact BitVec.extractLsb'_append_eq_left

/-- Settles O7, from the bits and fields of the two words; the words of the faults are `errWord_eq`. -/
theorem statusAndErrWords : Obligations.StatusAndErrWords := by
  refine ⟨fun s => ?_, errWord_fields, errWord_unsupportedKeyType, fun _ => errWord_eq _,
    fun w => by cases w <;> rfl, fun _ => errWord_eq _, rfl, fun _ => errWord_eq _,
    rfl, rfl, rfl, rfl, rfl, rfl, rfl, rfl, rfl, rfl, rfl, rfl, rfl, rfl, rfl, rfl, rfl, rfl, rfl, rfl, rfl⟩
  obtain ⟨h0, h1, h2, h3, h4, h5, h8, h9, h10, h11⟩ := statusWord_bits s
  obtain ⟨hr7, hr15, hcur, hr31⟩ := statusWord_fields s
  exact ⟨h0, h1, h2, h3, h4, h5, hr7, h8, h9, h10, h11, hr15, hcur, hr31⟩

end Sys2Proof.Machine

namespace Sys2Proof.Machine

/-! ## Accesses that are no move of the host -/

theorem accessFault_misaligned {off : Nat} (h : off % 4 ≠ 0) : accessFault off = some (.misalignedAccess off) := by
  rw [accessFault, if_pos h]

theorem accessFault_outside {off : Nat} (h4 : off % 4 = 0) (h : 0x3FFC < off) :
    accessFault off = some (.outsideSpace off) := by
  rw [accessFault, if_neg (not_not_intro h4), if_pos h]

theorem step_badAccess (s : State) {off : Nat} {f : Fault} (v : Word) (h : accessFault off = some f) :
    step (s.withMove (.read off)) = .fault f ∧ step (s.withMove (.write off v)) = .fault f := by
  simp only [step_withMove, hostMove, h, and_self]

/-- Settles O17: the check of the offset comes before anything an access does. -/
theorem badAccessesStop : Obligations.BadAccessesStop := fun s _ v =>
  ⟨fun h => step_badAccess s v (accessFault_misaligned h), fun h4 h => step_badAccess s v (accessFault_outside h4 h)⟩

end Sys2Proof.Machine

namespace Sys2Proof.Machine

/-! ## Reads: the word and the side effect -/

/-- The offsets outside the two windows of `OUT` (R71). -/
theorem inOutWindow_eq_false {off : Nat} (h : off < 0x1000 ∨ (0x1C00 ≤ off ∧ off ≤ 0x1FFF) ∨ 0x3000 ≤ off) :
    inOutWindow off = false := by
  rw [Bool.eq_false_iff, Ne, inOutWindow_iff]
  omega

/-- Outside the windows of `OUT` a read changes nothing but the host's word (R77). -/
theorem hostRead_of_not_window (c : Config) {off : Nat} (h : inOutWindow off = false) (s : State) :
    hostRead c off s = returnWord (readWord c off s) s := by
  rw [hostRead, readEffect_eq, h, Bool.false_and, Bool.or_false]

theorem step_read_of_not_window (s : State) {off : Nat} (h4 : off % 4 = 0) (h : off ≤ 0x3FFC)
    (hw : inOutWindow off = false) :
    step (s.withMove (.read off)) = .next (returnWord (readWord Config.platform off s) s) := by
  rw [step_read s h4 h, hostRead_of_not_window _ hw]

theorem readWord_unmapped {c : Config} {off : Nat} (h : locate c off = .unmapped) (s : State) :
    readWord c off s = 0 := by
  rw [readWord, h]

theorem readWord_window (c : Config) {off : Nat} (h : inOutWindow off = true) (s : State) :
    readWord c off s = outWord s.shownOut off := by
  rw [readWord, locate_window h]

/-- The word a read returned is no part of what a read looks at. -/
theorem readWord_returnWord (c : Config) (off : Nat) (w : Word) (s : State) :
    readWord c off (returnWord w s) = readWord c off s := rfl

/-- The one flag a read may set is shown by `STATUS` alone, whose own read does not set it. -/
theorem readWord_hostRead (c : Config) (off : Nat) (s : State) :
    readWord c off (hostRead c off s) = readWord c off s := by
  cases hw : inOutWindow off
  · rw [hostRead_of_not_window c hw, readWord_returnWord]
  · rw [readWord_window c hw, readWord_window c hw, hostRead, readEffect_eq]
    rfl

/-- Everything a read does: the host's word, and `RDERR` when no field byte stands in a word of the windows (R77, R85). -/
theorem hostRead_word_rdErr (c : Config) (off : Nat) (s : State) :
    hostRead c off s = { s with
      flags := { s.flags with rdErr := s.flags.rdErr || (inOutWindow off && !outHasByte s.shownOut off) }
      host := { s.host with rdata := some (readWord c off s) } } := by
  rw [hostRead, readEffect_eq]
  rfl

theorem hostRead_hostRead (c : Config) (off : Nat) (s : State) :
    hostRead c off (hostRead c off s) = hostRead c off s := by
  have hshown : (hostRead c off s).shownOut = s.shownOut := by rw [hostRead_word_rdErr]; rfl
  rw [hostRead_word_rdErr c off (hostRead c off s), readWord_hostRead, hshown, hostRead_word_rdErr]
  simp only [Bool.or_assoc, Bool.or_self]

theorem outHasByte_none (off : Nat) : outHasByte .none off = false := rfl

/-- While a command runs no word of the windows holds a field byte (R265). -/
theorem outHasByte_shownOut (s : State) (off : Nat) :
    (!outHasByte s.shownOut off) = (s.flags.busy || !outHasByte s.out off) := by
  cases hb : s.flags.busy
  · rw [shownOut_idle hb, Bool.false_or]
  · rw [shownOut_busy hb, outHasByte_none, Bool.true_or, Bool.not_false]

/-- Settles O8: a read made again finds the state it left. -/
theorem readsHaveNoSideEffect : Obligations.ReadsHaveNoSideEffect := by
  intro s off h4 hoff
  have hwindow : decide ((0x1000 ≤ off ∧ off ≤ 0x1BFF) ∨ (0x2000 ≤ off ∧ off ≤ 0x2FFF)) = inOutWindow off := by
    rw [Bool.eq_iff_iff, inOutWindow_iff, decide_eq_true_iff]
  refine ⟨hostRead Config.platform off s, readWord Config.platform off s, step_read s h4 hoff, ?_, ?_⟩
  · rw [hwindow, ← outHasByte_shownOut]
    exact hostRead_word_rdErr _ off s
  · rw [step_read _ h4 hoff, hostRead_hostRead]

/-! ## Reads of registers and unmapped offsets -/

theorem kindCode_shownOut (s : State) :
    s.shownOut.kindCode = if s.flags.busy = true then 0 else s.out.kindCode :=
  apply_ite Out.kindCode _ _ _

theorem outLWord_shownOut (s : State) : BitVec.ofNat 32 s.shownOut.l =
    if s.flags.busy = true then 0 else match s.out with | .none => 0 | .rsa r => BitVec.ofNat 32 r.l | .ec _ => 0 := by
  unfold State.shownOut
  split
  · rfl
  · cases s.out <;> rfl

/-- The offsets the map leaves out, whatever the capacities are (R71). -/
theorem locate_unmapped (c : Config) {off : Nat}
    (h : (0x0034 ≤ off ∧ off ≤ 0x00FF) ∨ (0x0500 ≤ off ∧ off ≤ 0x0FFF) ∨ (0x1C00 ≤ off ∧ off ≤ 0x1FFF) ∨ 0x3000 ≤ off) :
    locate c off = .unmapped := by
  by_cases hlow : off < 0x0100
  · exact locate_low (by omega) hlow
  · exact locate_reserved (by omega) (inOutWindow_eq_false (by omega))

/-- Settles O6, offset by offset: none lies in a window of `OUT`, so all that is left is the word. -/
theorem registerReads : Obligations.RegisterReads := by
  intro s reads
  have register : ∀ {off : Nat} {w : Word}, off % 4 = 0 ∧ off ≤ 0x0030 →
      readWord Config.platform off s = w → reads off w := by
    rintro off w ⟨h4, hoff⟩ rfl
    exact step_read_of_not_window s h4 (by omega) (inOutWindow_eq_false (by omega))
  refine ⟨register (by decide) rfl, register (by decide) rfl, register (by decide) rfl, register (by decide) rfl,
    register (by decide) rfl, register (by decide) rfl, register (by decide) rfl, register (by decide) rfl,
    register (by decide) rfl, register (by decide) rfl, register (by decide) rfl,
    register (by decide) (kindCode_shownOut s), register (by decide) (outLWord_shownOut s), fun off h4 hoff => ?_⟩
  have hloc : locate Config.platform off = .unmapped := locate_unmapped _ (by omega)
  rw [← readWord_unmapped hloc s]
  exact step_read_of_not_window s h4 (by omega) (inOutWindow_eq_false (by omega))

/-! ## Writes that are dropped -/

/-- The locations at which a write of an idle engine's host does something; at the others, read-only or unmapped, it is
dropped (R74). -/
def Loc.writable (l : Loc) : Bool :=
  match l with
  | .cmd | .keySize | .len _ | .bytes _ => true
  | .status | .err | .iterP | .iterQ | .rounds | .outKind | .outL | .outWindow | .unmapped => false

section

variable {c : Config} {run : Instr → State → Host.Outcome State Fault Refusal} {off : Nat} {v : Word} {s : State}

theorem hostWrite_busy (h : s.flags.busy = true) : hostWrite c run off v s = .next (dropWrite s) := by
  rw [hostWrite, if_pos h]

theorem hostWrite_not_writable (h : (locate c off).writable = false) :
    hostWrite c run off v s = .next (dropWrite s) := by
  rw [hostWrite, ite_eq_left_iff]
  intro _
  cases hloc : locate c off with
  | cmd | keySize | len | bytes => rw [hloc] at h; cases h
  | _ => rfl

theorem hostWrite_len {b : Buf} (hb : s.flags.busy = false) (h : locate c off = .len b) :
    hostWrite c run off v s = .next (writeLength c b v s) := by
  rw [hostWrite, if_neg (by simp [hb]), h]

theorem hostWrite_keySize (hb : s.flags.busy = false) (h : locate c off = .keySize) :
    hostWrite c run off v s = .next { s with keySize := v } := by
  rw [hostWrite, if_neg (by simp [hb]), h]

theorem hostWrite_bytes {b : Buf} (hb : s.flags.busy = false) (h : locate c off = .bytes b) :
    hostWrite c run off v s = .next (writeBytes c b off v s) := by
  rw [hostWrite, if_neg (by simp [hb]), h]

end

theorem not_writable_high (c : Config) {off : Nat} (h : 0x0500 ≤ off) : (locate c off).writable = false := by
  rw [locate_high h]
  split <;> rfl

/-- Between the length registers and the buffers stand read-only registers and unmapped offsets (R71). -/
theorem not_writable_low (c : Config) {off : Nat} (h4 : off % 4 = 0) (h1 : 0x0020 ≤ off) (h2 : off ≤ 0x00FF) :
    (locate c off).writable = false := by
  obtain rfl | rfl | rfl | rfl | rfl | hbeyond :
      off = 0x0020 ∨ off = 0x0024 ∨ off = 0x0028 ∨ off = 0x002C ∨ off = 0x0030 ∨ 0x0034 ≤ off := by omega
  case inr.inr.inr.inr.inr => rw [locate_low hbeyond (by omega)]; rfl
  all_goals rfl

/-- Settles O9: while a command runs nothing is written, and none of the named offsets is writable. -/
theorem droppedWrites : Obligations.DroppedWrites := by
  intro s off v h4 hoff h
  rw [step_write s v h4 hoff]
  obtain hbusy | rfl | rfl | ⟨h1, h2⟩ | hhigh := h
  · exact hostWrite_busy hbusy
  · exact hostWrite_not_writable rfl
  · exact hostWrite_not_writable rfl
  · exact hostWrite_not_writable (not_writable_low _ h4 h1 h2)
  · exact hostWrite_not_writable (not_writable_high _ hhigh)

/-! ## Writes to KEYSIZE and to the length registers -/

/-- Settles O11: 0x000C is `KEYSIZE`, and its write has no condition but `BUSY = 0`. -/
theorem keySizeWrites : Obligations.KeySizeWrites := by
  intro s v hb
  rw [step_write s v (by decide) (by decide)]
  exact hostWrite_keySize hb rfl

theorem locate_lenOffset (c : Config) (b : Buf) : locate c b.lenOffset = .len b := by cases b <;> rfl

theorem lenOffset_aligned (b : Buf) : b.lenOffset % 4 = 0 ∧ b.lenOffset ≤ 0x3FFC := by cases b <;> decide

theorem step_write_lenOffset {s : State} (hb : s.flags.busy = false) (b : Buf) (v : Word) :
    step (s.withMove (.write b.lenOffset v)) = .next (writeLength Config.platform b v s) := by
  obtain ⟨h4, hoff⟩ := lenOffset_aligned b
  rw [step_write s v h4 hoff, hostWrite_len hb (locate_lenOffset _ b)]

theorem writeLength_accepted {c : Config} {b : Buf} {v : Word} (h : v.toNat ≤ b.capacity c) (s : State) :
    writeLength c b v s = s.setInputReg b ⟨v, true⟩ := by
  rw [writeLength, if_pos h]

/-- An accepted length makes the input that many first bytes of its array (R31, R80). -/
theorem input_setInputReg (s : State) (b : Buf) (v : Word) :
    (s.setInputReg b ⟨v, true⟩).input b = some (Memory.readBytes s.mem b.base v.toNat) := by
  rw [State.input, inputReg_setInputReg_same, if_pos rfl, setInputReg_mem]

/-- Settles O10; a length of 0 is within every capacity. -/
theorem lengthWrites : Obligations.LengthWrites := by
  intro s b v hb
  refine ⟨?_, input_setInputReg s b v, fun b' hne => inputReg_setInputReg_other s b b' _ hne, ?_, input_setInputReg s b 0⟩
  · rw [step_write_lenOffset hb, writeLength, apply_ite Host.Outcome.next]
    rfl
  · rw [step_write_lenOffset hb, writeLength_accepted (Nat.zero_le _)]

end Sys2Proof.Machine

namespace Sys2Proof.Machine

/-! ## The lanes of a bus word -/

/-- Lane `k` of a word is its byte `k` (R73). -/
theorem extractLsb'_laneWord (f : Nat → Byte) {k : Nat} (hk : k < 4) :
    (laneWord (f 0) (f 1) (f 2) (f 3)).extractLsb' (8 * k) 8 = f k := by
  unfold laneWord
  interval_cases k
  · exact BitVec.extractLsb'_append_eq_right
  · rw [BitVec.extractLsb'_append_eq_of_le (by decide)]
    exact BitVec.extractLsb'_append_eq_right
  · iterate 2 rw [BitVec.extractLsb'_append_eq_of_le (by decide)]
    exact BitVec.extractLsb'_append_eq_right
  · iterate 2 rw [BitVec.extractLsb'_append_eq_of_le (by decide)]
    exact BitVec.extractLsb'_append_eq_left

theorem extractLsb'_bufferWord (s : State) (off : Nat) {k : Nat} (hk : k < 4) :
    (bufferWord s off).extractLsb' (8 * k) 8 = Memory.read s.mem (off + k) :=
  extractLsb'_laneWord (fun k => Memory.read s.mem (off + k)) hk

theorem extractLsb'_outWord (o : Out) (off : Nat) {k : Nat} (hk : k < 4) :
    (outWord o off).extractLsb' (8 * k) 8 = (o.byteAt (off + k)).getD 0 :=
  extractLsb'_laneWord (fun k => (o.byteAt (off + k)).getD 0) hk

end Sys2Proof.Machine

namespace Sys2Proof.Machine

/-! ## The input arrays -/

theorem memory_wf_storeLane (c : Config) (b : Buf) (off : Nat) (v : Byte) {m : List Host.Cell}
    (h : Memory.wf m = true) : Memory.wf (storeLane c b off v m) = true := by
  unfold storeLane
  split
  · exact memory_wf_write m off v h
  · exact h

/-- A lane is stored at its offset, where a byte exists there (R78). -/
theorem memory_read_storeLane (c : Config) (b : Buf) (off : Nat) (v : Byte) {m : List Host.Cell}
    (h : Memory.wf m = true) (a : Nat) : Memory.read (storeLane c b off v m) a =
      if a = off ∧ b.holds c off = true then v else Memory.read m a := by
  unfold storeLane
  by_cases hb : b.holds c off = true
  · by_cases ha : a = off
    · rw [if_pos hb, if_pos ⟨ha, hb⟩, ha, memory_wf_read_write m off v h]
    · rw [if_pos hb, if_neg fun hn => ha hn.1, memory_read_write_other m off a v ha]
  · rw [if_neg hb, if_neg fun hn => hb hn.2]

/-- The four lanes of a write, one after the other, are the bytes of the word at their offsets. -/
theorem memory_read_writeBytes (c : Config) (b : Buf) (off : Nat) (v : Word) {s : State}
    (h : Memory.wf s.mem = true) (a : Nat) : Memory.read (writeBytes c b off v s).mem a =
      if off ≤ a ∧ a < off + 4 ∧ b.holds c a = true then v.extractLsb' (8 * (a - off)) 8
      else Memory.read s.mem a := by
  have h1 := memory_wf_storeLane c b off (v.extractLsb' 0 8) h
  have h2 := memory_wf_storeLane c b (off + 1) (v.extractLsb' 8 8) h1
  have h3 := memory_wf_storeLane c b (off + 2) (v.extractLsb' 16 8) h2
  rw [writeBytes, memory_read_storeLane c b _ _ h3, memory_read_storeLane c b _ _ h2, memory_read_storeLane c b _ _ h1,
    memory_read_storeLane c b _ _ h]
  by_cases hin : off ≤ a ∧ a < off + 4
  · obtain ⟨k, rfl⟩ := Nat.exists_eq_add_of_le hin.1
    have hk : k < 4 := by omega
    interval_cases k <;> simp
  · have hne : a ≠ off ∧ a ≠ off + 1 ∧ a ≠ off + 2 ∧ a ≠ off + 3 := by omega
    obtain ⟨n0, n1, n2, n3⟩ := hne
    simp only [n0, n1, n2, n3, false_and, if_false]
    rw [if_neg fun hn => hin ⟨hn.1, hn.2.1⟩]

/-- The windows of the buffers end at 0x04FF, and each begins at a multiple of 0x100 (R71). -/
theorem bufBase_bounds (b : Buf) : b.base % 0x100 = 0 ∧ b.base ≤ 0x0400 := by cases b <;> decide

/-- Settles O12: the word's lanes one by one below the capacity, an unmapped offset beyond it. -/
theorem byteArrayWrites : Obligations.ByteArrayWrites := by
  intro s b off v hb hwf h4 h1 h2
  obtain ⟨-, hbase⟩ := bufBase_bounds b
  rw [step_write s v h4 (by omega)]
  split
  · next hcap =>
    refine ⟨_, hostWrite_bytes hb (locate_buffer h1 hcap), fun a => ?_⟩
    have hcond : (off ≤ a ∧ a < off + 4 ∧ b.holds Config.platform a = true) ↔
        (off ≤ a ∧ a < off + 4 ∧ a < b.base + b.capacity Config.platform) := by
      simp only [Buf.holds, Bool.and_eq_true, decide_eq_true_eq]
      omega
    exact (memory_read_writeBytes _ b off v hwf a).trans (if_congr hcond rfl rfl)
  · next hcap =>
    have hloc : locate Config.platform off = .unmapped := locate_beyond (by omega) h2
    exact hostWrite_not_writable (by rw [hloc]; rfl)

/-- A byte beyond a capacity does not exist and reads 0 (R78). -/
theorem StorageInv.read_beyond {c : Config} {s : State} (h : StorageInv c s) {b : Buf} {a : Nat}
    (h1 : b.base + b.capacity c ≤ a) (h2 : a < b.base + 0x100) : Memory.read s.mem a = 0 := by
  by_contra hne
  obtain ⟨b', hb'⟩ := h.mapped a hne
  obtain ⟨hlo, hhi, -⟩ := holds_window hb'
  have hloc := locate_beyond h1 h2
  rw [locate_buffer hlo hhi] at hloc
  cases hloc

theorem readWord_bytes {c : Config} {b : Buf} {off : Nat} (hb : b ≠ .seed) (h : locate c off = .bytes b) (s : State) :
    readWord c off s = bufferWord s off := by
  rw [readWord, h]
  cases b with
  | seed => exact absurd rfl hb
  | did | peer | ktype => rfl

/-- The seed's bytes cannot be read back (R79), and beyond its capacity nothing is mapped. -/
theorem readWord_seed (c : Config) {off : Nat} (h1 : 0x0100 ≤ off) (h2 : off ≤ 0x01FF) (s : State) :
    readWord c off s = 0 := by
  by_cases hcap : off < Buf.seed.base + Buf.seed.capacity c
  · rw [readWord, locate_buffer h1 hcap]
  · exact readWord_unmapped (locate_beyond (Nat.le_of_not_lt hcap) (Nat.lt_succ_of_le h2)) s

/-- Settles O13: below the capacity the lanes are the array's, beyond it every byte is 0 by `StorageInv`. -/
theorem byteArrayReads : Obligations.ByteArrayReads := by
  refine ⟨fun s b off hinv hb h4 h1 h2 => ?_, fun s off h4 h1 h2 => ?_⟩
  · obtain ⟨haligned, hbase⟩ := bufBase_bounds b
    refine ⟨_, step_read_of_not_window s h4 (by omega) (inOutWindow_eq_false (by omega)), fun k hk => ?_⟩
    by_cases hcap : off < b.base + b.capacity Config.platform
    · rw [readWord_bytes hb (locate_buffer h1 hcap), extractLsb'_bufferWord s off hk]
    · rw [readWord_unmapped (locate_beyond (by omega) h2), hinv.read_beyond (b := b) (by omega) (by omega)]
      exact BitVec.extractLsb'_zero ..
  · rw [step_read_of_not_window s h4 (by omega) (inOutWindow_eq_false (by omega)), readWord_seed _ h1 h2]

end Sys2Proof.Machine

namespace Sys2Proof.Machine

/-! ## The output windows -/

/-- The slots of a record stand one after the other in the register space (R82, R83). -/
theorem slots_rising (o : Out) : o.slots.Pairwise fun a b => a.base + a.size ≤ b.base := by
  cases o <;> simp [Out.slots]

theorem Slot.byteAt_inside {sl : Slot} {off : Nat} (h1 : sl.base ≤ off) (h2 : off < sl.base + sl.size) :
    sl.byteAt off = sl.field[off - sl.base]? := by
  rw [Slot.byteAt, if_pos ⟨h1, h2⟩]

theorem Slot.byteAt_outside {sl : Slot} {off : Nat} (h : off < sl.base ∨ sl.base + sl.size ≤ off) :
    sl.byteAt off = none := by
  rw [Slot.byteAt, if_neg (by omega)]

/-- Among slots that follow one another, the one an offset lies in decides its byte. -/
theorem findSome_byteAt {sl : Slot} {off : Nat} (h1 : sl.base ≤ off) (h2 : off < sl.base + sl.size) {l : List Slot}
    (hl : l.Pairwise fun a b => a.base + a.size ≤ b.base) (hsl : sl ∈ l) :
    l.findSome? (fun sl => sl.byteAt off) = sl.byteAt off := by
  induction l with
  | nil => cases hsl
  | cons a l ih =>
    obtain ⟨hafter, hl⟩ := List.pairwise_cons.mp hl
    rw [List.findSome?_cons]
    obtain rfl | hsl := List.mem_cons.mp hsl
    · cases hbyte : sl.byteAt off with
      | some x => rfl
      | none =>
        refine List.findSome?_eq_none_iff.mpr fun b hb => Slot.byteAt_outside ?_
        have := hafter b hb
        omega
    · have := hafter sl hsl
      rw [Slot.byteAt_outside (by omega), ih hl hsl]

/-- Every slot of the record shows its field. -/
theorem shows_slot {o : Out} {sl : Slot} (h : sl ∈ o.slots) : Shows o sl.base sl.size sl.field := by
  intro i hi
  rw [Out.byteAt, findSome_byteAt (by omega) (by omega) (slots_rising o) h, Slot.byteAt_inside (by omega) (by omega),
    Nat.add_sub_cancel_left]

/-- A range that meets no slot shows nothing. -/
theorem shows_nothing {o : Out} {base size : Nat}
    (h : ∀ sl ∈ o.slots, sl.base + sl.size ≤ base ∨ base + size ≤ sl.base) : Shows o base size [] := by
  intro i hi
  rw [Out.byteAt, List.getElem?_nil, List.findSome?_eq_none_iff]
  intro sl hsl
  have := h sl hsl
  exact Slot.byteAt_outside (by omega)

/-- The base64url text of a string has four characters for three bytes, and no padding (R146). -/
theorem length_b64url (b : Bytes) : (b64url b).length = (4 * b.length + 2) / 3 := by
  induction b using b64url.induct with
  | case1 | case2 | case3 => simp [b64url]
  | case4 x y z rest ih =>
    simp only [b64url, List.length_cons, ih]
    omega

theorem FieldHeld.lengths {w : Nat} {f : OutField} (h : FieldHeld w f) :
    f.raw.length = w ∧ f.txt.length = (4 * w + 2) / 3 := by
  obtain ⟨hraw, htxt⟩ := h
  exact ⟨hraw, by rw [htxt, length_b64url, hraw]⟩

/-- Settles O15: the slots of each record in the order of the register space, the ranges between them, and the widths. -/
theorem outputWindows : Obligations.OutputWindows := by
  refine ⟨fun r => ?_, fun r => ?_, fun i _ => rfl, fun s r hinv hout => ?_, fun s r hinv hout => ?_⟩
  · have slots : ∀ sl ∈ (Out.rsa r).slots, Shows (.rsa r) sl.base sl.size sl.field := fun _ => shows_slot
    simp only [Out.slots, List.forall_mem_cons] at slots
    obtain ⟨e, n, d, p, q, dp, dq, qi, te, tn, td, tp, tq, tdp, tdq, tqi, -⟩ := slots
    exact ⟨e, shows_nothing (by simp [Out.slots]), n, d, p, q, dp, dq, qi, shows_nothing (by simp [Out.slots]),
      te, shows_nothing (by simp [Out.slots]), tn, td, tp, tq, tdp, tdq, tqi, shows_nothing (by simp [Out.slots])⟩
  · have slots : ∀ sl ∈ (Out.ec r).slots, Shows (.ec r) sl.base sl.size sl.field := fun _ => shows_slot
    simp only [Out.slots, List.forall_mem_cons] at slots
    obtain ⟨d, x, y, td, tx, ty, -⟩ := slots
    exact ⟨shows_nothing (by simp [Out.slots]), d, x, y, shows_nothing (by simp [Out.slots]),
      shows_nothing (by simp [Out.slots]), td, tx, ty, shows_nothing (by simp [Out.slots])⟩
  · simp only [OutInv, hout] at hinv
    obtain ⟨-, hl, -, he, hn, hd, hp, hq, hdp, hdq, hqi⟩ := hinv
    have := he.lengths
    have := hn.lengths
    have := hd.lengths
    have := hp.lengths
    have := hq.lengths
    have := hdp.lengths
    have := hdq.lengths
    have := hqi.lengths
    omega
  · simp only [OutInv, hout] at hinv
    obtain ⟨hd, hx, hy⟩ := hinv
    exact ⟨hd.lengths.1, hx.lengths.1, hy.lengths.1, hd.lengths.2, hx.lengths.2, hy.lengths.2⟩

/-! ## Reads of the output windows -/

/-- A word without a field byte has none in any of its lanes. -/
theorem outHasByte_eq_false_iff (o : Out) (off : Nat) :
    outHasByte o off = false ↔ ∀ k, k < 4 → o.byteAt (off + k) = none := by
  simp only [outHasByte, Bool.or_eq_false_iff, Option.isSome_eq_false_iff, Option.isNone_iff_eq_none]
  constructor
  · rintro ⟨⟨⟨h0, h1⟩, h2⟩, h3⟩ k hk
    interval_cases k <;> assumption
  · intro h
    exact ⟨⟨⟨h 0 (by decide), h 1 (by decide)⟩, h 2 (by decide)⟩, h 3 (by decide)⟩

theorem outWord_eq_zero {o : Out} {off : Nat} (h : ∀ k, k < 4 → o.byteAt (off + k) = none) : outWord o off = 0 := by
  have h0 : o.byteAt off = none := h 0 (by decide)
  rw [outWord, h0, h 1 (by decide), h 2 (by decide), h 3 (by decide)]
  rfl

theorem hostRead_valueless (c : Config) {off : Nat} {s : State} (hw : inOutWindow off = true)
    (h : outHasByte s.shownOut off = false) :
    hostRead c off s = returnWord 0 { s with flags := { s.flags with rdErr := true } } := by
  have hzero := outWord_eq_zero ((outHasByte_eq_false_iff _ _).mp h)
  rw [hostRead, readWord_window c hw, hzero, readEffect_eq, hw, h, Bool.not_false, Bool.and_self, Bool.or_true]

theorem hostRead_fieldByte (c : Config) {off : Nat} {s : State} (hw : inOutWindow off = true)
    (h : outHasByte s.shownOut off = true) : hostRead c off s = returnWord (outWord s.shownOut off) s := by
  rw [hostRead, readWord_window c hw, readEffect_eq, h, Bool.not_true, Bool.and_false, Bool.or_false]

/-- Settles O16: a word of the windows has a field byte in one of its lanes, or none. -/
theorem outputReads : Obligations.OutputReads := by
  intro s off h4 hrange
  have hw : inOutWindow off = true := (inOutWindow_iff off).mpr hrange
  rw [step_read s h4 (by omega)]
  refine ⟨fun hb => ?_, fun hb => ⟨outWord s.out off, fun k hk => extractLsb'_outWord s.out off hk, fun hnone => ?_, ?_⟩⟩
  · rw [hostRead_valueless _ hw (by rw [shownOut_busy hb, outHasByte_none])]
  · refine ⟨outWord_eq_zero hnone, ?_⟩
    rw [hostRead_valueless _ hw (by rw [shownOut_idle hb, outHasByte_eq_false_iff]; exact hnone)]
  · rintro ⟨k, hk, hsome⟩
    have hbyte : outHasByte s.shownOut off = true := by
      rw [shownOut_idle hb, ← Bool.not_eq_false, outHasByte_eq_false_iff]
      exact fun hnone => hsome (hnone k hk)
    rw [hostRead_fieldByte _ hw hbyte, shownOut_idle hb]

end Sys2Proof.Machine

namespace Sys2Proof.Machine

/-! ## The fields of a command word -/

/-- The operation codes in use are those of the rows of the opcode map. -/
theorem opcodesInUse_eq_map : opcodesInUse = opcodeMap.map fun r => opcode r.instr := rfl

theorem opcode_mem_opcodesInUse (i : Instr) : opcode i ∈ opcodesInUse := by cases i <;> decide

theorem mem_opcodesInUse_iff {b : Byte} : b ∈ opcodesInUse ↔ ∃ i, b = opcode i := by
  constructor
  · intro h
    rw [opcodesInUse_eq_map] at h
    obtain ⟨r, -, hr⟩ := List.mem_map.mp h
    exact ⟨r.instr, hr.symm⟩
  · rintro ⟨i, rfl⟩
    exact opcode_mem_opcodesInUse i

/-- A word is its two fields (R100). -/
theorem zeroField_append_opcField (w : Word) : w.extractLsb' 8 24 ++ opcField w = w := by
  rw [opcField, BitVec.extractLsb'_append_extractLsb'_eq_extractLsb' (by decide), BitVec.extractLsb'_eq_self]

/-- A word with field `ZERO` clear is a command's exactly when its field `OPC` is (R100). -/
theorem eq_encode_iff {w : Word} {i : Instr} : w = encode i ↔ w.extractLsb' 8 24 = 0 ∧ opcField w = opcode i := by
  constructor
  · rintro rfl
    cases i <;> decide
  · rintro ⟨hzero, hopc⟩
    rw [← zeroField_append_opcField w, hzero, hopc, encode]

theorem commandWordOk_iff {w : Word} : commandWordOk w = true ↔ ∃ i, w = encode i := by
  simp only [commandWordOk, zeroFieldOk, opcFieldOk, Bool.and_eq_true, beq_iff_eq, List.contains_iff_mem,
    mem_opcodesInUse_iff, eq_encode_iff, exists_and_left, opcField]

/-- The check of a command word is the decoder's (R103). -/
theorem commandWordOk_eq_isSome_decode (w : Word) : commandWordOk w = (decode w).isSome := by
  rw [Bool.eq_iff_iff, commandWordOk_iff, Option.isSome_iff_exists]
  simp only [decode_eq_some_iff]

/-- Settles O2: the decoder knows one word of each command, and the check of a word asks for the same two fields. -/
theorem decodeEncodeAgree : Obligations.DecodeEncodeAgree :=
  ⟨fun i _ => decode_encode i, fun _ _ => decode_eq_some_iff.mp, commandWordOk_eq_isSome_decode⟩

/-- Settles O1, by running the decoder on the eleven words. -/
theorem decodeWordsFromSpec : Obligations.DecodeWordsFromSpec := by
  unfold Obligations.DecodeWordsFromSpec
  decide

/-! ## Illegal words -/

/-- The operation codes not in use are 0x00 and the three gaps of the opcode map (R103). -/
theorem not_mem_opcodesInUse_iff (b : Byte) : b ∉ opcodesInUse ↔
    b = 0x00 ∨ (0x03 ≤ b.toNat ∧ b.toNat ≤ 0x0F) ∨ (0x1B ≤ b.toNat ∧ b.toNat ≤ 0x1F) ∨ 0x21 ≤ b.toNat := by
  simp only [opcodesInUse, List.mem_cons, List.not_mem_nil, or_false, BitVec.ofNat_eq_ofNat, BitVec.toNat_eq,
    BitVec.toNat_ofNat]
  omega

theorem decode_eq_none_iff {w : Word} : decode w = none ↔ w.extractLsb' 8 24 ≠ 0 ∨ opcField w ∉ opcodesInUse := by
  rw [← Option.isSome_eq_false_iff.trans Option.isNone_iff_eq_none, ← commandWordOk_eq_isSome_decode]
  simp [commandWordOk, zeroFieldOk, opcFieldOk, opcField, imp_iff_not_or]

/-! ## A write to `CMD` -/

/-- A write to `CMD` is dropped while a command runs, else judged by `writeCommand` (R84, R107). -/
theorem step_writeCmd (s : State) (w : Word) : step (s.withMove (.write 0x0000 w)) =
    if s.flags.busy = true then .next (dropWrite s) else writeCommand exec w s :=
  step_write s w (by decide) (by decide)

theorem leavesFault_eq_false_iff {w : Word} : leavesFault w = false ↔ w ≠ encode .clr ∧ w ≠ encode .wipe := by
  simp only [leavesFault, Bool.or_eq_false_iff, beq_eq_false_iff_ne]

theorem writeCommand_illegal (run : Instr → State → Host.Outcome State Fault Refusal) {s : State} {w : Word}
    (hf : s.flags.fault = false) (hw : decode w = none) : writeCommand run w s =
      .next (raise (.illegalCommand (opcField w))
        { s with flags := { s.flags with done := false }, seq := { s.seq with cur := opcField w } }) := by
  simp [writeCommand, hf, hw]

/-- Of two fault entries the later one stands alone (R240). -/
theorem raise_raise (f g : Cause) (s : State) : raise f (raise g s) = raise f s := rfl

/-- Settles O3: the fields of an illegal word, then the judging of a write at an idle engine outside the fault state. -/
theorem illegalWordRaises : Obligations.IllegalWordRaises := by
  refine ⟨fun w => decode_eq_none_iff.trans (or_congr_right (not_mem_opcodesInUse_iff _)), ?_⟩
  rintro s w ⟨hbusy, hfault⟩ hw
  have hstep := (step_writeCmd s w).trans (if_neg (by simp [hbusy]))
  rw [writeCommand_illegal exec hfault hw] at hstep
  exact ⟨_, hstep, (raise_raise _ _ _).symm, rfl, rfl, ⟨fun _ => rfl, fun b => by cases b <;> rfl, rfl⟩, rfl, rfl, rfl, rfl⟩

/-- Settles O4: the judging of a `CMD` write is `writeCommand`'s, and acceptance is the first step of every other command. -/
theorem commandWriteOrder : Obligations.CommandWriteOrder := by
  constructor
  · intro s w
    have hjudged : s.flags.fault = true ∧ leavesFault w = false ↔
        s.flags.fault = true ∧ w ≠ 0x00000001 ∧ w ≠ 0x00000002 := and_congr_right' leavesFault_eq_false_iff
    exact (step_writeCmd s w).trans (if_congr Iff.rfl rfl (if_congr hjudged rfl rfl))
  · rintro i s hclr hwipe ⟨hbusy, hfault⟩
    rw [exec_eq_commandStep, commandStep_idle _ i s hclr hwipe hbusy, accept_ready i s hfault]

end Sys2Proof.Machine

namespace Sys2Proof.Machine

/-! ## The bytes of `deriveBytes` -/

/-- Each round gives one digest of 64 bytes (R132). -/
theorem length_hmacChain (c : Config) (key : Bytes) (r : Nat) (msg : Bytes) :
    (hmacChain c key r msg).length = 64 * r := by
  induction r generalizing msg with
  | zero => rfl
  | succ r ih => rw [hmacChain, List.length_append, Vector.length_toList, ih]; omega

/-- Fewer rounds from the same message give the first digests of more rounds (R135). -/
theorem hmacChain_prefix (c : Config) (key : Bytes) {r r' : Nat} (h : r ≤ r') (msg : Bytes) :
    hmacChain c key r msg <+: hmacChain c key r' msg := by
  induction r generalizing r' msg with
  | zero => exact List.nil_prefix
  | succ r ih =>
    obtain ⟨k, rfl⟩ := Nat.exists_eq_add_of_lt h
    exact (List.prefix_append_right_inj _).mpr (ih (by omega) _)

theorem hmacRounds_le_iff {l r : Nat} : hmacRounds l ≤ r ↔ l ≤ 64 * r := by
  rw [hmacRounds]; omega

/-- `deriveBytes` is the first bytes of any number of rounds that gives enough of them (R131, R133). -/
theorem deriveBytes_eq_take_hmacChain (c : Config) (key : Bytes) {l r : Nat} (h : l ≤ 64 * r) (msg : Bytes) :
    deriveBytes c key l msg = (hmacChain c key r msg).take l := by
  obtain ⟨rest, hrest⟩ := hmacChain_prefix c key (hmacRounds_le_iff.mpr h) msg
  have henough : l ≤ (hmacChain c key (hmacRounds l) msg).length := by
    rw [length_hmacChain]; exact hmacRounds_le_iff.mp le_rfl
  rw [← hrest, List.take_append_of_le_length henough, deriveBytes]

@[simp] theorem length_deriveBytes (c : Config) (key : Bytes) (l : Nat) (msg : Bytes) :
    (deriveBytes c key l msg).length = l := by
  rw [deriveBytes, List.length_take, length_hmacChain]
  exact min_eq_left (hmacRounds_le_iff.mp le_rfl)

@[simp] theorem deriveBytes_zero (c : Config) (key msg : Bytes) : deriveBytes c key 0 msg = [] := rfl

theorem deriveBytes_eq_take (c : Config) (key : Bytes) {a b : Nat} (h : a ≤ b) (msg : Bytes) :
    deriveBytes c key a msg = (deriveBytes c key b msg).take a := by
  have hb : b ≤ 64 * hmacRounds b := hmacRounds_le_iff.mp le_rfl
  rw [deriveBytes_eq_take_hmacChain c key (h.trans hb), deriveBytes, List.take_take, min_eq_left h]

/-- The first 64 bytes are one digest, which is the message of what follows (R131). -/
theorem deriveBytes_sixtyFour_add (c : Config) (key : Bytes) (n : Nat) (msg : Bytes) :
    deriveBytes c key (64 + n) msg =
      (c.hmac key msg).toList ++ deriveBytes c key n (c.hmac key msg).toList := by
  have hn : n ≤ 64 * hmacRounds n := hmacRounds_le_iff.mp le_rfl
  calc deriveBytes c key (64 + n) msg
      = (hmacChain c key (hmacRounds n + 1) msg).take (64 + n) := deriveBytes_eq_take_hmacChain c key (by omega) msg
    _ = (c.hmac key msg).toList ++ deriveBytes c key n (c.hmac key msg).toList := by
      rw [hmacChain, List.take_append, Vector.length_toList, Nat.add_sub_cancel_left, deriveBytes,
        List.take_of_length_le (by rw [Vector.length_toList]; omega)]

theorem deriveBytes_sixtyFour (c : Config) (key msg : Bytes) :
    deriveBytes c key 64 msg = (c.hmac key msg).toList := by
  rw [deriveBytes_sixtyFour_add c key 0 msg, deriveBytes_zero, List.append_nil]

/-- Settles O48, from the one description of `deriveBytes` as the first bytes of a chain of digests. -/
theorem deriveBytesChain : Obligations.DeriveBytesChain := fun c key msg =>
  ⟨fun l => length_deriveBytes c key l msg, deriveBytes_zero c key msg, fun _ _ h => deriveBytes_eq_take c key h msg,
    deriveBytes_sixtyFour c key msg, fun n => deriveBytes_sixtyFour_add c key n msg⟩

/-! ## The engine steps of the deriving commands -/

/-- A running step command's `exec` is a step of its element (R221). -/
theorem exec_running {i : Instr} {e : Element} {s : State} (he : Instr.element i = some e) (hb : s.flags.busy = true) :
    exec i s = .next (elementBody Config.platform e complete s) := by
  rw [exec_eq_commandStep, commandStep_busy _ i e s he hb]

/-- Everything a round does (R133). -/
theorem hmacRound_eq (c : Config) (key : Bytes) (s : State) :
    hmacRound c key s = { s with
      seq := { s.seq with
        acc := s.seq.acc ++ (c.hmac key s.seq.chain).toList
        chain := (c.hmac key s.seq.chain).toList
        rnd := s.seq.rnd + 1 }
      counters := roundsAfter c 1 s.counters } := by
  unfold hmacRound countRound roundsAfter
  dsimp only
  split <;> rfl

section
variable (c : Config) (fin : State → State) {s : State} {seed did peer key : Bytes} {l : Nat}

/-! ### The four elements at their loop, the operands being there -/

theorem mkeyBody_loop (hp : s.seq.phase = .loop) (hseed : s.input .seed = some seed) (hdid : s.input .did = some did) :
    mkeyBody c fin s =
      deriveLoop c seed 64 (fun b => fin { s with derived := { s.derived with mk := some b } }) s := by
  rw [mkeyBody, hseed, hdid, need_some, need_some, hp]

theorem psecBody_loop (hp : s.seq.phase = .loop) (hpeer : s.input .peer = some peer) (hmk : s.derived.mk = some key) :
    psecBody c fin s =
      deriveLoop c key 64 (fun b => fin { s with derived := { s.derived with ps := some b } }) s := by
  rw [psecBody, hpeer, hmk, need_some, need_some, hp]

theorem pgenBody_loop (hp : s.seq.phase = .loop) (hpeer : s.input .peer = some peer) (hmk : s.derived.mk = some key)
    (hlb : s.derived.lb = some l) :
    pgenBody c fin s =
      deriveLoop c key l (fun b => fin { s with derived := { s.derived with pbase := some b } }) s := by
  rw [pgenBody, hpeer, hmk, need_some, need_some, hp, hlb]
  exact need_some _ _ _ _

theorem qgenBody_loop (hp : s.seq.phase = .loop) (hpeer : s.input .peer = some peer)
    (hpbase : s.derived.pbase = some key) (hlb : s.derived.lb = some l) :
    qgenBody c fin s =
      deriveLoop c key l (fun b => fin { s with derived := { s.derived with qbase := some b } }) s := by
  rw [qgenBody, hpeer, hpbase, hlb, need_some, need_some, need_some, hp]

end

/-- Settles O32: each of the four elements is at its loop, which is a round or the end of the command. -/
theorem derivingSteps : Obligations.DerivingSteps := by
  intro s hb hp
  refine ⟨fun seed did hseed hdid => ?_, fun peer mk hpeer hmk => ?_, fun peer mk l hpeer hmk hlb => ?_,
    fun peer pbase l hpeer hpbase hlb => ?_⟩
  · rw [exec_running rfl hb, elementBody, mkeyBody_loop _ _ hp hseed hdid, deriveLoop, hmacRound_eq]
  · rw [exec_running rfl hb, elementBody, psecBody_loop _ _ hp hpeer hmk, deriveLoop, hmacRound_eq]
  · rw [exec_running rfl hb, elementBody, pgenBody_loop _ _ hp hpeer hmk hlb, deriveLoop, hmacRound_eq]
  · rw [exec_running rfl hb, elementBody, qgenBody_loop _ _ hp hpeer hpbase hlb, deriveLoop, hmacRound_eq]

end Sys2Proof.Machine

namespace Sys2Proof.Machine

/-! ## Byte strings as integers, least significant byte first -/

theorem le2int_append (a b : Bytes) : le2int (a ++ b) = le2int a + 256 ^ a.length * le2int b := by
  induction a with
  | nil => simp [le2int]
  | cons x a ih =>
    simp only [List.cons_append, le2int, List.length_cons, ih]
    ring

/-- Reversing a string restores the big-endian weights (R141). -/
theorem le2int_reverse (b : Bytes) : le2int b.reverse = be2int b := by
  induction b with
  | nil => rfl
  | cons x b ih =>
    rw [List.reverse_cons, le2int_append, ih, List.length_reverse, be2int_cons, le2int, le2int]
    ring

theorem le2int_lt (b : Bytes) : le2int b < 256 ^ b.length := by
  have := be2int_lt b.reverse
  rwa [← le2int_reverse, List.reverse_reverse, List.length_reverse] at this

/-- The top byte of a string is below 128 exactly when its value is in the lower half of the range: `LE2INT_S` is two's
complement by value (R16). -/
theorem le2intS_eq (b : Bytes) :
    le2intS b = if 2 * le2int b < 256 ^ b.length then (le2int b : Int) else le2int b - 256 ^ b.length := by
  obtain rfl | ⟨a, top, rfl⟩ := List.eq_nil_or_concat' b
  · rfl
  · have hlt := le2int_lt a
    have hval : le2int (a ++ [top]) = le2int a + 256 ^ a.length * top.toNat := by simp [le2int_append, le2int]
    have hhalf : 2 * le2int (a ++ [top]) < 256 ^ (a ++ [top]).length ↔ top.toNat < 128 := by
      rw [hval, List.length_append, List.length_singleton, Nat.pow_succ]
      constructor
      · intro h
        nlinarith
      · intro h
        nlinarith
    simp only [le2intS, List.getLast?_concat, hhalf]

theorem le2intS_of_lower_half {b : Bytes} (h : 2 * le2int b < 256 ^ b.length) : le2intS b = le2int b := by
  rw [le2intS_eq, if_pos h]

/-- A string that stands for a natural number stands for it without its sign too. -/
theorem le2int_of_le2intS {r : Bytes} {v : Nat} (h : le2intS r = v) : le2int r = v := by
  rw [le2intS_eq] at h
  split at h
  · exact Int.ofNat_inj.mp h
  · have : (le2int r : Int) < 256 ^ r.length := mod_cast le2int_lt r
    omega

theorem le2intS_toLittleEndianSigned (b : Bytes) : le2intS (toLittleEndianSigned b) = be2int b := by
  have hval : le2int (toLittleEndianSigned b) = be2int b := by
    simp [toLittleEndianSigned, le2int_append, le2int_reverse, le2int]
  rw [le2intS_of_lower_half, hval]
  have := be2int_lt b
  rw [hval, toLittleEndianSigned, List.length_append, List.length_reverse, List.length_singleton, Nat.pow_succ]
  omega

/-- Settles O49: `toLittleEndianSigned` keeps the value, and its top byte is 0. -/
theorem integerOfBytes : Obligations.IntegerOfBytes :=
  fun b => ⟨rfl, le2intS_toLittleEndianSigned b, be2int_lt b⟩

end Sys2Proof.Machine

namespace Sys2Proof.Machine

/-! ## Byte strings as integers, most significant byte first -/

theorem be2int_append (a b : Bytes) : be2int (a ++ b) = be2int a * 256 ^ b.length + be2int b := by
  rw [be2int, List.foldl_append, foldl_be2int, ← be2int]

theorem be2int_replicate_zero (n : Nat) : be2int (List.replicate n 0x00) = 0 := by
  induction n with
  | zero => rfl
  | succ n ih => rw [List.replicate_succ, be2int_cons, ih, BitVec.ofNat_eq_ofNat, BitVec.toNat_zero, Nat.zero_mul]

/-- Leading zero bytes do not count. -/
theorem be2int_zeros_append (n : Nat) (b : Bytes) : be2int (List.replicate n 0x00 ++ b) = be2int b := by
  rw [be2int_append, be2int_replicate_zero, Nat.zero_mul, Nat.zero_add]

/-- Dropping leading bytes reduces the value modulo the range of the rest. -/
theorem be2int_drop (k : Nat) (b : Bytes) : be2int (b.drop k) = be2int b % 256 ^ (b.length - k) := by
  have happend := be2int_append (b.take k) (b.drop k)
  have hlt := be2int_lt (b.drop k)
  rw [List.take_append_drop] at happend
  rw [List.length_drop] at happend hlt
  rw [happend, Nat.mul_add_mod_of_lt hlt]

theorem toNat_ofNat_byte (n : Nat) : (BitVec.ofNat 8 n).toNat = n % 256 := BitVec.toNat_ofNat n 8

theorem be2int_beBytes (w v : Nat) : be2int (beBytes w v) = v % 256 ^ w := by
  induction w with
  | zero => simp [beBytes, be2int, Nat.mod_one]
  | succ w ih =>
    rw [beBytes, be2int_cons, length_beBytes, ih, toNat_ofNat_byte, Nat.mod_pow_succ, Nat.add_comm, Nat.mul_comm]

/-- Two strings of one length and one value are the same string. -/
theorem eq_of_be2int_eq {a b : Bytes} (hlen : a.length = b.length) (h : be2int a = be2int b) : a = b := by
  induction a generalizing b with
  | nil => exact (List.length_eq_zero_iff.mp hlen.symm).symm
  | cons x a ih =>
    obtain _ | ⟨y, b⟩ := b
    · cases hlen
    · have hlen' : a.length = b.length := Nat.succ.inj hlen
      rw [be2int_cons, be2int_cons, hlen'] at h
      have ha : be2int a < 256 ^ b.length := hlen' ▸ be2int_lt a
      have htail : be2int a = be2int b := by
        rw [← Nat.mul_add_mod_of_lt (a := x.toNat) ha, h, Nat.mul_add_mod_of_lt (be2int_lt b)]
      rw [htail] at h
      have hhead := Nat.eq_of_mul_eq_mul_right (by positivity) (Nat.add_right_cancel h)
      rw [BitVec.eq_of_toNat_eq hhead, ih hlen' htail]

/-! ## The conversions of R143 and R144 -/

theorem length_fixBE (v width : Nat) : (fixBE v width).length = width := length_beBytes _ _

theorem be2int_fixBE (v width : Nat) : be2int (fixBE v width) = v % 256 ^ width := by
  rw [fixBE, be2int_beBytes, Nat.mod_mod]

/-- `FIXBE` is the only string of its length and value. -/
theorem eq_fixBE {b : Bytes} {v width : Nat} (hlen : b.length = width) (h : be2int b = v % 256 ^ width) :
    b = fixBE v width :=
  eq_of_be2int_eq (hlen.trans (length_fixBE v width).symm) (h.trans (be2int_fixBE v width).symm)

theorem length_toFixedBigEndian (r : Bytes) (width : Nat) : (toFixedBigEndian r width).length = width := by
  unfold toFixedBigEndian
  split_ifs with hshort hlong
  · rw [List.length_append, List.length_replicate, List.length_reverse, Nat.sub_add_cancel hshort.le]
  · rw [List.length_drop, List.length_reverse, Nat.sub_sub_self hlong.le]
  · rw [List.length_reverse, Nat.le_antisymm (not_lt.mp hlong) (not_lt.mp hshort)]

/-- Padding keeps the value, and cutting reduces it (R144). -/
theorem be2int_toFixedBigEndian (r : Bytes) (width : Nat) :
    be2int (toFixedBigEndian r width) = le2int r % 256 ^ width := by
  have hrev : be2int r.reverse = le2int r := by rw [← le2int_reverse, List.reverse_reverse]
  have hmod (h : r.length ≤ width) : le2int r % 256 ^ width = le2int r :=
    Nat.mod_eq_of_lt ((le2int_lt r).trans_le (Nat.pow_le_pow_right (by decide) h))
  unfold toFixedBigEndian
  split_ifs with hshort hlong
  · rw [be2int_zeros_append, hrev, hmod hshort.le]
  · rw [be2int_drop, hrev, List.length_reverse, Nat.sub_sub_self hlong.le]
  · rw [hrev, hmod (not_lt.mp hlong)]

theorem toFixedBigEndian_eq_fixBE {r : Bytes} {v : Nat} (h : le2intS r = v) (width : Nat) :
    toFixedBigEndian r width = fixBE v width :=
  eq_fixBE (length_toFixedBigEndian r width) (by rw [be2int_toFixedBigEndian, le2int_of_le2intS h])

/-! ## The reference representation (R142) -/

theorem length_leBytes (w v : Nat) : (leBytes w v).length = w := by
  induction w generalizing v with
  | zero => rfl
  | succ w ih => rw [leBytes, List.length_cons, ih]

theorem le2int_leBytes (w v : Nat) : le2int (leBytes w v) = v % 256 ^ w := by
  induction w generalizing v with
  | zero => simp [leBytes, le2int, Nat.mod_one]
  | succ w ih => rw [leBytes, le2int, ih, toNat_ofNat_byte, Nat.pow_succ', Nat.mod_mul]

theorem lt_two_pow_bitLength (v : Nat) : v < 2 ^ bitLength v := by
  unfold bitLength
  split_ifs with h
  · simp [h]
  · exact Nat.lt_log2_self

/-- `LEREP` leaves the top bit of its top byte free for the sign. -/
theorem two_mul_lt_leRep (v : Nat) : 2 * v < 256 ^ (bitLength v / 8 + 1) := by
  have hbits : bitLength v + 1 ≤ 8 * (bitLength v / 8 + 1) := by omega
  calc 2 * v < 2 * 2 ^ bitLength v := by have := lt_two_pow_bitLength v; omega
    _ = 2 ^ (bitLength v + 1) := by rw [Nat.pow_succ']
    _ ≤ 2 ^ (8 * (bitLength v / 8 + 1)) := Nat.pow_le_pow_right (by decide) hbits
    _ = 256 ^ (bitLength v / 8 + 1) := Nat.pow_mul 2 8 _

theorem le2intS_leRep (v : Nat) : le2intS (leRep v) = v := by
  have hfree := two_mul_lt_leRep v
  have hval : le2int (leRep v) = v := by rw [leRep, le2int_leBytes, Nat.mod_eq_of_lt (by omega)]
  rw [le2intS_of_lower_half, hval]
  rwa [hval, leRep, length_leBytes]

/-- The fixed-width round trip (R145). -/
theorem toFixedBigEndian_toLittleEndianSigned {b : Bytes} {width : Nat} (h : b.length ≤ width) :
    toFixedBigEndian (toLittleEndianSigned b) width = List.replicate (width - b.length) 0x00 ++ b := by
  rw [toFixedBigEndian_eq_fixBE (le2intS_toLittleEndianSigned b)]
  have hlt : be2int b < 256 ^ width := (be2int_lt b).trans_le (Nat.pow_le_pow_right (by decide) h)
  refine (eq_fixBE ?_ ?_).symm
  · rw [List.length_append, List.length_replicate, Nat.sub_add_cancel h]
  · rw [be2int_zeros_append, Nat.mod_eq_of_lt hlt]

/-- Settles O50: each conversion is told by the length and the value of what it answers. -/
theorem fixedBigEndian : Obligations.FixedBigEndian :=
  ⟨fun _ width _ h => toFixedBigEndian_eq_fixBE h width, fun v width => ⟨length_fixBE v width, be2int_fixBE v width⟩,
    fun v => ⟨le2intS_leRep v, length_leBytes _ _⟩, fun _ _ => toFixedBigEndian_toLittleEndianSigned⟩

end Sys2Proof.Machine

namespace Sys2Proof.Machine

/-! ## The base64url alphabet (R146) -/

/-- The group a character of the alphabet stands for. -/
def b64Value (c : Byte) : Nat :=
  if c = 0x2D then 62
  else if c = 0x5F then 63
  else if c.toNat < 0x41 then c.toNat - 0x30 + 52
  else if c.toNat < 0x61 then c.toNat - 0x41
  else c.toNat - 0x61 + 26

theorem b64Value_b64Char : ∀ i < 64, b64Value (b64Char i) = i := by decide

/-- The 64 characters differ. -/
theorem eq_of_b64Char_eq {i j : Nat} (hi : i < 64) (hj : j < 64) (h : b64Char i = b64Char j) : i = j := by
  rw [← b64Value_b64Char i hi, h, b64Value_b64Char j hj]

/-! ## The text determines the bytes -/

/-- The bytes of a base64url text: four characters to three bytes, and the zero filling of a shorter rest dropped. -/
def b64bytes : Bytes → Bytes
  | c₀ :: c₁ :: c₂ :: c₃ :: rest =>
    BitVec.ofNat 8 (b64Value c₀ * 4 + b64Value c₁ / 16) ::
      BitVec.ofNat 8 (b64Value c₁ % 16 * 16 + b64Value c₂ / 4) ::
      BitVec.ofNat 8 (b64Value c₂ % 4 * 64 + b64Value c₃) :: b64bytes rest
  | [c₀, c₁, c₂] =>
    [BitVec.ofNat 8 (b64Value c₀ * 4 + b64Value c₁ / 16), BitVec.ofNat 8 (b64Value c₁ % 16 * 16 + b64Value c₂ / 4)]
  | [c₀, c₁] => [BitVec.ofNat 8 (b64Value c₀ * 4 + b64Value c₁ / 16)]
  | _ => []

theorem ofNat_eq_byte {n : Nat} {x : Byte} (h : n = x.toNat) : BitVec.ofNat 8 n = x := by
  rw [h, BitVec.ofNat_toNat, BitVec.setWidth_eq]

theorem b64bytes_b64url (b : Bytes) : b64bytes (b64url b) = b := by
  induction b using b64url.induct with
  | case1 => rfl
  | case2 x =>
    have hx := x.isLt
    simp (disch := omega) only [b64url, b64bytes, b64Value_b64Char, List.cons.injEq, and_true]
    exact ofNat_eq_byte (by omega)
  | case3 x y =>
    have hx := x.isLt
    have hy := y.isLt
    simp (disch := omega) only [b64url, b64bytes, b64Value_b64Char, List.cons.injEq, and_true]
    exact ⟨ofNat_eq_byte (by omega), ofNat_eq_byte (by omega)⟩
  | case4 x y z rest ih =>
    have hx := x.isLt
    have hy := y.isLt
    have hz := z.isLt
    simp (disch := omega) only [b64url, b64bytes, b64Value_b64Char, ih, List.cons.injEq, and_true]
    exact ⟨ofNat_eq_byte (by omega), ofNat_eq_byte (by omega), ofNat_eq_byte (by omega)⟩

/-! ## The text by six-bit groups -/

/-- A byte string zero-filled to whole groups of three bytes. -/
def zeroFilled (b : Bytes) : Bytes := b ++ List.replicate ((3 - b.length % 3) % 3) 0x00

/-- The `i`-th six bits of the zero-filled string, from the most significant on. -/
def sextet (b : Bytes) (i : Nat) : Nat := be2int (zeroFilled b) / 64 ^ (4 * ((b.length + 2) / 3) - 1 - i) % 64

/-- Three bytes are four groups. -/
theorem pow_three_bytes (n : Nat) : 256 ^ (3 * n) = 64 ^ (4 * n) := by
  rw [Nat.pow_mul, Nat.pow_mul]

theorem length_zeroFilled (b : Bytes) : (zeroFilled b).length = 3 * ((b.length + 2) / 3) := by
  rw [zeroFilled, List.length_append, List.length_replicate]
  omega

theorem be2int_zeroFilled_lt (b : Bytes) : be2int (zeroFilled b) < 64 ^ (4 * ((b.length + 2) / 3)) := by
  have := be2int_lt (zeroFilled b)
  rwa [length_zeroFilled, pow_three_bytes] at this

section
variable (x y z : Byte) (rest : Bytes)

theorem zeroFilled_cons₃ : zeroFilled (x :: y :: z :: rest) = [x, y, z] ++ zeroFilled rest := by
  rw [zeroFilled, zeroFilled, show (x :: y :: z :: rest).length = rest.length + 3 from rfl, Nat.add_mod_right]
  rfl

theorem be2int_zeroFilled_cons₃ : be2int (zeroFilled (x :: y :: z :: rest)) =
    be2int [x, y, z] * 64 ^ (4 * ((rest.length + 2) / 3)) + be2int (zeroFilled rest) := by
  rw [zeroFilled_cons₃, be2int_append, length_zeroFilled, pow_three_bytes]

/-- The first four groups are those of the first three bytes. -/
theorem sextet_head {i : Nat} (hi : i < 4) : sextet (x :: y :: z :: rest) i = be2int [x, y, z] / 64 ^ (3 - i) % 64 := by
  have hexp : 4 * (((x :: y :: z :: rest).length + 2) / 3) - 1 - i = 4 * ((rest.length + 2) / 3) + (3 - i) := by
    simp only [List.length_cons]
    omega
  rw [sextet, hexp, be2int_zeroFilled_cons₃, Nat.pow_add, ← Nat.div_div_eq_div_mul, Nat.add_comm (_ * _),
    Nat.add_mul_div_right _ _ (by positivity), Nat.div_eq_of_lt (be2int_zeroFilled_lt rest), Nat.zero_add]

/-- The later groups are those of the bytes after the first three. -/
theorem sextet_tail {i : Nat} (hi : i < 4 * ((rest.length + 2) / 3)) :
    sextet (x :: y :: z :: rest) (i + 4) = sextet rest i := by
  have hexp : 4 * (((x :: y :: z :: rest).length + 2) / 3) - 1 - (i + 4) = 4 * ((rest.length + 2) / 3) - 1 - i := by
    simp only [List.length_cons]
    omega
  have hpow : 64 ^ (4 * ((rest.length + 2) / 3)) = 64 ^ i * 64 * 64 ^ (4 * ((rest.length + 2) / 3) - 1 - i) := by
    rw [← Nat.pow_succ, ← Nat.pow_add]
    congr 1
    omega
  rw [sextet, hexp, be2int_zeroFilled_cons₃, hpow, ← Nat.mul_assoc, Nat.add_comm (_ * _),
    Nat.add_mul_div_right _ _ (by positivity), ← Nat.mul_assoc, Nat.add_mul_mod_self_right, sextet]

/-- The groups of one byte are the first of its zero-filled three bytes. -/
theorem sextet_one (i : Nat) : sextet [x] i = be2int [x, 0x00, 0x00] / 64 ^ (3 - i) % 64 := by
  simp [sextet, zeroFilled]

theorem sextet_two (i : Nat) : sextet [x, y] i = be2int [x, y, 0x00] / 64 ^ (3 - i) % 64 := by
  simp [sextet, zeroFilled]

/-! ### The text, three bytes at a time -/

theorem b64url_one : b64url [x] = (b64url [x, 0x00, 0x00]).take 2 := by simp [b64url]

theorem b64url_two : b64url [x, y] = (b64url [x, y, 0x00]).take 3 := by simp [b64url]

theorem b64url_cons₃ : b64url (x :: y :: z :: rest) = b64url [x, y, z] ++ b64url rest := rfl

/-- The four groups of three bytes, as the encoder cuts them out. -/
theorem group_sextets : be2int [x, y, z] / 64 ^ 3 % 64 = x.toNat / 4 ∧
    be2int [x, y, z] / 64 ^ 2 % 64 = x.toNat % 4 * 16 + y.toNat / 16 ∧
    be2int [x, y, z] / 64 ^ 1 % 64 = y.toNat % 16 * 4 + z.toNat / 64 ∧
    be2int [x, y, z] / 64 ^ 0 % 64 = z.toNat % 64 := by
  have hx := x.isLt
  have hy := y.isLt
  have hz := z.isLt
  have hval : be2int [x, y, z] = (x.toNat * 256 + y.toNat) * 256 + z.toNat := by simp [be2int]
  rw [hval]
  omega

theorem getElem?_b64url_three {i : Nat} (hi : i < 4) :
    (b64url [x, y, z])[i]? = some (b64Char (be2int [x, y, z] / 64 ^ (3 - i) % 64)) := by
  obtain ⟨h0, h1, h2, h3⟩ := group_sextets x y z
  interval_cases i
  · rw [h0]; rfl
  · rw [h1]; rfl
  · rw [h2]; rfl
  · rw [h3]; rfl

end

/-- Character `i` is the alphabet's for group `i` (R146). -/
theorem getElem?_b64url {b : Bytes} {i : Nat} (hi : i < (4 * b.length + 2) / 3) :
    (b64url b)[i]? = some (b64Char (sextet b i)) := by
  induction b using b64url.induct generalizing i with
  | case1 => simp at hi
  | case2 x =>
    have hi : i < 2 := by simpa using hi
    rw [b64url_one, List.getElem?_take_of_lt hi, getElem?_b64url_three _ _ _ (by omega), sextet_one]
  | case3 x y =>
    have hi : i < 3 := by simpa using hi
    rw [b64url_two, List.getElem?_take_of_lt hi, getElem?_b64url_three _ _ _ (by omega), sextet_two]
  | case4 x y z rest ih =>
    have hfour : (b64url [x, y, z]).length = 4 := rfl
    rw [b64url_cons₃]
    obtain h | h := Nat.lt_or_ge i 4
    · rw [List.getElem?_append_left (hfour ▸ h), getElem?_b64url_three _ _ _ h, sextet_head _ _ _ _ h]
    · obtain ⟨j, rfl⟩ := Nat.exists_eq_add_of_le' h
      simp only [List.length_cons] at hi
      rw [List.getElem?_append_right (hfour ▸ h), hfour, Nat.add_sub_cancel, ih (by omega),
        sextet_tail _ _ _ _ (by omega)]

/-! ## The encoder -/

theorem b64Char_cases (i : Nat) : (i < 26 → b64Char i = BitVec.ofNat 8 (0x41 + i)) ∧
    (26 ≤ i → i < 52 → b64Char i = BitVec.ofNat 8 (0x61 + (i - 26))) ∧
    (52 ≤ i → i < 62 → b64Char i = BitVec.ofNat 8 (0x30 + (i - 52))) := by
  unfold b64Char
  refine ⟨fun h => if_pos h, fun h h' => ?_, fun h h' => ?_⟩
  · rw [if_neg (by omega), if_pos h']
  · rw [if_neg (by omega), if_neg (by omega), if_pos h']

/-- Settles O51: the length, the groups, the alphabet, and the two decoders, of a text and of a character. -/
theorem base64Url : Obligations.Base64Url :=
  ⟨length_b64url, fun _ _ => getElem?_b64url, b64Char_cases, rfl, rfl,
    fun _ _ h => Function.LeftInverse.injective b64bytes_b64url h, fun _ _ => eq_of_b64Char_eq⟩

end Sys2Proof.Machine

namespace Sys2Proof.Machine

/-! ## Runs of an element -/

/-- The engine steps of an element lead from `s` to the element's end, which hands `u` on to what stands there:
`complete`, or GEN's `pc <- pc + 1` (R217, R221). -/
inductive ElementRun (c : Config) (e : Element) : State → State → Prop where
  | ends {s u : State} (h : ∀ fin, elementBody c e fin s = fin u) (hb : u.flags.busy = true) : ElementRun c e s u
  | goesOn {s t u : State} (h : ∀ fin, elementBody c e fin s = t) (hb : t.flags.busy = true)
    (hr : ElementRun c e t u) : ElementRun c e s u

section
variable {c : Config} {e : Element} {s t u : State}

/-- A step of an element after which the engine still runs raised no fault. -/
theorem engineKeeps_of_step (hb : t.flags.busy = true) (h : elementBody c e id s = t) : EngineKeeps s t := by
  obtain ⟨u, hk, hu | ⟨f, hu⟩ | hu⟩ := elementBody_stepsTo c e id s
  · exact (hu.symm.trans h) ▸ hk
  · rw [← h, hu] at hb; cases hb
  · exact (hu.symm.trans h) ▸ hk

theorem EngineKeeps.trans (h : EngineKeeps s t) (h' : EngineKeeps t u) : EngineKeeps s u :=
  ⟨h'.mem.trans h.mem, h'.seed.trans h.seed, h'.did.trans h.did, h'.peer.trans h.peer, h'.ktype.trans h.ktype,
    h'.keySize.trans h.keySize, h'.err.trans h.err, h'.host.trans h.host, h'.busy.trans h.busy, h'.done.trans h.done,
    h'.fault.trans h.fault, h'.drop.trans h.drop, h'.rdErr.trans h.rdErr, h'.cur.trans h.cur, h'.sub.trans h.sub,
    h'.gidx.trans h.gidx, h'.digests ∘ h.digests⟩

theorem ElementRun.keeps (h : ElementRun c e s u) : EngineKeeps s u := by
  induction h with
  | ends h hb => exact engineKeeps_of_step hb (h id)
  | goesOn h hb _ ih => exact (engineKeeps_of_step hb (h id)).trans ih

/-- A step command whose element reaches its end completes there. -/
theorem ElementRun.completes {i : Instr} (he : Instr.element i = some e) (h : ElementRun c e s u)
    (hb : s.flags.busy = true) : EngineRunWith c i s (complete u) := by
  induction h with
  | ends h _ =>
    refine .turn _ _ hb ?_
    rw [commandStep_busy c i e _ he hb, h]
    exact .idle _ rfl
  | goesOn h hb' _ ih =>
    refine .turn _ _ hb ?_
    rw [commandStep_busy c i e _ he hb, h]
    exact ih hb'

/-- GEN at a place of its sequence takes a step of the element there (R217). -/
theorem commandStep_gen_element {kt : Bytes} {k : Kind} (hb : s.flags.busy = true) (ht : s.input .ktype = some kt)
    (hk : matchKeyType kt = some k) (he : elementAt k s.seq.gidx = some e) :
    commandStep c .gen s = elementBody c e (advancePc k) s := by
  have h0 : s.seq.gidx ≠ 0 := fun h => by rw [h] at he; cases he
  simp only [commandStep_gen_busy c s hb, genBody, if_neg h0, genElement, ht, need_some, hk, he]

/-- GEN goes on past an element that reaches its end, at the next place. -/
theorem ElementRun.advances {kt : Bytes} {k : Kind} (h : ElementRun c e s u) (hb : s.flags.busy = true)
    (ht : s.input .ktype = some kt) (hk : matchKeyType kt = some k) (he : elementAt k s.seq.gidx = some e)
    (hr : EngineRunWith c .gen (advancePc k u) t) : EngineRunWith c .gen s t := by
  induction h with
  | ends h _ =>
    refine .turn _ _ hb ?_
    rw [commandStep_gen_element hb ht hk he, h]
    exact hr
  | goesOn h hb' _ ih =>
    have hkeep := engineKeeps_of_step hb' (h id)
    refine .turn _ _ hb ?_
    rw [commandStep_gen_element hb ht hk he, h]
    exact ih hb' ((hkeep.input .ktype).trans ht) (hkeep.gidx ▸ he) hr

end

/-- The element runs from `s` to its end and leaves `u` there, whatever it leaves in the sequencer. -/
def RunsElement (c : Config) (e : Element) (s u : State) : Prop := ∃ q, ElementRun c e s { u with seq := q }

/-- From its operand checks on, the element takes a running engine from `v` to `u`; the sequencer of neither counts. -/
def ElementLeads (c : Config) (e : Element) (v u : State) : Prop :=
  ∀ q : Seq, q.phase = .operands → RunsElement c e { v with seq := q } u

/-- The running engine of a command that was accepted in `s` (R107). -/
def started (s : State) : State := { s with flags := { s.flags with busy := true, done := false } }

/-- What a step command does to the state is what its element does; acceptance and completion add the lifecycle. -/
theorem runsTo_finished {c : Config} {i : Instr} {e : Element} {s u : State} (he : Instr.element i = some e)
    (hs : Ready s) (h : ElementLeads c e (started s) (started u)) : RunsTo c i s (finished i u) := by
  have hclr : i ≠ .clr := by rintro rfl; cases he
  have hwipe : i ≠ .wipe := by rintro rfl; cases he
  obtain ⟨q, hrun⟩ := h { s.seq with cur := opcode i, sub := opcode i, gidx := 0, phase := .operands } rfl
  have hcur : q.cur = opcode i := hrun.keeps.cur
  have hend : complete { started u with seq := q } = finished i u := by
    simp [complete, finished, started, Seq.cleared, hcur]
  rw [runsTo_accepted hclr hwipe hs, ← engineRunWith_busy rfl, ← hend]
  exact hrun.completes he rfl

/-- A step command whose first engine step raises a fault ends there (R240). -/
theorem runsTo_failed {c : Config} {i : Instr} {e : Element} {s : State} {f : Cause} (he : Instr.element i = some e)
    (hs : Ready s) (h : ∀ q : Seq, elementBody c e complete { started s with seq := q } =
      raise f { started s with seq := q }) : RunsTo c i s (failed i f s) := by
  have hclr : i ≠ .clr := by rintro rfl; cases he
  have hwipe : i ≠ .wipe := by rintro rfl; cases he
  refine runsTo_of_first_step hclr hwipe hs ?_ rfl
  rw [commandStep_busy c i e _ he rfl]
  exact h _

/-! ## Missing operands -/

theorem isSome_input (s : State) (b : Buf) : (s.input b).isSome = (s.inputReg b).valid := by
  unfold State.input
  split <;> simp [*]

theorem firstMissing_cons (r : Reg) (valid : Bool) (l : List (Reg × Bool)) :
    firstMissing ((r, valid) :: l) = if valid then firstMissing l else some r := by
  cases valid <;> rfl

/-- Reads in the order of the sources report the first one that is missing (R236). -/
theorem need_missing {α : Type} {r m : Reg} {v : Option α} {valid : Bool} {l : List (Reg × Bool)} {s : State}
    {rest : α → State} (hv : v.isSome = valid) (h : firstMissing ((r, valid) :: l) = some m)
    (hrest : ∀ x, firstMissing l = some m → rest x = raise (.unwrittenOperand m.index) s) :
    need r v s rest = raise (.unwrittenOperand m.index) s := by
  rw [firstMissing_cons, ← hv] at h
  cases v with
  | none => cases h; rfl
  | some x => exact hrest x h

theorem mkeyBody_missing (c : Config) (fin : State → State) {s : State} {m : Reg}
    (h : firstMissing (sources .mkey s) = some m) : mkeyBody c fin s = raise (.unwrittenOperand m.index) s :=
  need_missing (isSome_input s .seed) h fun _ h => need_missing (isSome_input s .did) h nofun

end Sys2Proof.Machine

namespace Sys2Proof.Machine

/-! ## Counters after several elements -/

theorem roundsAfter_add (c : Config) (a b : Nat) (k : Counters) :
    roundsAfter c (a + b) k = roundsAfter c b (roundsAfter c a k) := by
  unfold roundsAfter
  split
  · rw [Nat.add_comm, Function.iterate_add_apply]
  · rfl

/-- The counter of a search after `n` more rejected candidates, where counters are present (R246). -/
def rejectionsAfter (c : Config) (w : Which) (n : Nat) (k : Counters) : Counters :=
  if c.hasCounters then w.bumpCounter^[n] k else k

theorem iterationsAfter_eq (c : Config) (w : Which) (n : Nat) (k : Counters) :
    iterationsAfter c w n k = rejectionsAfter c w n (w.zeroCounter k) := rfl

theorem rejectionsAfter_succ (c : Config) (w : Which) (n : Nat) (k : Counters) :
    rejectionsAfter c w (n + 1) k = rejectionsAfter c w n (rejectionsAfter c w 1 k) := by
  unfold rejectionsAfter
  split <;> rfl

theorem bumpCounter_iterate_rounds (w : Which) (n : Nat) (k : Counters) (f : Word → Word) :
    w.bumpCounter^[n] { k with rounds := f k.rounds } =
      { w.bumpCounter^[n] k with rounds := f (w.bumpCounter^[n] k).rounds } := by
  have h : Function.Semiconj (fun k : Counters => { k with rounds := f k.rounds }) w.bumpCounter w.bumpCounter := by
    intro k; cases w <;> rfl
  exact (h.iterate_right n k).symm

/-- A search and the HMAC rounds count in different counters (R246). -/
theorem roundsAfter_iterationsAfter (c : Config) (w : Which) (r n : Nat) (k : Counters) :
    roundsAfter c r (iterationsAfter c w n k) = iterationsAfter c w n (roundsAfter c r k) := by
  have hzero : w.zeroCounter { k with rounds := satInc^[r] k.rounds } =
      { w.zeroCounter k with rounds := satInc^[r] (w.zeroCounter k).rounds } := by cases w <;> rfl
  unfold roundsAfter iterationsAfter
  split
  · rw [hzero, bumpCounter_iterate_rounds]
  · rfl

/-! ## The deriving elements -/

/-- The sequencer after a round with the digest `d` (R133). -/
def Seq.afterRound (d : Bytes) (q : Seq) : Seq := { q with acc := q.acc ++ d, chain := d, rnd := q.rnd + 1 }

/-- At its loop the element `e` derives `l` bytes under `key` and stores them, wherever the rounds have got to (R133). -/
def DerivesInto (c : Config) (e : Element) (key : Bytes) (l : Nat) (store : Derived → Bytes → Derived)
    (v : State) : Prop :=
  ∀ (fin : State → State) (q : Seq) (k : Counters), q.phase = .loop →
    elementBody c e fin { v with seq := q, counters := k } =
      deriveLoop c key l (fun b => fin { v with seq := q, counters := k, derived := store v.derived b })
        { v with seq := q, counters := k }

section
variable {c : Config} {e : Element} {v : State} {key : Bytes} {l : Nat} {store : Derived → Bytes → Derived}

/-- The rounds of a deriving element, from its loop on: as many as the missing bytes take, then the end with the first
`l` bytes of what is there (R133). -/
theorem runsElement_rounds (hb : v.flags.busy = true) (hloop : DerivesInto c e key l store v) (r : Nat) (q : Seq)
    (k : Counters) (hp : q.phase = .loop) (hr : hmacRounds (l - q.acc.length) = r) :
    RunsElement c e { v with seq := q, counters := k } { v with
      derived := store v.derived ((q.acc ++ hmacChain c key r q.chain).take l)
      counters := roundsAfter c r k } := by
  induction r generalizing q k with
  | zero =>
    have henough : ¬ q.acc.length < l := by unfold hmacRounds at hr; omega
    refine ⟨q, .ends (fun fin => ?_) hb⟩
    rw [hloop fin q k hp, deriveLoop, if_neg henough, hmacChain, List.append_nil]
    simp [roundsAfter]
  | succ r ih =>
    have hless : q.acc.length < l := by unfold hmacRounds at hr; omega
    have hround : ∀ fin, elementBody c e fin { v with seq := q, counters := k } =
        { v with seq := q.afterRound (c.hmac key q.chain).toList, counters := roundsAfter c 1 k } := fun fin => by
      rw [hloop fin q k hp, deriveLoop, if_pos hless, hmacRound_eq]
      rfl
    have hleft : hmacRounds (l - (q.afterRound (c.hmac key q.chain).toList).acc.length) = r := by
      simp only [Seq.afterRound, List.length_append, Vector.length_toList]
      unfold hmacRounds at hr ⊢
      omega
    have hcount : roundsAfter c (r + 1) k = roundsAfter c r (roundsAfter c 1 k) := by
      rw [Nat.add_comm, roundsAfter_add]
    obtain ⟨q', hrun⟩ := ih (q.afterRound (c.hmac key q.chain).toList) (roundsAfter c 1 k) hp hleft
    refine ⟨q', .goesOn hround hb ?_⟩
    rw [hcount, hmacChain, ← List.append_assoc]
    exact hrun

/-- A deriving element whose first step enters `deriveBytes` ends with its bytes (R131, R133). -/
theorem runsElement_derive (hb : v.flags.busy = true) (hloop : DerivesInto c e key l store v) {msg : Bytes}
    {s : State} {q : Seq} (henter : ∀ fin, elementBody c e fin s = enterDerive msg { v with seq := q }) :
    RunsElement c e s { v with
      derived := store v.derived (deriveBytes c key l msg)
      counters := roundsAfter c (hmacRounds l) v.counters } := by
  obtain ⟨q', hrun⟩ := runsElement_rounds hb hloop (hmacRounds l)
    { q with rnd := 0, chain := msg, acc := [], phase := .loop } v.counters rfl rfl
  exact ⟨q', .goesOn henter hb hrun⟩

end

section
variable {c : Config} {v : State}

theorem input_withSeq (v : State) (q : Seq) (b : Buf) : State.input { v with seq := q } b = v.input b := rfl

/-- R150: the master key. -/
theorem elementLeads_mkey {seed did : Bytes} (hb : v.flags.busy = true) (hseed : v.input .seed = some seed)
    (hdid : v.input .did = some did) :
    ElementLeads c .mkey v { v with
      derived := { v.derived with mk := some (c.hmac seed (did ++ signatureSuffix)).toList }
      counters := roundsAfter c 1 v.counters } := by
  intro q hq
  have hloop : DerivesInto c .mkey seed 64 (fun d b => { d with mk := some b }) v := fun fin q k hp =>
    mkeyBody_loop c fin (s := { v with seq := q, counters := k }) hp hseed hdid
  have henter : ∀ fin, elementBody c .mkey fin { v with seq := q } =
      enterDerive (did ++ signatureSuffix) { v with seq := q } := fun fin => by
    simp only [elementBody, mkeyBody, input_withSeq, hseed, hdid, need_some, hq]
  rw [← deriveBytes_sixtyFour]
  exact runsElement_derive hb hloop henter

/-- R194: the pairwise secret. -/
theorem elementLeads_psec {peer mk : Bytes} (hb : v.flags.busy = true) (hpeer : v.input .peer = some peer)
    (hmk : v.derived.mk = some mk) :
    ElementLeads c .psec v { v with
      derived := { v.derived with ps := some (c.hmac mk peer).toList }
      counters := roundsAfter c 1 v.counters } := by
  intro q hq
  have hloop : DerivesInto c .psec mk 64 (fun d b => { d with ps := some b }) v := fun fin q k hp =>
    psecBody_loop c fin (s := { v with seq := q, counters := k }) hp hpeer hmk
  have henter : ∀ fin, elementBody c .psec fin { v with seq := q } = enterDerive peer { v with seq := q } :=
    fun fin => by simp only [elementBody, psecBody, input_withSeq, hpeer, hmk, need_some, hq]
  rw [← deriveBytes_sixtyFour]
  exact runsElement_derive hb hloop henter

/-- R156: the raw candidate bytes of p, and the length latched. -/
theorem elementLeads_pgen {peer mk : Bytes} (hb : v.flags.busy = true) (hpeer : v.input .peer = some peer)
    (hmk : v.derived.mk = some mk) (hlegal : keySizeLegal c v.keySize.toNat = true) :
    ElementLeads c .pgen v { v with
      derived := { v.derived with
        lb := some (v.keySize.toNat / 16)
        pbase := some (deriveBytes c mk (v.keySize.toNat / 16) peer) }
      counters := roundsAfter c (hmacRounds (v.keySize.toNat / 16)) v.counters } := by
  intro q hq
  let latched : State := { v with derived := { v.derived with lb := some (v.keySize.toNat / 16) } }
  have hloop : DerivesInto c .pgen mk (v.keySize.toNat / 16) (fun d b => { d with pbase := some b }) latched :=
    fun fin q k hp => pgenBody_loop c fin (s := { latched with seq := q, counters := k }) hp hpeer hmk rfl
  have henter : ∀ fin, elementBody c .pgen fin { v with seq := q } = enterDerive peer { latched with seq := q } :=
    fun fin => by
      simp only [elementBody, pgenBody, input_withSeq, hpeer, hmk, need_some, hq, hlegal, if_true, latched]
  exact runsElement_derive (v := latched) hb hloop henter

/-- R157: the raw candidate bytes of q. -/
theorem elementLeads_qgen {peer pbase : Bytes} {l : Nat} (hb : v.flags.busy = true)
    (hpeer : v.input .peer = some peer) (hpbase : v.derived.pbase = some pbase) (hlb : v.derived.lb = some l) :
    ElementLeads c .qgen v { v with
      derived := { v.derived with qbase := some (deriveBytes c pbase l peer) }
      counters := roundsAfter c (hmacRounds l) v.counters } := by
  intro q hq
  have hloop : DerivesInto c .qgen pbase l (fun d b => { d with qbase := some b }) v := fun fin q k hp =>
    qgenBody_loop c fin (s := { v with seq := q, counters := k }) hp hpeer hpbase hlb
  have henter : ∀ fin, elementBody c .qgen fin { v with seq := q } = enterDerive peer { v with seq := q } :=
    fun fin => by simp only [elementBody, qgenBody, input_withSeq, hpeer, hpbase, hlb, need_some, hq]
  exact runsElement_derive hb hloop henter

end

/-- Settles O28: the first engine step reports the first missing operand; with both there one round gives the key. -/
theorem mkeyResult : Obligations.MkeyResult := by
  intro s hs
  refine ⟨fun r hr => completes_iff.mpr ?_, fun seed did hseed hdid => completes_iff.mpr ?_⟩
  · exact runsTo_failed (e := .mkey) rfl hs fun q => mkeyBody_missing _ _ hr
  · exact runsTo_finished (e := .mkey) rfl hs (elementLeads_mkey (v := started s) rfl hseed hdid)

end Sys2Proof.Machine

namespace Sys2Proof.Machine

/-! ## The searches -/

section
variable {c : Config} {w : Which} {b : Bytes} {s : State}

theorem elementBody_search (c : Config) (w : Which) (fin : State → State) (s : State) :
    elementBody c w.element fin s = searchBody c w fin s := by cases w <;> rfl

theorem searchBody_operands (fin : State → State) (hb : w.base s.derived = some b) (hp : s.seq.phase = .operands) :
    searchBody c w fin s = enterSearch w b s := by
  rw [searchBody, hb, need_some, hp]

theorem searchBody_loop (fin : State → State) {x : Nat} (hb : w.base s.derived = some b) (hp : s.seq.phase = .loop)
    (hx : s.derived.cand = some x) : searchBody c w fin s = testCandidate c w x b s := by
  rw [searchBody, hb, need_some, hp, hx]
  exact need_some _ _ _ _

theorem searchBody_commit (fin : State → State) {x : Nat} (hb : w.base s.derived = some b) (hp : s.seq.phase = .commit)
    (hx : s.derived.cand = some x) : searchBody c w fin s = fin (storeResult w x b s) := by
  rw [searchBody, hb, need_some, hp, hx]
  exact need_some _ _ _ _

theorem testCandidate_accepted {x : Nat} (ho : c.primeOracle x = true) :
    testCandidate c w x b s = { s with seq := { s.seq with phase := .commit } } := if_pos ho

/-- What a rejection of `x` below the cap leaves: the next candidate, its overflow noted (R162, R164). -/
def State.rejected (c : Config) (w : Which) (b : Bytes) (x : Nat) (s : State) : State :=
  { s.countTest c w with
    derived := { s.derived with cand := some (x + 2) }
    flags := { s.flags with ovf := s.flags.ovf || decide (256 ^ b.length ≤ x + 2) } }

theorem testCandidate_rejected {x : Nat} (ho : c.primeOracle x = false)
    (hcap : capReached c (s.seq.tests + 1) = false) : testCandidate c w x b s = s.rejected c w b x := by
  rw [testCandidate, ho, rejectCandidate_eq, hcap, noteOverflow_eq]
  rfl

/-- What a search leaves that finds `x` after `n` more rejections, the sequencer apart (R160, R246). -/
def State.searched (c : Config) (w : Which) (b : Bytes) (n x : Nat) (s : State) : State :=
  { s with
    derived := { w.storePrime x s.derived with cand := none }
    flags := { s.flags with ovf := s.flags.ovf || decide (256 ^ b.length ≤ x) }
    counters := rejectionsAfter c w n s.counters }

/-- An earlier rejection changes nothing of what the search leaves but its count: an overflow noted at a smaller
candidate is noted at the result too (R164). -/
theorem searched_rejected (c : Config) (w : Which) (b : Bytes) (n : Nat) {x y : Nat} (h : x + 2 ≤ y) (s : State) :
    (s.rejected c w b x).searched c w b n y =
      { s.searched c w b (n + 1) y with seq := { s.seq with tests := s.seq.tests + 1 } } := by
  have hovf : (s.flags.ovf || decide (256 ^ b.length ≤ x + 2) || decide (256 ^ b.length ≤ y)) =
      (s.flags.ovf || decide (256 ^ b.length ≤ y)) := by
    have himp : 256 ^ b.length ≤ x + 2 → 256 ^ b.length ≤ y := fun hx => hx.trans h
    by_cases hx : 256 ^ b.length ≤ x + 2 <;> simp [hx, himp]
  have hderived : ({ w.storePrime y { s.derived with cand := some (x + 2) } with cand := none } : Derived) =
      { w.storePrime y s.derived with cand := none } := by cases w <;> rfl
  simp only [State.searched, State.rejected, hovf, hderived, rejectionsAfter_succ c w n]
  rfl

theorem storeResult_eq_searched (c : Config) (w : Which) (x : Nat) (b : Bytes) (s : State) :
    storeResult w x b s = s.searched c w b 0 x := by
  rw [storeResult, noteOverflow_eq, State.searched, rejectionsAfter]
  simp

/-- The tests of a search, from its loop on, when `n` more rejections come before the accepted candidate (R162). -/
theorem runsElement_tests (n : Nat) {x : Nat} (hbusy : s.flags.busy = true) (hb : w.base s.derived = some b)
    (hp : s.seq.phase = .loop) (hx : s.derived.cand = some x) (hacc : c.primeOracle (x + 2 * n) = true)
    (hrej : ∀ j < n, c.primeOracle (x + 2 * j) = false)
    (hcap : ∀ j < n, capReached c (s.seq.tests + j + 1) = false) :
    RunsElement c w.element s (s.searched c w b n (x + 2 * n)) := by
  induction n generalizing s x with
  | zero =>
    let t : State := { s with seq := { s.seq with phase := .commit } }
    refine ⟨t.seq, .goesOn (t := t) (fun fin => ?_) hbusy (.ends (fun fin => ?_) hbusy)⟩
    · rw [elementBody_search, searchBody_loop fin hb hp hx, testCandidate_accepted (x := x) hacc]
    · rw [elementBody_search, searchBody_commit (s := t) fin hb rfl hx, storeResult_eq_searched c]
      rfl
  | succ n ih =>
    have hnext : ∀ j, x + 2 * (j + 1) = x + 2 + 2 * j := fun j => by ring
    have hstep : ∀ fin, elementBody c w.element fin s = s.rejected c w b x := fun fin => by
      rw [elementBody_search, searchBody_loop fin hb hp hx,
        testCandidate_rejected (x := x) (hrej 0 n.succ_pos) (hcap 0 n.succ_pos)]
    have hbase : w.base (s.rejected c w b x).derived = some b := by rw [← hb]; cases w <;> rfl
    rw [hnext] at hacc ⊢
    obtain ⟨q, hrun⟩ := ih (s := s.rejected c w b x) hbusy hbase hp rfl hacc
      (fun j hj => hnext j ▸ hrej (j + 1) (Nat.succ_lt_succ hj))
      fun j hj => Nat.add_right_comm s.seq.tests j 1 ▸ hcap (j + 1) (Nat.succ_lt_succ hj)
    rw [searched_rejected c w b n (Nat.le_add_right _ _)] at hrun
    exact ⟨q, .goesOn hstep hbusy hrun⟩

/-- A cap above the number of rejections is never reached before the last of them (R163). -/
theorem capReached_of_allows {k m : Nat} (h : CapAllows c k) (hm : m ≤ k) : capReached c m = false := by
  unfold capReached
  split
  · rfl
  · next cap hcap => exact decide_eq_false (by have := h cap hcap; omega)

/-- R160, R161: the first accepted candidate. -/
theorem elementLeads_search {k x : Nat} (hbusy : s.flags.busy = true) (hb : w.base s.derived = some b)
    (hfinds : SearchFinds c b k x) (hcap : CapAllows c k) :
    ElementLeads c w.element s { s with
      derived := { w.storePrime x s.derived with cand := none }
      flags := { s.flags with ovf := s.flags.ovf || decide (256 ^ b.length ≤ x) }
      counters := iterationsAfter c w k s.counters } := by
  intro q hq
  obtain ⟨rfl, hacc, hrej⟩ := hfinds
  let t : State := enterSearch w b { s with seq := q }
  have hstep : ∀ fin, elementBody c w.element fin { s with seq := q } = t := fun fin => by
    rw [elementBody_search]
    exact searchBody_operands (s := { s with seq := q }) fin hb hq
  have htb : w.base t.derived = some b := by rw [← hb]; cases w <;> rfl
  obtain ⟨q', hrun⟩ := runsElement_tests (s := t) k hbusy htb rfl rfl hacc hrej fun j hj =>
    capReached_of_allows hcap (by show 0 + j + 1 ≤ k; omega)
  have hend : ({ w.storePrime (cand0 b + 2 * k) t.derived with cand := none } : Derived) =
      { w.storePrime (cand0 b + 2 * k) s.derived with cand := none } := by cases w <;> rfl
  refine ⟨q', .goesOn hstep hbusy ?_⟩
  rw [State.searched, hend] at hrun
  rw [iterationsAfter_eq]
  exact hrun

end

/-! ## The elements of one step -/

section
variable {c : Config} {v : State}

/-- An element whose first step is its last. -/
theorem elementLeads_of_step {e : Element} {u : State} (hb : u.flags.busy = true)
    (h : ∀ (q : Seq) (fin : State → State), elementBody c e fin { v with seq := q } = fin { u with seq := q }) :
    ElementLeads c e v u :=
  fun q _ => ⟨q, .ends (h q) hb⟩

/-- R175: the components of the key. -/
theorem elementLeads_rsaasm {p q : Nat} {r : RsaParts} (hb : v.flags.busy = true) (hp : v.derived.p = some p)
    (hq : v.derived.q = some q) (hr : rsaParts p q = .ok r) :
    ElementLeads c .rsaasm v { v with derived := { v.derived with
      nmod := some r.n, dexp := some r.d, dp := some r.dp, dq := some r.dq, qi := some r.qi } } :=
  elementLeads_of_step hb fun _ _ => by simp only [elementBody, rsaasmBody, hp, hq, need_some, hr]

/-- R178: the RSA record. -/
theorem elementLeads_rsaexp {p q n d dp dq qi l : Nat} (hb : v.flags.busy = true) (hp : v.derived.p = some p)
    (hq : v.derived.q = some q) (hn : v.derived.nmod = some n) (hd : v.derived.dexp = some d)
    (hdp : v.derived.dp = some dp) (hdq : v.derived.dq = some dq) (hqi : v.derived.qi = some qi)
    (hl : v.derived.lb = some l) :
    ElementLeads c .rsaexp v { v with out := .rsa (rsaRecord p q n d dp dq qi l) } :=
  elementLeads_of_step hb fun _ _ => by
    simp only [elementBody, rsaexpBody, hp, hq, hn, hd, hdp, hdq, hqi, hl, need_some]

/-- R195: the reduced scalar. -/
theorem elementLeads_ecred {ps : Bytes} (hb : v.flags.busy = true) (hps : v.derived.ps = some ps) :
    ElementLeads c .ecred v { v with derived := { v.derived with ecd := some (be2int ps % ecN) } } :=
  elementLeads_of_step hb fun _ _ => by simp only [elementBody, ecredBody, hps, need_some]

/-- R196: the public point. -/
theorem elementLeads_ecmul {d x y : Nat} (hb : v.flags.busy = true) (hd : v.derived.ecd = some d)
    (hxy : mulPoint d ecG = .affine x y) :
    ElementLeads c .ecmul v { v with derived := { v.derived with qx := some x, qy := some y } } :=
  elementLeads_of_step hb fun _ _ => by simp only [elementBody, ecmulBody, hd, need_some, hxy]

/-- R200: a multiple without coordinates. -/
theorem ecmulBody_infinity (fin : State → State) {d : Nat} (hd : v.derived.ecd = some d)
    (hinf : mulPoint d ecG = .infinity) : ecmulBody fin v = raise .pointAtInfinity v := by
  rw [ecmulBody, hd, need_some, hinf]

/-- R197: the EC record. -/
theorem elementLeads_ecexp {d x y : Nat} (hb : v.flags.busy = true) (hd : v.derived.ecd = some d)
    (hx : v.derived.qx = some x) (hy : v.derived.qy = some y) :
    ElementLeads c .ecexp v { v with out := .ec (ecRecord d x y) } :=
  elementLeads_of_step hb fun _ _ => by simp only [elementBody, ecexpBody, hd, hx, hy, need_some]

/-- R219: nothing derived is left. -/
theorem elementLeads_scrub (hb : v.flags.busy = true) :
    ElementLeads c .scrub v { v with derived := Derived.invalid } :=
  elementLeads_of_step hb fun _ _ => rfl

end

end Sys2Proof.Machine

namespace Sys2Proof.Machine

/-! ## GEN, element by element -/

/-- From place `n` of the sequence on, with the state `v` but for the sequencer, GEN's run ends in `t`. -/
def GenLeads (c : Config) (k : Kind) (n : BitVec 4) (v t : State) : Prop :=
  ∀ q : Seq, q.cur = opcode .gen → EngineRunWith c .gen (setPc k n { v with seq := q }) t

/-- GEN's run that passes all checks of its start is the run of its sequence (R215). -/
theorem runsTo_gen_of_genLeads {c : Config} {k : Kind} {s t : State} {kt seed did peer : Bytes} (hs : Ready s)
    (ht : s.input .ktype = some kt) (hk : matchKeyType kt = some k) (hseed : s.input .seed = some seed)
    (hdid : s.input .did = some did) (hpeer : s.input .peer = some peer)
    (hlegal : k = .rsa → keySizeLegal c s.keySize.toNat = true)
    (h : GenLeads c k 1 (started (clearDerivedState s)) t) : RunsTo c .gen s t := by
  let u : State := clearDerivedState (accept .gen s)
  have hu : u = { started (clearDerivedState s) with seq := u.seq } := by
    simp only [u, accept_ready .gen s hs.2]; rfl
  have hcur : u.seq.cur = opcode .gen := by simp only [u, accept_ready .gen s hs.2]; rfl
  have hin : ∀ b, u.input b = s.input b := fun b => by rw [hu]; rfl
  have hchecks : genChecks c u = setPc k 1 u := by
    have hkeySize : u.keySize = s.keySize := by rw [hu]; rfl
    have hillegal : ¬ (k = .rsa ∧ keySizeLegal c u.keySize.toNat = false) := by
      rintro ⟨hrsa, hf⟩
      rw [hkeySize, hlegal hrsa] at hf
      cases hf
    simp only [genChecks, hin, ht, hk, hseed, hdid, hpeer, need_some, if_neg hillegal]
  rw [runsTo_gen hs, genBody_accept c hs, hchecks, hu]
  exact h u.seq hcur

section
variable {c : Config} {k : Kind} {n : BitVec 4} {v u t : State} {kt : Bytes}

/-- An element of the sequence that reaches its end hands on to the next place (R217). -/
theorem GenLeads.element {e : Element} (he : elementAt k n = some e) (hlead : ElementLeads c e v u)
    (hb : v.flags.busy = true) (ht : v.input .ktype = some kt) (hk : matchKeyType kt = some k)
    (hrest : GenLeads c k (n + 1) u t) : GenLeads c k n v t := by
  intro q hq
  obtain ⟨q', hrun⟩ := hlead (setPc k n { v with seq := q }).seq rfl
  have hcur : q'.cur = opcode .gen := hrun.keeps.cur.trans hq
  have hgidx : q'.gidx = n := hrun.keeps.gidx
  refine hrun.advances hb ht hk he ?_
  rw [advancePc, hgidx]
  exact hrest q' hcur

/-- An element whose first step raises a fault ends GEN's run (R240); `SUB` is the element's opcode. -/
theorem GenLeads.raises {e : Element} {f : Cause} (he : elementAt k n = some e) (hb : v.flags.busy = true)
    (ht : v.input .ktype = some kt) (hk : matchKeyType kt = some k)
    (hraise : ∀ (q : Seq) (fin : State → State),
      elementBody c e fin { v with seq := q } = raise f { v with seq := q }) :
    GenLeads c k n v (raise f { v with seq := { v.seq with cur := opcode .gen, sub := e.sub } }) := by
  intro q hq
  let s : State := setPc k n { v with seq := q }
  have hend : raise f s = raise f { v with seq := { v.seq with cur := opcode .gen, sub := e.sub } } := by
    simp [s, raise, setPc, Seq.cleared, he, hq]
  have hstep : commandStep c .gen s = raise f s :=
    (commandStep_gen_element (s := s) hb ht hk he).trans (hraise s.seq _)
  rw [← hend]
  exact .turn s _ hb ((engineRunWith_idle (by rw [hstep]; rfl)).mpr hstep.symm)

/-- Past the last element GEN completes (R215, R221). -/
theorem GenLeads.completes (he : elementAt k n = none) (h0 : n ≠ 0) (hb : v.flags.busy = true)
    (ht : v.input .ktype = some kt) (hk : matchKeyType kt = some k) : GenLeads c k n v (finished .gen v) := by
  intro q hq
  let s := setPc k n { v with seq := q }
  have ht : s.input .ktype = some kt := ht
  have hend : commandStep c .gen s = finished .gen v := by
    have hgidx : s.seq.gidx = n := rfl
    rw [commandStep_gen_busy c s hb]
    simp only [genBody, hgidx, if_neg h0, genElement, ht, need_some, hk, he]
    simp [s, complete, finished, setPc, Seq.cleared, hq]
  exact .turn s _ hb ((engineRunWith_idle (by rw [hend]; rfl)).mpr hend.symm)

end

/-- Settles O44: the sequence of the EC path, element by element; ECMUL raises when the multiple has no coordinates. -/
theorem genEcRecord : Obligations.GenEcRecord := by
  intro s seed did peer t hs ht hk hseed hdid hpeer mk d cleared
  have hcleared : cleared = { clearDerivedState s with
      counters := roundsAfter Config.platform 1 (roundsAfter Config.platform 1 ⟨0, 0, 0⟩) } := by
    rw [← roundsAfter_add]
  refine completes_iff.mpr (runsTo_gen_of_genLeads hs ht hk hseed hdid hpeer nofun ?_)
  refine .element (e := .mkey) rfl (elementLeads_mkey rfl hseed hdid) rfl ht hk ?_
  refine .element (e := .psec) rfl (elementLeads_psec rfl hpeer rfl) rfl ht hk ?_
  refine .element (e := .ecred) rfl (elementLeads_ecred rfl rfl) rfl ht hk ?_
  rw [hcleared]
  cases hxy : mulPoint d ecG with
  | infinity =>
    exact GenLeads.raises (e := .ecmul) rfl rfl ht hk fun q fin => ecmulBody_infinity fin rfl hxy
  | affine x y =>
    refine .element (e := .ecmul) rfl (elementLeads_ecmul rfl rfl hxy) rfl ht hk ?_
    refine .element (e := .ecexp) rfl (elementLeads_ecexp rfl rfl rfl rfl) rfl ht hk ?_
    refine .element (e := .scrub) rfl (elementLeads_scrub rfl) rfl ht hk ?_
    exact .completes rfl (by decide) rfl ht hk

/-- Settles O45: the sequence of the RSA path, element by element; its rounds and its rejections count in different
counters. -/
theorem genRsaRecord : Obligations.GenRsaRecord := by
  intro c s seed did peer t kp kq p q r hs ht hk hseed hdid hpeer hlegal l mk pbase qbase hp hq hcapp hcapq hr
  have hcounters : iterationsAfter c .q kq (iterationsAfter c .p kp
        (roundsAfter c (1 + 2 * hmacRounds l) ⟨0, 0, 0⟩)) =
      iterationsAfter c .q kq (roundsAfter c (hmacRounds l)
        (iterationsAfter c .p kp (roundsAfter c (hmacRounds l) (roundsAfter c 1 ⟨0, 0, 0⟩)))) := by
    rw [roundsAfter_iterationsAfter, ← roundsAfter_add, ← roundsAfter_add, Nat.two_mul]
  have hovf : (decide (256 ^ l ≤ p) || decide (256 ^ l ≤ q)) =
      (false || decide (256 ^ pbase.length ≤ p) || decide (256 ^ qbase.length ≤ q)) := by
    rw [length_deriveBytes, length_deriveBytes, Bool.false_or]
  rw [← hmacRounds, hcounters, hovf]
  refine runsTo_gen_of_genLeads hs ht hk hseed hdid hpeer (fun _ => hlegal) ?_
  refine .element (e := .mkey) rfl (elementLeads_mkey rfl hseed hdid) rfl ht hk ?_
  refine .element (e := .pgen) rfl (elementLeads_pgen rfl hpeer rfl hlegal) rfl ht hk ?_
  refine .element (e := .psrch) rfl (elementLeads_search (w := .p) rfl rfl hp hcapp) rfl ht hk ?_
  refine .element (e := .qgen) rfl (elementLeads_qgen rfl hpeer rfl rfl) rfl ht hk ?_
  refine .element (e := .qsrch) rfl (elementLeads_search (w := .q) rfl rfl hq hcapq) rfl ht hk ?_
  refine .element (e := .rsaasm) rfl (elementLeads_rsaasm rfl rfl rfl hr) rfl ht hk ?_
  refine .element (e := .rsaexp) rfl (elementLeads_rsaexp rfl rfl rfl rfl rfl rfl rfl rfl rfl) rfl ht hk ?_
  refine .element (e := .scrub) rfl (elementLeads_scrub rfl) rfl ht hk ?_
  exact .completes rfl (by decide) rfl ht hk

end Sys2Proof.Machine

namespace Sys2Proof.Machine

/-! ## The candidate bytes: PGEN and QGEN -/

/-- Which key sizes are legal (R10, R235). -/
theorem keySizeLegal_iff (c : Config) (k : Nat) : keySizeLegal c k = true ↔
    k % c.granuleBits = 0 ∧ c.granuleBits ≤ k ∧ k ≤ c.keySizeMax.val := by
  simp [keySizeLegal, and_assoc]

theorem pgenBody_missing (c : Config) (fin : State → State) {s : State} {m : Reg}
    (h : firstMissing (sources .pgen s) = some m) : pgenBody c fin s = raise (.unwrittenOperand m.index) s :=
  need_missing (isSome_input s .peer) h fun _ h => need_missing rfl h nofun

theorem qgenBody_missing (c : Config) (fin : State → State) {s : State} {m : Reg}
    (h : firstMissing (sources .qgen s) = some m) : qgenBody c fin s = raise (.unwrittenOperand m.index) s :=
  need_missing (isSome_input s .peer) h fun _ h => need_missing rfl h fun _ h => need_missing rfl h nofun

/-- R156: the key size is judged at the start, after the operands. -/
theorem pgenBody_illegal (c : Config) (fin : State → State) {s : State} {peer mk : Bytes}
    (hpeer : s.input .peer = some peer) (hmk : s.derived.mk = some mk) (hp : s.seq.phase = .operands)
    (hk : keySizeLegal c s.keySize.toNat = false) : pgenBody c fin s = raise .invalidKeySize s := by
  simp [pgenBody, hpeer, hmk, hp, hk]

/-- PGEN under an illegal key size ends at its checks (R156, R235). -/
theorem runsTo_pgen_illegal {c : Config} {s : State} {peer mk : Bytes} (hs : Ready s)
    (hpeer : s.input .peer = some peer) (hmk : s.derived.mk = some mk)
    (hk : keySizeLegal c s.keySize.toNat = false) : RunsTo c .pgen s (failed .pgen .invalidKeySize s) := by
  refine runsTo_of_first_step (by decide) (by decide) hs ?_ rfl
  rw [commandStep_busy c .pgen .pgen _ rfl rfl]
  exact pgenBody_illegal c complete (s := { started s with seq := _ }) hpeer hmk rfl hk

/-- Settles O30: a missing operand, then an illegal key size, ends PGEN at its checks; else its rounds give the
bytes. -/
theorem pgenResult : Obligations.PgenResult := by
  refine ⟨keySizeLegal_iff, fun c s hs => ⟨fun r hr => ?_, fun peer mk hpeer hmk => ⟨fun hk => ?_, fun hk => ?_⟩⟩⟩
  · exact runsTo_failed (e := .pgen) rfl hs fun q => pgenBody_missing _ _ hr
  · exact runsTo_pgen_illegal hs hpeer hmk hk
  · exact runsTo_finished (e := .pgen) rfl hs (elementLeads_pgen (v := started s) rfl hpeer hmk hk)

/-- Settles O31: a missing operand ends QGEN at its checks; else its rounds, keyed by `PBASE` as it is, give the
bytes. -/
theorem qgenResult : Obligations.QgenResult := by
  intro s hs
  refine ⟨fun r hr => completes_iff.mpr ?_, fun peer pbase l hpeer hpbase hlb => completes_iff.mpr ?_⟩
  · exact runsTo_failed (e := .qgen) rfl hs fun q => qgenBody_missing _ _ hr
  · exact runsTo_finished (e := .qgen) rfl hs (elementLeads_qgen (v := started s) rfl hpeer hpbase hlb)

end Sys2Proof.Machine

namespace Sys2Proof.Machine

/-! ## The forced bits of the start candidate -/

theorem length_forceTop (b : Bytes) : (forceTop b).length = b.length := by cases b <;> rfl

theorem getElem?_forceTop {b : Bytes} {i : Nat} {x : Byte} (h : b[i]? = some x) :
    (forceTop b)[i]? = some (x ||| if i = 0 then 0x80 else 0x00) := by
  cases b with
  | nil => cases h
  | cons y b =>
    cases i with
    | zero => cases h; rfl
    | succ i => simpa [forceTop] using h

theorem getElem?_forceBottom {b : Bytes} {i : Nat} {x : Byte} (h : b[i]? = some x) :
    (forceBottom b)[i]? = some (x ||| if i + 1 = b.length then 0x01 else 0x00) := by
  induction b using forceBottom.induct generalizing i with
  | case1 => cases h
  | case2 y =>
    cases i with
    | zero => cases h; rfl
    | succ i => cases h
  | case3 y z b ih =>
    cases i with
    | zero => cases h; simp [forceBottom]
    | succ i => simpa [forceBottom] using ih (i := i) h

/-- The two forced bits, byte by byte (R158). -/
theorem getElem?_force {b : Bytes} {i : Nat} {x : Byte} (h : b[i]? = some x) :
    (force b)[i]? = some
      (x ||| (if i = 0 then 0x80 else 0x00) ||| (if i + 1 = b.length then 0x01 else 0x00)) := by
  rw [← length_forceTop b]
  exact getElem?_forceBottom (getElem?_forceTop h)

/-- Forcing the bottom bit leaves the first byte at least its weight. -/
theorem mul_le_forceBottom (x : Byte) (b : Bytes) : x.toNat * 256 ^ b.length ≤ be2int (forceBottom (x :: b)) := by
  cases b with
  | nil => simpa using le_forceBottom x []
  | cons y b =>
    rw [forceBottom, be2int_cons, length_forceBottom]
    exact Nat.le_add_right _ _

/-- The forced top bit gives the start candidate of `L` bytes all `8 * L` bits (R159). -/
theorem le_cand0 {b : Bytes} (h : 1 ≤ b.length) : 2 ^ (8 * b.length - 1) ≤ cand0 b := by
  obtain _ | ⟨x, b⟩ := b
  · cases h
  · have htop : 128 ≤ (x ||| 0x80).toNat := by
      rw [BitVec.toNat_or]
      exact Nat.right_le_or
    calc 2 ^ (8 * (b.length + 1) - 1)
        = 128 * 256 ^ b.length := by
          rw [show 8 * (b.length + 1) - 1 = 7 + 8 * b.length by omega, Nat.pow_add, Nat.pow_mul]
      _ ≤ (x ||| 0x80).toNat * 256 ^ b.length := Nat.mul_le_mul_right _ htop
      _ ≤ cand0 (x :: b) := mul_le_forceBottom _ b

/-- Settles O52, from the two forced bits: the top one gives the lower bound, the bottom one the parity. -/
theorem startCandidate : Obligations.StartCandidate := by
  intro b h
  have hlt : cand0 b < 2 ^ (8 * b.length) := Nat.pow_mul 2 8 b.length ▸ cand0_lt b
  exact ⟨length_force b, fun i x hx => getElem?_force hx, rfl, (cand0_bounds h).1, le_cand0 h, hlt⟩

end Sys2Proof.Machine

namespace Sys2Proof.Machine

/-! ## The engine steps of a search -/

theorem Which.instr_element (w : Which) : Instr.element w.instr = some w.element := by cases w <;> rfl

section
variable {c : Config} {w : Which} {b : Bytes} {s : State}

/-- A search's command at an idle engine outside the fault state is accepted (R107). -/
theorem commandStep_search_idle (hs : Ready s) : commandStep c w.instr s = accept w.instr s :=
  commandStep_idle c _ s (by cases w <;> decide) (by cases w <;> decide) hs.1

/-- A running search takes a step of its body (R221). -/
theorem commandStep_search (hbusy : s.flags.busy = true) : commandStep c w.instr s = searchBody c w complete s := by
  rw [commandStep_busy c _ _ s w.instr_element hbusy, elementBody_search]

theorem searchBody_missing (fin : State → State) (hb : w.base s.derived = none) :
    searchBody c w fin s = raise (.unwrittenOperand w.baseReg.index) s := by
  rw [searchBody, hb, need_none]

theorem testCandidate_exhausted {x : Nat} (ho : c.primeOracle x = false)
    (hcap : capReached c (s.seq.tests + 1) = true) :
    testCandidate c w x b s = raise (.primeSearchExhausted w.info) (s.countTest c w) := by
  rw [testCandidate, ho, rejectCandidate_eq, hcap]
  rfl

end

/-- Settles O33: a running search is at its start, at a test with its three answers, or at its end. -/
theorem searchSteps : Obligations.SearchSteps := by
  intro w s b hbusy hb
  rw [exec_eq_commandStep, commandStep_search hbusy]
  refine ⟨fun hp => ?_, fun x hx => ⟨fun hp => ?_, fun hp => ?_⟩⟩
  · rw [searchBody_operands complete hb hp]
    rfl
  · rw [searchBody_loop complete hb hp hx, testCandidate, rejectCandidate_eq, noteOverflow_eq]
    rfl
  · rw [searchBody_commit complete hb hp hx, storeResult, noteOverflow_eq]

end Sys2Proof.Machine

namespace Sys2Proof.Machine

/-! ## A search that has rejected its first candidates -/

/-- The first `n` candidates are rejected, and the cap is reached at none of the rejections (R162, R163). -/
def RejectsFirst (c : Config) (b : Bytes) (n : Nat) : Prop :=
  ∀ j < n, c.primeOracle (cand0 b + 2 * j) = false ∧ capReached c (j + 1) = false

/-- The state of a search accepted in `s` that has rejected its first `n` candidates and is about to test the next. -/
def State.searching (c : Config) (w : Which) (b : Bytes) (n : Nat) (s : State) : State :=
  { s with
    derived := { s.derived with cand := some (cand0 b + 2 * n) }
    flags := { s.flags with
      busy := true, done := false, ovf := s.flags.ovf || decide (256 ^ b.length ≤ cand0 b + 2 * n) }
    seq := { s.seq with
      cur := opcode w.instr, sub := opcode w.instr, gidx := 0, tests := n, phase := .loop }
    counters := iterationsAfter c w n s.counters }

theorem RejectsFirst.of_succ {c : Config} {b : Bytes} {n : Nat} (h : RejectsFirst c b (n + 1)) :
    RejectsFirst c b n := fun j hj => h j (hj.trans n.lt_succ_self)

/-- The start candidate fits the bytes it was made of (R159). -/
theorem not_le_cand0 (b : Bytes) : ¬ 256 ^ b.length ≤ cand0 b := (cand0_lt b).not_ge

theorem iterationsAfter_zero (c : Config) (w : Which) (k : Counters) : iterationsAfter c w 0 k = w.zeroCounter k := by
  unfold iterationsAfter
  split <;> rfl

theorem iterationsAfter_succ (c : Config) (w : Which) (n : Nat) (k : Counters) :
    iterationsAfter c w (n + 1) k =
      if c.hasCounters then w.bumpCounter (iterationsAfter c w n k) else iterationsAfter c w n k := by
  unfold iterationsAfter
  split
  · exact Function.iterate_succ_apply' _ _ _
  · rfl

/-- One more step at the end. -/
theorem commandSteps_succ (c : Config) (i : Instr) (n : Nat) (s : State) :
    commandSteps c i (n + 1) s = commandStep c i (commandSteps c i n s) := by
  induction n generalizing s with
  | zero => rfl
  | succ n ih => exact ih (commandStep c i s)

section
variable {c : Config} {w : Which} {b : Bytes} {s : State}

theorem base_searching (n : Nat) (hb : w.base s.derived = some b) :
    w.base (s.searching c w b n).derived = some b := by
  rw [← hb]; cases w <;> rfl

/-- The lines before the loop; no overflow is noted yet (R160, R164). -/
theorem commandStep_accepted_search (hs : Ready s) (hb : w.base s.derived = some b) :
    commandStep c w.instr (accept w.instr s) = s.searching c w b 0 := by
  have hbase : w.base (accept w.instr s).derived = some b := by rwa [accept_ready _ s hs.2]
  rw [accept_ready _ s hs.2] at hbase ⊢
  rw [commandStep_search rfl, searchBody_operands complete hbase rfl]
  simp [enterSearch, State.searching, not_le_cand0, iterationsAfter_zero]

/-- An overflow noted at an earlier candidate would be noted at the next one (R164). -/
theorem rejected_searching (n : Nat) :
    (s.searching c w b n).rejected c w b (cand0 b + 2 * n) = s.searching c w b (n + 1) := by
  have hovf : (s.flags.ovf || decide (256 ^ b.length ≤ cand0 b + 2 * n) ||
      decide (256 ^ b.length ≤ cand0 b + 2 * n + 2)) =
      (s.flags.ovf || decide (256 ^ b.length ≤ cand0 b + 2 * n + 2)) := by
    by_cases h : 256 ^ b.length ≤ cand0 b + 2 * n
    · simp [h, h.trans (Nat.le_add_right _ 2)]
    · simp [h]
  simp only [State.rejected, State.countTest, State.searching, hovf, iterationsAfter_succ]
  rfl

theorem commandStep_searching (n : Nat) (hb : w.base s.derived = some b)
    (ho : c.primeOracle (cand0 b + 2 * n) = false) (hcap : capReached c (n + 1) = false) :
    commandStep c w.instr (s.searching c w b n) = s.searching c w b (n + 1) := by
  rw [commandStep_search rfl, searchBody_loop _ (base_searching n hb) rfl rfl, testCandidate_rejected ho hcap,
    rejected_searching]

/-- The rejection that reaches the cap (R163, R240). -/
theorem commandStep_searching_exhausted (n : Nat) (hb : w.base s.derived = some b)
    (ho : c.primeOracle (cand0 b + 2 * n) = false) (hcap : capReached c (n + 1) = true) :
    commandStep c w.instr (s.searching c w b n) = failed w.instr (.primeSearchExhausted w.info) { s with
      flags := { s.flags with ovf := s.flags.ovf || decide (256 ^ b.length ≤ cand0 b + 2 * n) }
      counters := iterationsAfter c w (n + 1) s.counters } := by
  rw [commandStep_search rfl, searchBody_loop _ (base_searching n hb) rfl rfl, testCandidate_exhausted ho hcap,
    iterationsAfter_succ]
  rfl

/-- Acceptance, the start, and rejections below the cap, one a step (R107, R160, R162). -/
theorem commandSteps_search (hs : Ready s) (hb : w.base s.derived = some b) {n : Nat} (h : RejectsFirst c b n) :
    commandSteps c w.instr (n + 2) s = s.searching c w b n := by
  induction n with
  | zero =>
    rw [commandSteps, commandStep_search_idle hs]
    exact commandStep_accepted_search hs hb
  | succ n ih =>
    obtain ⟨ho, hcap⟩ := h n n.lt_succ_self
    rw [commandSteps_succ, ih h.of_succ, commandStep_searching n hb ho hcap]

/-- The run of a search goes through every rejection below the cap. -/
theorem runsTo_search_iff (hs : Ready s) (hb : w.base s.derived = some b) {n : Nat} (h : RejectsFirst c b n)
    {t : State} : RunsTo c w.instr s t ↔ EngineRunWith c w.instr (s.searching c w b n) t := by
  induction n with
  | zero =>
    have hbusy : (accept w.instr s).flags.busy = true := by rw [accept_ready _ s hs.2]
    rw [RunsTo, commandStep_search_idle hs, engineRunWith_busy hbusy, commandStep_accepted_search hs hb]
  | succ n ih =>
    obtain ⟨ho, hcap⟩ := h n n.lt_succ_self
    rw [ih h.of_succ, engineRunWith_busy rfl, commandStep_searching n hb ho hcap]

/-! ### The ends of a search -/

theorem runsTo_search_missing (hs : Ready s) (hb : w.base s.derived = none) :
    RunsTo c w.instr s (failed w.instr (.unwrittenOperand w.baseReg.index) s) :=
  runsTo_failed w.instr_element hs fun q =>
    (elementBody_search c w complete _).trans (searchBody_missing (s := { started s with seq := q }) complete hb)

/-- R160, R161: a search ends with the first accepted candidate. -/
theorem runsTo_search_found {k x : Nat} (hs : Ready s) (hb : w.base s.derived = some b)
    (hfinds : SearchFinds c b k x) (hcap : CapAllows c k) :
    RunsTo c w.instr s (finished w.instr { s with
      derived := { w.storePrime x s.derived with cand := none }
      flags := { s.flags with ovf := s.flags.ovf || decide (256 ^ b.length ≤ x) }
      counters := iterationsAfter c w k s.counters }) :=
  runsTo_finished w.instr_element hs (elementLeads_search (s := started s) rfl hb hfinds hcap)

theorem iterCap_pos {n : Nat} (h : c.iterCap = some n) : 0 < n := by
  obtain ⟨k, -, rfl⟩ := Option.map_eq_some_iff.mp h
  exact k.val.succ_pos

/-- R163: a search ends at the rejection that reaches the cap. -/
theorem runsTo_search_exhausted {n : Nat} (hs : Ready s) (hb : w.base s.derived = some b) (hn : c.iterCap = some n)
    (hrej : ∀ j < n, c.primeOracle (cand0 b + 2 * j) = false) :
    RunsTo c w.instr s (failed w.instr (.primeSearchExhausted w.info) { s with
      flags := { s.flags with ovf := s.flags.ovf || decide (256 ^ b.length ≤ cand0 b + 2 * (n - 1)) }
      counters := iterationsAfter c w n s.counters }) := by
  obtain ⟨m, rfl⟩ := Nat.exists_eq_add_of_lt (iterCap_pos hn)
  rw [Nat.zero_add] at hn hrej ⊢
  have hcap : ∀ j, capReached c (j + 1) = decide (m + 1 ≤ j + 1) := fun j => by rw [capReached, hn]
  have hfirst : RejectsFirst c b m := fun j hj => ⟨hrej j (hj.trans m.lt_succ_self), by simp [hcap, hj]⟩
  have hlast := commandStep_searching_exhausted (s := s) m hb (hrej m m.lt_succ_self) (by simp [hcap])
  rw [runsTo_search_iff hs hb hfirst, engineRunWith_busy rfl, hlast]
  exact .idle _ rfl

/-- R162, R233: without a cap and without an accepted candidate a search is under way after any number of steps. -/
theorem search_goes_on (hs : Ready s) (hb : w.base s.derived = some b) (hn : c.iterCap = none)
    (hrej : SearchHasNoResult c b) (n : Nat) :
    let t := commandSteps c w.instr (n + 1) s
    t.flags.busy = true ∧ t.flags.fault = false ∧
      t.flags.ovf = (s.flags.ovf || decide (256 ^ b.length ≤ cand0 b + 2 * (n - 1))) := by
  cases n with
  | zero =>
    rw [commandSteps, commandSteps, commandStep_search_idle hs, accept_ready _ s hs.2]
    simp [hs.2, not_le_cand0]
  | succ n =>
    rw [commandSteps_search hs hb fun j _ => ⟨hrej j, by rw [capReached, hn]⟩]
    exact ⟨rfl, hs.2, rfl⟩

end

/-- Settles O34: the base is missing, or the tests end at the first accepted candidate. -/
theorem searchResult : Obligations.SearchResult := fun _ _ _ hs =>
  ⟨runsTo_search_missing hs, fun _ _ _ hb hfinds hcap => runsTo_search_found hs hb hfinds hcap⟩

/-- Settles O35: the rejection that reaches the cap raises, and without a cap every rejection is followed by a test. -/
theorem searchWithoutResult : Obligations.SearchWithoutResult := fun _ _ _ _ hs hb =>
  ⟨fun _ hn hrej => runsTo_search_exhausted hs hb hn hrej, fun hn hrej n => search_goes_on hs hb hn hrej n⟩

/-! ## Every search ends under a complete oracle -/

/-- Some candidate is prime: the candidates are all odd numbers from the start candidate on, or for the empty base all
even ones, 2 among them (R167, log entry 23). -/
theorem exists_prime_candidate (b : Bytes) : ∃ k, Nat.Prime (cand0 b + 2 * k) := by
  cases b with
  | nil => exact ⟨1, Nat.prime_two⟩
  | cons y b =>
    obtain ⟨hodd, hge⟩ := cand0_bounds (b := y :: b) (Nat.le_add_left 1 _)
    obtain ⟨p, hle, hp⟩ := Nat.exists_infinite_primes (cand0 (y :: b))
    have hpodd : p % 2 = 1 := hp.eq_two_or_odd.resolve_left (by omega)
    refine ⟨(p - cand0 (y :: b)) / 2, ?_⟩
    rwa [show cand0 (y :: b) + 2 * ((p - cand0 (y :: b)) / 2) = p by omega]

theorem exists_searchFinds {c : Config} (h : OracleComplete c) (b : Bytes) : ∃ k x, SearchFinds c b k x := by
  have hex : ∃ k, c.primeOracle (cand0 b + 2 * k) = true := (exists_prime_candidate b).imp fun k hk => h _ hk
  exact ⟨Nat.find hex, _, rfl, Nat.find_spec hex, fun j hj => Bool.eq_false_iff.mpr (Nat.find_min hex hj)⟩

/-- Settles O36: the first accepted candidate comes below the cap, or the cap comes first. -/
theorem searchTerminates : Obligations.SearchTerminates := by
  intro c w s b hs hb hcomplete
  obtain ⟨k, x, hfinds⟩ := exists_searchFinds hcomplete b
  by_cases hallows : CapAllows c k
  · exact ⟨_, runsTo_search_found hs hb hfinds hallows, fun _ => ⟨rfl, hs.2, k, x, hfinds, rfl⟩⟩
  · obtain ⟨n, hn, hk⟩ : ∃ n, c.iterCap = some n ∧ n ≤ k := by simpa [CapAllows] using hallows
    obtain ⟨-, -, hrej⟩ := hfinds
    refine ⟨_, runsTo_search_exhausted hs hb hn fun j hj => hrej j (hj.trans_le hk), fun hnone => ?_⟩
    rw [hnone] at hn
    cases hn

end Sys2Proof.Machine

namespace Sys2Proof.Machine

/-! ## The components of an RSA key -/

section
variable {p q : Nat}

/-- The modulus of `d` is one R16 defines an inverse for. -/
theorem two_le_phi (hp : 2 < p) (hq : 2 < q) : 2 ≤ (p - 1) * (q - 1) :=
  calc 2 ≤ 2 * 2 := by decide
    _ ≤ (p - 1) * (q - 1) := Nat.mul_le_mul (by omega) (by omega)

theorem rsaParts_without_dexp (hp : 2 < p) (hq : 2 < q) (he : Nat.gcd 65537 ((p - 1) * (q - 1)) ≠ 1) :
    rsaParts p q = .error (.internalArithmeticError 1) := by
  rw [rsaParts, ePub, modInverse_eq_none (two_le_phi hp hq) he]

theorem rsaParts_without_qi (hp : 2 < p) (hq : 2 < q) (he : Nat.gcd 65537 ((p - 1) * (q - 1)) = 1)
    (hqp : Nat.gcd q p ≠ 1) : rsaParts p q = .error (.internalArithmeticError 2) := by
  obtain ⟨d, hd, -, -⟩ := modInverse_eq_some (two_le_phi hp hq) he
  rw [rsaParts, ePub, hd, modInverse_eq_none (by omega) hqp]

/-- With both inverses defined the components are what R175 says of them. -/
theorem rsaParts_with_inverses (hp : 2 < p) (hq : 2 < q) (he : Nat.gcd 65537 ((p - 1) * (q - 1)) = 1)
    (hqp : Nat.gcd q p = 1) :
    ∃ d qi, d < (p - 1) * (q - 1) ∧ 65537 * d % ((p - 1) * (q - 1)) = 1 ∧ qi < p ∧ q * qi % p = 1 ∧
      rsaParts p q = .ok ⟨p * q, d, d % (p - 1), d % (q - 1), qi⟩ := by
  obtain ⟨d, hd, hdlt, hdmul⟩ := modInverse_eq_some (two_le_phi hp hq) he
  obtain ⟨qi, hqi, hqilt, hqimul⟩ := modInverse_eq_some (m := p) (by omega) hqp
  exact ⟨d, qi, hdlt, hdmul, hqilt, hqimul, by rw [rsaParts, ePub, hd, hqi]⟩

/-- Components exist only with both inverses defined. -/
theorem gcds_of_rsaParts_ok {r : RsaParts} (hp : 2 < p) (hq : 2 < q) (hr : rsaParts p q = .ok r) :
    Nat.gcd 65537 ((p - 1) * (q - 1)) = 1 ∧ Nat.gcd q p = 1 := by
  by_cases he : Nat.gcd 65537 ((p - 1) * (q - 1)) = 1
  · refine ⟨he, ?_⟩
    by_contra hqp
    rw [rsaParts_without_qi hp hq he hqp] at hr
    cases hr
  · rw [rsaParts_without_dexp hp hq he] at hr
    cases hr

end

/-! ## RSAASM and RSAEXP -/

theorem rsaasmBody_missing (fin : State → State) {s : State} {m : Reg}
    (h : firstMissing (sources .rsaasm s) = some m) : rsaasmBody fin s = raise (.unwrittenOperand m.index) s :=
  need_missing rfl h fun _ h => need_missing rfl h nofun

theorem rsaexpBody_missing (fin : State → State) {s : State} {m : Reg}
    (h : firstMissing (sources .rsaexp s) = some m) : rsaexpBody fin s = raise (.unwrittenOperand m.index) s :=
  need_missing rfl h fun _ h => need_missing rfl h fun _ h => need_missing rfl h fun _ h => need_missing rfl h
    fun _ h => need_missing rfl h fun _ h => need_missing rfl h fun _ h => need_missing rfl h
    fun _ h => need_missing rfl h nofun

/-- R175: an undefined inverse is reported at the only step. -/
theorem rsaasmBody_error (fin : State → State) {s : State} {p q : Nat} {f : Cause} (hp : s.derived.p = some p)
    (hq : s.derived.q = some q) (hf : rsaParts p q = .error f) : rsaasmBody fin s = raise f s := by
  simp only [rsaasmBody, hp, hq, need_some, hf]

/-- Settles O37: a missing operand, then an undefined inverse, the one for `d` first, ends RSAASM with a fault; else it
writes the components. -/
theorem rsaasmResult : Obligations.RsaasmResult := by
  intro s hs
  refine ⟨fun r hr => completes_iff.mpr ?_, fun p q hp hq hp2 hq2 => ⟨fun he => completes_iff.mpr ?_,
    fun he hqp => completes_iff.mpr ?_, fun he hqp => ?_⟩⟩
  · exact runsTo_failed (e := .rsaasm) rfl hs fun seq => rsaasmBody_missing _ hr
  · exact runsTo_failed (e := .rsaasm) rfl hs fun seq =>
      rsaasmBody_error _ hp hq (rsaParts_without_dexp hp2 hq2 he)
  · exact runsTo_failed (e := .rsaasm) rfl hs fun seq =>
      rsaasmBody_error _ hp hq (rsaParts_without_qi hp2 hq2 he hqp)
  · obtain ⟨d, qi, hdlt, hdmul, hqilt, hqimul, hr⟩ := rsaParts_with_inverses hp2 hq2 he hqp
    exact ⟨d, qi, hdlt, hdmul, hqilt, hqimul, completes_iff.mpr
      (runsTo_finished (e := .rsaasm) rfl hs (elementLeads_rsaasm (v := started s) rfl hp hq hr))⟩

/-- The public exponent in the record: `01 00 01`, `AQAB` (R177, R178). -/
theorem outField_ePub : outField ePub 3 = ⟨[0x01, 0x00, 0x01], [0x41, 0x51, 0x41, 0x42]⟩ := by decide

/-- Settles O38: a missing operand ends RSAEXP with a fault; else it writes the record. -/
theorem rsaexpResult : Obligations.RsaexpResult := by
  intro s hs
  refine ⟨fun r hr => completes_iff.mpr ?_, fun p q n d dp dq qi l hp hq hn hd hdp hdq hqi hl => ?_⟩
  · exact runsTo_failed (e := .rsaexp) rfl hs fun seq => rsaexpBody_missing _ hr
  · have hrun : RunsTo Config.platform .rsaexp s
        (finished .rsaexp { s with out := .rsa (rsaRecord p q n d dp dq qi l) }) :=
      runsTo_finished (e := .rsaexp) rfl hs
        (elementLeads_rsaexp (v := started s) rfl hp hq hn hd hdp hdq hqi hl)
    rw [rsaRecord, outField_ePub] at hrun
    exact completes_iff.mpr hrun

/-! ## The numbers an RSA record decodes to -/

/-- A field that is wide enough decodes to its value. -/
theorem be2int_outField {v width : Nat} (h : v < 256 ^ width) : be2int (outField v width).raw = v :=
  (be2int_fixBE v width).trans (Nat.mod_eq_of_lt h)

/-- Settles O55: every component is below `p`, `q` or their product, so that no field of the record is cut. -/
theorem rsaStructuralValidity : Obligations.RsaStructuralValidity := by
  intro p q l r hp hq hpl hql hr
  obtain ⟨he, hqp⟩ := gcds_of_rsaParts_ok hp hq hr
  obtain ⟨d, qi, hd, hdmul, hqi, hqimul, hparts⟩ := rsaParts_with_inverses hp hq he hqp
  cases hr.symm.trans hparts
  have hnl : p * q < 256 ^ (2 * l) := by
    rw [Nat.two_mul, Nat.pow_add]
    exact Nat.mul_lt_mul'' hpl hql
  have hdl : d < 256 ^ (2 * l) := calc
    d < (p - 1) * (q - 1) := hd
    _ ≤ p * q := Nat.mul_le_mul (Nat.sub_le p 1) (Nat.sub_le q 1)
    _ < 256 ^ (2 * l) := hnl
  have hdp : d % (p - 1) < 256 ^ l := (Nat.mod_lt d (by omega)).trans (by omega)
  have hdq : d % (q - 1) < 256 ^ l := (Nat.mod_lt d (by omega)).trans (by omega)
  have hve : be2int (outField ePub 3).raw = 65537 := be2int_outField (by decide)
  simp only [rsaRecord, hve, be2int_outField hpl, be2int_outField hql, be2int_outField hnl, be2int_outField hdl,
    be2int_outField hdp, be2int_outField hdq, be2int_outField (hqi.trans hpl), hdmul, Nat.mul_comm qi q, hqimul,
    and_self]

end Sys2Proof.Machine

namespace Sys2Proof.Machine

/-! ## PSEC, ECRED and ECEXP -/

theorem psecBody_missing (c : Config) (fin : State → State) {s : State} {m : Reg}
    (h : firstMissing (sources .psec s) = some m) : psecBody c fin s = raise (.unwrittenOperand m.index) s :=
  need_missing (isSome_input s .peer) h fun _ h => need_missing rfl h nofun

/-- Settles O29: a missing operand ends PSEC at its checks; else one round gives the secret. -/
theorem psecResult : Obligations.PsecResult := by
  intro s hs
  refine ⟨fun r hr => completes_iff.mpr ?_, fun peer mk hpeer hmk => completes_iff.mpr ?_⟩
  · exact runsTo_failed (e := .psec) rfl hs fun q => psecBody_missing _ _ hr
  · exact runsTo_finished (e := .psec) rfl hs (elementLeads_psec (v := started s) rfl hpeer hmk)

theorem ecredBody_missing (fin : State → State) {s : State} (h : s.derived.ps = none) :
    ecredBody fin s = raise (.unwrittenOperand 6) s := by
  rw [ecredBody, h, need_none, Reg.index]

/-- Settles O39: without `PS` ECRED ends with a fault; else it reduces the whole of it. -/
theorem ecredResult : Obligations.EcredResult := by
  intro s hs
  refine ⟨fun hps => completes_iff.mpr ?_, fun ps hps => completes_iff.mpr ?_⟩
  · exact runsTo_failed (e := .ecred) rfl hs fun q => ecredBody_missing _ hps
  · exact runsTo_finished (e := .ecred) rfl hs (elementLeads_ecred (v := started s) rfl hps)

theorem ecexpBody_missing (fin : State → State) {s : State} {m : Reg}
    (h : firstMissing (sources .ecexp s) = some m) : ecexpBody fin s = raise (.unwrittenOperand m.index) s :=
  need_missing rfl h fun _ h => need_missing rfl h fun _ h => need_missing rfl h nofun

/-- Settles O41: a missing operand ends ECEXP with a fault; else it writes the record. -/
theorem ecexpResult : Obligations.EcexpResult := by
  intro s hs
  refine ⟨fun r hr => completes_iff.mpr ?_, fun d x y hd hx hy => completes_iff.mpr ?_⟩
  · exact runsTo_failed (e := .ecexp) rfl hs fun q => ecexpBody_missing _ hr
  · exact runsTo_finished (e := .ecexp) rfl hs (elementLeads_ecexp (v := started s) rfl hd hx hy)

end Sys2Proof.Machine

namespace Sys2Proof.Machine

/-! ## The group law by coordinates (R192) -/

theorem subP_modEq (a b : Nat) : (subP a b : Int) ≡ a - b [ZMOD ecP] := by
  have : Fact (Nat.Prime ecP) := ⟨ecP_prime⟩
  rw [← ZMod.intCast_eq_intCast_iff]
  push_cast
  exact cast_subP a b

theorem mul_invP_modEq_one {z : Nat} (hz : z % ecP ≠ 0) : z * invP z ≡ 1 [MOD ecP] := by
  rw [Nat.ModEq, invP_spec z hz]
  rfl

/-- The coordinates of the third point, from the slope. -/
theorem chord_coordinates (l x1 y1 x2 : Nat) : ∃ x3 y3 : Nat, chord l x1 y1 x2 = .affine x3 y3 ∧
    (x3 : Int) ≡ l ^ 2 - x1 - x2 [ZMOD ecP] ∧ (y3 : Int) ≡ l * (x1 - x3) - y1 [ZMOD ecP] := by
  refine ⟨_, _, rfl, ?_, ?_⟩
  · refine (subP_modEq _ _).trans (Int.ModEq.sub_right _ ?_)
    rw [pow_two, ← Nat.cast_mul]
    exact subP_modEq _ _
  · refine (subP_modEq _ _).trans (Int.ModEq.sub_right _ ?_)
    rw [Nat.cast_mul]
    exact (subP_modEq _ _).mul_left _

/-- Points of the curve with the same first coordinate are opposite or equal: the curve's equation fixes the square of
the second. -/
theorem opposite_or_eq_of_same_x {x y1 y2 : Nat} (h1 : (Point.affine x y1).OnCurve) (h2 : (Point.affine x y2).OnCurve) :
    (y1 + y2) % ecP = 0 ∨ y1 = y2 := by
  have : Fact (Nat.Prime ecP) := ⟨ecP_prime⟩
  obtain ⟨-, hy1, he1⟩ := onCurve_iff.mp h1
  obtain ⟨-, hy2, he2⟩ := onCurve_iff.mp h2
  rw [curve_equation_iff] at he1 he2
  obtain h | h := sq_eq_sq_iff_eq_or_eq_neg.mp (he1.trans he2.symm)
  · exact .inr ((cast_inj hy1 hy2).mp h)
  · rw [eq_neg_iff_add_eq_zero, ← Nat.cast_add, ZMod.natCast_eq_zero_iff] at h
    exact .inl (Nat.mod_eq_zero_of_dvd h)

/-- Points of the curve that are neither opposite nor equal differ in the first coordinate, so that it has an inverse to
divide by. -/
theorem subP_mod_ne_zero {x1 y1 x2 y2 : Nat} (h1 : (Point.affine x1 y1).OnCurve) (h2 : (Point.affine x2 y2).OnCurve)
    (hopp : ¬(x1 = x2 ∧ (y1 + y2) % ecP = 0)) (hne : ¬(x1 = x2 ∧ y1 = y2)) : subP x2 x1 % ecP ≠ 0 := by
  have : Fact (Nat.Prime ecP) := ⟨ecP_prime⟩
  have hx : x1 ≠ x2 := by
    rintro rfl
    exact (opposite_or_eq_of_same_x h1 h2).elim (fun h => hopp ⟨rfl, h⟩) fun h => hne ⟨rfl, h⟩
  intro h
  have hsub : ((subP x2 x1 : Nat) : ZMod ecP) = 0 := (ZMod.natCast_eq_zero_iff _ _).mpr (Nat.dvd_of_mod_eq_zero h)
  rw [cast_subP, sub_eq_zero] at hsub
  exact hx ((cast_inj h1.1 h2.1).mp hsub.symm)

theorem addPoint_opposite {x1 y1 x2 y2 : Nat} (h : x1 = x2 ∧ (y1 + y2) % ecP = 0) :
    addPoint (.affine x1 y1) (.affine x2 y2) = .infinity := if_pos h

/-- Points of the curve that are not opposite have a slope, the tangent's or the chord's, and their sum is the third
point it gives. -/
theorem addPoint_eq_chord {x1 y1 x2 y2 : Nat} (h1 : (Point.affine x1 y1).OnCurve) (h2 : (Point.affine x2 y2).OnCurve)
    (hopp : ¬(x1 = x2 ∧ (y1 + y2) % ecP = 0)) : ∃ lambda inv : Nat,
    addPoint (.affine x1 y1) (.affine x2 y2) = chord lambda x1 y1 x2 ∧
    (if x1 = x2 ∧ y1 = y2 then 2 * y1 * inv ≡ 1 [MOD ecP] ∧ lambda ≡ 3 * x1 ^ 2 * inv [MOD ecP]
      else ((x2 : Int) - x1) * inv ≡ 1 [ZMOD ecP] ∧ (lambda : Int) ≡ (y2 - y1) * inv [ZMOD ecP]) := by
  by_cases heq : x1 = x2 ∧ y1 = y2
  · have hy : 2 * y1 % ecP ≠ 0 := fun h => hopp ⟨heq.1, by rwa [← heq.2, ← Nat.two_mul]⟩
    refine ⟨3 * (x1 * x1) * invP (2 * y1) % ecP, invP (2 * y1), ?_, ?_⟩
    · rw [addPoint, if_neg hopp, if_pos heq]
    · rw [if_pos heq, pow_two]
      exact ⟨mul_invP_modEq_one hy, Nat.mod_modEq _ _⟩
  · refine ⟨subP y2 y1 * invP (subP x2 x1) % ecP, invP (subP x2 x1), ?_, ?_⟩
    · rw [addPoint, if_neg hopp, if_neg heq]
    · rw [if_neg heq]
      constructor
      · exact ((subP_modEq x2 x1).symm.mul_right _).trans
          (mod_cast Int.natCast_modEq_iff.mpr (mul_invP_modEq_one (subP_mod_ne_zero h1 h2 hopp heq)))
      · refine (Int.natCast_modEq_iff.mpr (Nat.mod_modEq _ _)).trans ?_
        rw [Nat.cast_mul]
        exact (subP_modEq y2 y1).mul_right _

theorem addPoint_onCurve {a b : Point} (ha : a.OnCurve) (hb : b.OnCurve) : (addPoint a b).OnCurve :=
  have : Fact (Nat.Prime ecP) := ⟨ecP_prime⟩
  (toCurve_addPoint a b ha hb).1

/-! ## The multiple of a point (R193) -/

theorem mulPoint_onCurve {a : Point} (ha : a.OnCurve) (k : Nat) : (mulPoint k a).OnCurve :=
  have : Fact (Nat.Prime ecP) := ⟨ecP_prime⟩
  (toCurve_mulPoint a ha k).1

/-- Doubling and adding gives the sum of `k` terms: both are `k` times the point in the group. -/
theorem mulPoint_eq_sumPoint {a : Point} (ha : a.OnCurve) (k : Nat) : mulPoint k a = sumPoint k a := by
  have : Fact (Nat.Prime ecP) := ⟨ecP_prime⟩
  obtain ⟨_, hmul⟩ := toCurve_mulPoint a ha k
  obtain ⟨_, hsum⟩ := toCurve_sumPoint a ha k
  exact toCurve_injective (hmul.trans hsum.symm)

theorem toCurve_eq_zero_iff [Fact (Nat.Prime ecP)] {a : Point} (ha : a.OnCurve) : toCurve a ha = 0 ↔ a = .infinity :=
  ⟨fun h => toCurve_injective (hb := trivial) h, by rintro rfl; rfl⟩

theorem nsmul_toCurve_eq_zero_iff [Fact (Nat.Prime ecP)] {a : Point} (ha : a.OnCurve) (k : Nat) :
    k • toCurve a ha = 0 ↔ mulPoint k a = .infinity := by
  obtain ⟨h, hk⟩ := toCurve_mulPoint a ha k
  rw [← hk, toCurve_eq_zero_iff]

/-- The order of the generator is the prime `EC_N`. -/
theorem addOrderOf_ecG [Fact (Nat.Prime ecP)] : addOrderOf (toCurve ecG ecG_onCurve) = ecN := by
  have : Fact (Nat.Prime ecN) := ⟨ecN_prime⟩
  refine addOrderOf_eq_prime ((nsmul_toCurve_eq_zero_iff ecG_onCurve ecN).mpr mulPoint_ecN) ?_
  rw [Ne, toCurve_eq_zero_iff]
  nofun

theorem mulPoint_ecG_eq_infinity_iff (k : Nat) : mulPoint k ecG = .infinity ↔ k % ecN = 0 := by
  have : Fact (Nat.Prime ecP) := ⟨ecP_prime⟩
  rw [← nsmul_toCurve_eq_zero_iff ecG_onCurve, ← addOrderOf_dvd_iff_nsmul_eq_zero, addOrderOf_ecG,
    Nat.dvd_iff_mod_eq_zero]

/-- A reduced scalar other than 0 has a public point (R193, R200). -/
theorem mulPoint_ecG_affine {d : Nat} (h1 : 1 ≤ d) (hlt : d < ecN) : ∃ x y, mulPoint d ecG = .affine x y := by
  cases hxy : mulPoint d ecG with
  | infinity =>
    rw [mulPoint_ecG_eq_infinity_iff, Nat.mod_eq_of_lt hlt] at hxy
    omega
  | affine x y => exact ⟨x, y, rfl⟩

/-! ## ECMUL -/

theorem ecmulBody_missing (fin : State → State) {s : State} (h : s.derived.ecd = none) :
    ecmulBody fin s = raise (.unwrittenOperand 16) s := by
  rw [ecmulBody, h, need_none, Reg.index]

/-- ECMUL on a scalar whose multiple has coordinates writes them (R196). -/
theorem completes_ecmul {s : State} {d x y : Nat} (hs : Ready s) (hd : s.derived.ecd = some d)
    (hxy : mulPoint d ecG = .affine x y) :
    Completes .ecmul s (finished .ecmul { s with derived := { s.derived with qx := some x, qy := some y } }) :=
  completes_iff.mpr (runsTo_finished (e := .ecmul) rfl hs (elementLeads_ecmul (v := started s) rfl hd hxy))

/-- Settles O40: ECMUL writes the multiple of the generator, which has coordinates unless `EC_N` divides the scalar; the
sum of R192 is the chord's or the tangent's third point, and the multiple is the sum of that many terms. -/
theorem ecmulResult : Obligations.EcmulResult := by
  refine ⟨fun s hs => ⟨fun hd => completes_iff.mpr ?_, fun hd => completes_iff.mpr ?_, fun d hd h1 hlt => ?_,
    fun d x y hd hxy => completes_ecmul hs hd hxy⟩, fun a => ⟨rfl, ?_⟩, fun x1 y1 x2 y2 h1 h2 => ?_,
    fun k a ha => ⟨mulPoint_eq_sumPoint ha k, mulPoint_onCurve ha k⟩, fun a => ⟨rfl, fun k => rfl⟩, ecG_onCurve,
    mulPoint_ecG_eq_infinity_iff⟩
  · exact runsTo_failed (e := .ecmul) rfl hs fun q => ecmulBody_missing _ hd
  · exact runsTo_failed (e := .ecmul) rfl hs fun q =>
      ecmulBody_infinity _ hd ((mulPoint_ecG_eq_infinity_iff 0).mpr (Nat.zero_mod ecN))
  · obtain ⟨x, y, hxy⟩ := mulPoint_ecG_affine h1 hlt
    exact ⟨x, y, (mulPoint_eq_sumPoint ecG_onCurve d).symm.trans hxy, hxy ▸ mulPoint_onCurve ecG_onCurve d,
      completes_ecmul hs hd hxy⟩
  · cases a <;> rfl
  · split
    · next hopp => exact addPoint_opposite hopp
    · next hopp =>
      obtain ⟨lambda, inv, hadd, hslope⟩ := addPoint_eq_chord h1 h2 hopp
      obtain ⟨x3, y3, hchord, hx3, hy3⟩ := chord_coordinates lambda x1 y1 x2
      have hsum := hadd.trans hchord
      exact ⟨lambda, inv, x3, y3, hsum, hsum ▸ addPoint_onCurve h1 h2, hslope, hx3, hy3⟩

/-! ## The numbers an EC record decodes to -/

/-- Settles O56: the scalar and the coordinates fit 32 bytes, and a scalar with a public point is not 0. -/
theorem ecRangeValidity : Obligations.EcRangeValidity := by
  intro d x y hd hxy
  have hcurve : (Point.affine x y).OnCurve := hxy ▸ mulPoint_onCurve ecG_onCurve d
  obtain ⟨hx, hy⟩ := mulPoint_ecG_lt hxy
  have hN : ecN < 256 ^ 32 := by decide
  have hP : ecP < 256 ^ 32 := by decide
  have hpos : 1 ≤ d := Nat.one_le_iff_ne_zero.mpr fun h0 => by
    rw [(mulPoint_ecG_eq_infinity_iff d).mpr (by rw [h0, Nat.zero_mod])] at hxy
    cases hxy
  simp only [ecRecord, be2int_outField (hd.trans hN), be2int_outField (hx.trans hP), be2int_outField (hy.trans hP)]
  exact ⟨hpos, hd, hx, hy, hcurve, hxy⟩

end Sys2Proof.Machine

namespace Sys2Proof.Machine

/-! ## CLR, WIPE, fault entry and completion, field by field -/

/-- At an idle engine CLR is performed in the accepting step (R107, R220). -/
theorem clr_idle {s : State} (hb : s.flags.busy = false) : clr s = clearDerivedState (latchCommand .clr s) :=
  if_neg (by simp [hb])

/-- At an idle engine WIPE leaves the reset state but for `CUR` (R222). -/
theorem wipe_idle {s : State} (hb : s.flags.busy = false) : wipe s =
    { State.reset with seq := { State.reset.seq with cur := 0x02 }, host := s.host } := by
  rw [wipe, if_neg (by simp [hb])]
  simp [clearInputs, clearDerivedState, latchCommand, Seq.cleared, State.reset, opcode, hb]

/-- Settles O20: acceptance, then the clearing, and `BUSY` is 0 already. -/
theorem clrDiscards : Obligations.ClrDiscards := by
  intro s hb
  rw [exec_eq_commandStep, commandStep, clr_idle hb]
  simp [clearDerivedState, latchCommand, Seq.cleared, Derived.invalid, opcode, hb]

/-- Settles O21: `STATUS` shows none of the host's port, the one part that is not fixed. -/
theorem wipeRestoresReset : Obligations.WipeRestoresReset := by
  intro s hb
  refine ⟨_, exec_eq_commandStep .wipe s, wipe_idle hb, ?_⟩
  have hword : statusWord { State.reset with seq := { State.reset.seq with cur := 0x02 } } = 0x00020000 := by decide
  rw [commandStep, wipe_idle hb]
  exact hword

/-- Settles O22: the definitions of `raise` and `complete`, written out. -/
theorem faultEntryAndCompletion : Obligations.FaultEntryAndCompletion :=
  ⟨fun _ _ => rfl, fun _ => rfl⟩

/-! ## The key type -/

/-- Upper-casing reaches a capital letter from that letter and from its lower case alone (R216). -/
theorem foldCase_eq_iff {x y : Byte} (hA : 0x41 ≤ y.toNat) (hZ : y.toNat ≤ 0x5A) :
    foldCase x = y ↔ x = y ∨ x = y + 0x20 := by
  unfold foldCase
  split
  · constructor
    · intro h; right; bv_omega
    · rintro (h | h) <;> bv_omega
  · constructor
    · exact .inl
    · rintro (h | h) <;> bv_omega

theorem matchKeyType_eq_ec_iff (t : Bytes) : matchKeyType t = some .ec ↔ t.map foldCase = [0x45, 0x43] := by
  unfold matchKeyType
  split
  · next h => exact iff_of_true rfl h
  · next h => split <;> exact iff_of_false nofun h

theorem matchKeyType_eq_rsa_iff (t : Bytes) : matchKeyType t = some .rsa ↔ t.map foldCase = [0x52, 0x53, 0x41] := by
  unfold matchKeyType
  split
  · next h => exact iff_of_false nofun (by rw [h]; decide)
  · split
    · next h => exact iff_of_true rfl h
    · next h => exact iff_of_false nofun h

/-- Settles O54: the folded string is matched whole, letter by letter. -/
theorem keyTypeMatch : Obligations.KeyTypeMatch := by
  refine ⟨fun t => ?_, fun t => ?_⟩
  · rw [matchKeyType_eq_ec_iff]
    simp [List.map_eq_cons_iff, foldCase_eq_iff]
  · rw [matchKeyType_eq_rsa_iff]
    simp [List.map_eq_cons_iff, foldCase_eq_iff]

/-! ## The faults of GEN's start -/

section
variable {c : Config} {s : State} {kt : Bytes}

theorem genChecks_withoutKeyType (ht : s.input .ktype = none) : genChecks c s = raise (.unwrittenOperand 4) s := by
  rw [genChecks, ht, need_none, Reg.index]

theorem genChecks_unsupported (ht : s.input .ktype = some kt) (hk : matchKeyType kt = none) :
    genChecks c s = raise (.unsupportedKeyType kt.length) s := by
  rw [genChecks, ht, need_some, hk]

/-- SEED, DID and PEER are read in this order, whatever the key type (R215, R239). -/
theorem genChecks_missing {k : Kind} {r : Reg} (ht : s.input .ktype = some kt) (hk : matchKeyType kt = some k)
    (h : firstMissing [(.seed, s.seed.valid), (.did, s.did.valid), (.peer, s.peer.valid)] = some r) :
    genChecks c s = raise (.unwrittenOperand r.index) s := by
  rw [genChecks, ht, need_some, hk]
  exact need_missing (isSome_input s .seed) h fun _ h => need_missing (isSome_input s .did) h fun _ h =>
    need_missing (isSome_input s .peer) h nofun

theorem exists_input {b : Buf} (h : (s.inputReg b).valid = true) : ∃ x, s.input b = some x :=
  Option.isSome_iff_exists.mp ((isSome_input s b).trans h)

/-- With the inputs there, what is left to check is RSA's key size (R215, R235). -/
theorem genChecks_inputs {k : Kind} (ht : s.input .ktype = some kt) (hk : matchKeyType kt = some k)
    (hseed : s.seed.valid = true) (hdid : s.did.valid = true) (hpeer : s.peer.valid = true) :
    genChecks c s =
      if k = .rsa ∧ keySizeLegal c s.keySize.toNat = false then raise .invalidKeySize s else setPc k 1 s := by
  obtain ⟨seed, hseed⟩ := exists_input (b := .seed) hseed
  obtain ⟨did, hdid⟩ := exists_input (b := .did) hdid
  obtain ⟨peer, hpeer⟩ := exists_input (b := .peer) hpeer
  simp only [genChecks, ht, hk, hseed, hdid, hpeer, need_some]

/-- The state GEN's checks see: everything CLR does is done, under GEN's opcode (R107, R215). -/
theorem clearDerivedState_accept_gen (hs : Ready s) : clearDerivedState (accept .gen s) =
    { started (clearDerivedState s) with seq := { s.seq.cleared with cur := opcode .gen, sub := opcode .gen } } := by
  rw [accept_ready .gen s hs.2]
  rfl

/-- A fault of GEN's checks ends its run (R240). -/
theorem runsTo_gen_failed {f : Cause} (hs : Ready s)
    (h : ∀ q : Seq, genChecks c { started (clearDerivedState s) with seq := q } =
      raise f { started (clearDerivedState s) with seq := q }) :
    RunsTo c .gen s (failed .gen f (clearDerivedState s)) := by
  rw [runsTo_gen hs, genBody_accept c hs, clearDerivedState_accept_gen hs, h]
  exact .idle _ rfl

end

/-- Settles O42: the checks of GEN's start, in their order. -/
theorem genStartFaults : Obligations.GenStartFaults := fun _ s hs =>
  ⟨fun ht => runsTo_gen_failed hs fun _ => genChecks_withoutKeyType ht,
    fun _ ht hk => runsTo_gen_failed hs fun _ => genChecks_unsupported ht hk,
    fun _ _ _ ht hk hr => runsTo_gen_failed hs fun _ => genChecks_missing ht hk hr,
    fun _ ht hk hseed hdid hpeer hlegal => runsTo_gen_failed hs fun q =>
      (genChecks_inputs (s := { started (clearDerivedState s) with seq := q }) ht hk hseed hdid hpeer).trans
        (if_pos ⟨rfl, hlegal⟩)⟩

/-! ## The places of GEN's sequence -/

section
variable {k : Kind} {pc : BitVec 4}

/-- Past `CLR` the script of a key type names the elements of its sequence, each by its command (R217, R218, R225). -/
theorem exists_element {i : Instr} (h0 : pc ≠ 0) (hi : (stepScript k)[pc.toNat]? = some i) :
    ∃ e, Instr.element i = some e ∧ elementAt k pc = some e := by
  have hplaces : ∀ k, ∀ pc : BitVec 4, pc ≠ 0 → ∀ i ∈ (stepScript k)[pc.toNat]?,
      (Instr.element i).isSome ∧ elementAt k pc = Instr.element i := by
    intro k; cases k <;> decide
  obtain ⟨hsome, hat⟩ := hplaces k pc h0 i hi
  obtain ⟨e, he⟩ := Option.isSome_iff_exists.mp hsome
  exact ⟨e, he, hat.trans he⟩

/-- After them comes SCRUB (R219). -/
theorem elementAt_scrub (h : pc.toNat = (stepScript k).length) : elementAt k pc = some .scrub := by
  revert pc
  cases k <;> decide

/-- Nothing comes after SCRUB. -/
theorem elementAt_end (h : pc.toNat = (stepScript k).length + 1) : elementAt k pc = none := by
  revert pc
  cases k <;> decide

/-- What GEN holds in `SUB` at a place of its sequence: the opcode of the script's command there, or its own (R36). -/
theorem elementAt_sub (h0 : pc ≠ 0) : ((elementAt k pc).map Element.sub).getD (opcode .gen) =
    ((stepScript k)[pc.toNat]?.map opcode).getD 0x20 := by
  revert pc
  cases k <;> decide

theorem stepScript_length_le (k : Kind) : (stepScript k).length ≤ 8 := by cases k <;> decide

/-- The places of a sequence are far below the width of `GIDX`. -/
theorem toNat_next (h : pc.toNat ≤ (stepScript k).length) : (pc + 1).toNat = pc.toNat + 1 := by
  have hlen := stepScript_length_le k
  rw [BitVec.toNat_add_of_lt (by simp; omega)]
  rfl

theorem next_ne_zero (h : pc.toNat ≤ (stepScript k).length) : pc + 1 ≠ 0 := fun h0 => by
  have hnext := toNat_next h
  rw [h0] at hnext
  cases hnext

theorem toNat_lt_of_getElem? {i : Instr} (hi : (stepScript k)[pc.toNat]? = some i) :
    pc.toNat < (stepScript k).length := (List.getElem?_eq_some_iff.mp hi).1

end

/-- What stands for `complete` at an element's end within GEN, in the script's terms (R217). -/
theorem advancePc_eq {k : Kind} {s u : State} (hseq : u.seq = s.seq) (h : s.seq.gidx.toNat ≤ (stepScript k).length) :
    advancePc k u = { u with seq := { s.seq with
      gidx := s.seq.gidx + 1
      sub := ((stepScript k)[s.seq.gidx.toNat + 1]?.map opcode).getD 0x20
      phase := .operands } } := by
  rw [advancePc, setPc, hseq, elementAt_sub (next_ne_zero h), toNat_next h]

/-- Settles O43: the element at GEN's place is that of the script's command there, and ends alike under `complete` and
under `pc + 1`; SCRUB and the end of the sequence follow. -/
theorem genRunsTheSequence : Obligations.GenRunsTheSequence := by
  intro s t k hb ht hk
  refine ⟨fun i h0 hi => ?_, fun hlen => ?_, fun hlen => ?_⟩
  · obtain ⟨e, he, hat⟩ := exists_element h0 hi
    rw [exec_eq_commandStep, exec_eq_commandStep, commandStep_busy _ i e s he hb, commandStep_gen_element hb ht hk hat]
    obtain ⟨u, hseq, hbusy, hdone, hend⟩ | ⟨u, hu, hstep⟩ := elementBody_endsAlike Config.platform e s
    · have hnext : elementBody Config.platform e (advancePc k) s = advancePc k u := hend _
      refine .inl ⟨u, hseq, hbusy.trans hb, hdone, congrArg _ (hend complete), ?_⟩
      rw [hnext, advancePc_eq hseq (toNat_lt_of_getElem? hi).le]
    · exact .inr ⟨u, congrArg _ (hstep complete), congrArg _ (hstep _), hu.imp_left (·.trans hb)⟩
  · rw [exec_eq_commandStep, commandStep_gen_element hb ht hk (elementAt_scrub hlen)]
    have hnext := advancePc_eq (s := s) (u := { s with derived := Derived.invalid }) rfl hlen.le
    rw [List.getElem?_eq_none (by omega)] at hnext
    exact congrArg _ hnext
  · have h0 : s.seq.gidx ≠ 0 := fun h0 => by rw [h0] at hlen; cases hlen
    rw [exec_eq_commandStep, commandStep_gen_busy _ s hb, genBody, if_neg h0, genElement, ht, need_some, hk]
    simp only [elementAt_end hlen]

end Sys2Proof.Machine

namespace Sys2Proof.Machine

/-! ## How an element can come out -/

/-- The engine steps of an element lead from `s` to the fault entry that leaves `t` (R240). -/
inductive ElementFault (c : Config) (e : Element) : State → State → Prop where
  | raises {s t : State} (h : ∀ fin, elementBody c e fin s = t) (hb : t.flags.busy = false) : ElementFault c e s t
  | goesOn {s t u : State} (h : ∀ fin, elementBody c e fin s = t) (hb : t.flags.busy = true)
    (hr : ElementFault c e t u) : ElementFault c e s u

/-- From its operand checks on, the element takes a running engine from `v` to `u` and raises `f` there; the sequencer
of neither counts. -/
def ElementFails (c : Config) (e : Element) (v : State) (f : Cause) (u : State) : Prop :=
  ∀ q : Seq, q.phase = .operands → ∃ q', ElementFault c e { v with seq := q } (raise f { u with seq := q' })

/-- From a state of `P` the element goes on to another one, whatever stands at its end, and so for ever. -/
def GoesOnWithin (c : Config) (e : Element) (P : State → Prop) : Prop :=
  ∀ s, P s → s.flags.busy = true ∧ ∃ t, P t ∧ ∀ fin, elementBody c e fin s = t

/-- The three ways an element comes out, each without regard to the sequencer it starts with. -/
inductive ElementOutcome (c : Config) (e : Element) (v : State) : Prop where
  | leads (u : State) (h : ElementLeads c e v u)
  | fails (f : Cause) (u : State) (h : ElementFails c e v f u)
  | hangs (P : State → Prop) (hP : GoesOnWithin c e P) (h : ∀ q : Seq, q.phase = .operands → P { v with seq := q })

section
variable {c : Config} {e : Element} {v : State}

/-- An element whose first step raises. -/
theorem elementFails_of_step {f : Cause}
    (h : ∀ q : Seq, q.phase = .operands → ∀ fin,
      elementBody c e fin { v with seq := q } = raise f { v with seq := q }) :
    ElementFails c e v f v :=
  fun q hq => ⟨q, .raises (h q hq) rfl⟩

/-- A step command with a source missing raises (R236). -/
theorem elementBody_missing {i : Instr} {s : State} {m : Reg} (he : Instr.element i = some e)
    (h : firstMissing (sources i s) = some m) (fin : State → State) :
    elementBody c e fin s = raise (.unwrittenOperand m.index) s := by
  cases i <;> cases he
  case mkey => exact mkeyBody_missing c fin h
  case psec => exact psecBody_missing c fin h
  case pgen => exact pgenBody_missing c fin h
  case qgen => exact qgenBody_missing c fin h
  case rsaasm => exact rsaasmBody_missing fin h
  case rsaexp => exact rsaexpBody_missing fin h
  case ecexp => exact ecexpBody_missing fin h
  case psrch | qsrch | ecred | ecmul => exact need_missing rfl h nofun

theorem elementFails_missing {i : Instr} {m : Reg} (he : Instr.element i = some e)
    (h : firstMissing (sources i v) = some m) : ElementFails c e v (.unwrittenOperand m.index) v :=
  elementFails_of_step fun q _ => elementBody_missing (s := { v with seq := q }) he h

theorem firstMissing_eq_none_iff (l : List (Reg × Bool)) : firstMissing l = none ↔ ∀ r ∈ l, r.2 = true := by
  simp [firstMissing]

end

/-! ### The searches -/

section
variable {c : Config} {w : Which} {b : Bytes} {v : State}

theorem base_enterSearch (hb : w.base v.derived = some b) : w.base (enterSearch w b v).derived = some b := by
  rw [← hb]; cases w <;> rfl

theorem base_rejected {x : Nat} (hb : w.base v.derived = some b) : w.base (v.rejected c w b x).derived = some b := by
  rw [← hb]; cases w <;> rfl

/-- The rejection that reaches the cap `m`, after `n` more below it; what the search leaves does not depend on the
sequencer (R163). -/
theorem elementFault_exhausted {m : Nat} (hm : c.iterCap = some m) (n : Nat) {x : Nat} (hbusy : v.flags.busy = true)
    (hb : w.base v.derived = some b) (hx : v.derived.cand = some x)
    (hrej : ∀ j ≤ n, c.primeOracle (x + 2 * j) = false) :
    ∃ u : State, ∀ q : Seq, q.phase = .loop → q.tests + n + 1 = m → ∃ q',
      ElementFault c w.element { v with seq := q } (raise (.primeSearchExhausted w.info) { u with seq := q' }) := by
  have hcap : ∀ tests, capReached c tests = decide (m ≤ tests) := fun tests => by rw [capReached, hm]
  induction n generalizing v x with
  | zero =>
    refine ⟨v.countTest c w, fun q hq htests => ⟨{ q with tests := q.tests + 1 }, .raises (fun fin => ?_) rfl⟩⟩
    rw [elementBody_search, searchBody_loop (s := { v with seq := q }) fin hb hq hx]
    exact testCandidate_exhausted (hrej 0 le_rfl) (by simp [hcap, ← htests])
  | succ n ih =>
    obtain ⟨u, hu⟩ := ih (v := v.rejected c w b x) (x := x + 2) hbusy (base_rejected hb) rfl fun j hj => by
      rw [show x + 2 + 2 * j = x + 2 * (j + 1) by ring]
      exact hrej (j + 1) (Nat.succ_le_succ hj)
    refine ⟨u, fun q hq htests => ?_⟩
    have hbelow : capReached c (q.tests + 1) = false := by rw [hcap]; exact decide_eq_false (by omega)
    let next : Seq := { q with tests := q.tests + 1 }
    obtain ⟨q', hrun⟩ := hu next hq (by show q.tests + 1 + n + 1 = m; omega)
    refine ⟨q', .goesOn (t := { v.rejected c w b x with seq := next }) (fun fin => ?_) hbusy hrun⟩
    rw [elementBody_search, searchBody_loop (s := { v with seq := q }) fin hb hq hx]
    exact testCandidate_rejected (s := { v with seq := q }) (hrej 0 n.succ.zero_le) hbelow

/-- With a cap of `m` and the first `m` candidates rejected a search raises (R163). -/
theorem elementFails_exhausted {m : Nat} (hm : c.iterCap = some m) (hbusy : v.flags.busy = true)
    (hb : w.base v.derived = some b) (hrej : ∀ j < m, c.primeOracle (cand0 b + 2 * j) = false) :
    ∃ u, ElementFails c w.element v (.primeSearchExhausted w.info) u := by
  obtain ⟨n, rfl⟩ := Nat.exists_eq_succ_of_ne_zero (iterCap_pos hm).ne'
  obtain ⟨u, hu⟩ := elementFault_exhausted (v := enterSearch w b v) hm n hbusy (base_enterSearch hb) rfl
    fun j hj => hrej j (Nat.lt_succ_of_le hj)
  refine ⟨u, fun q hq => ?_⟩
  let start : Seq := { q with tests := 0, phase := .loop }
  obtain ⟨q', hrun⟩ := hu start rfl (by simp [start])
  refine ⟨q', .goesOn (t := { enterSearch w b v with seq := start }) (fun fin => ?_) hbusy hrun⟩
  rw [elementBody_search]
  exact searchBody_operands (s := { v with seq := q }) fin hb hq

/-- A search over the base `b`, about to start or about to test one of its candidates. -/
structure Searches (w : Which) (b : Bytes) (s : State) : Prop where
  busy : s.flags.busy = true
  base : w.base s.derived = some b
  place : s.seq.phase = .operands ∨ s.seq.phase = .loop ∧ ∃ n, s.derived.cand = some (cand0 b + 2 * n)

/-- Without a cap and without an accepted candidate a search never ends (R162, R233). -/
theorem goesOnWithin_searches (hcap : c.iterCap = none) (hrej : SearchHasNoResult c b) :
    GoesOnWithin c w.element (Searches w b) := by
  rintro s ⟨hbusy, hb, hp | ⟨hp, n, hx⟩⟩
  · refine ⟨hbusy, enterSearch w b s, ⟨hbusy, base_enterSearch hb, .inr ⟨rfl, 0, rfl⟩⟩, fun fin => ?_⟩
    rw [elementBody_search, searchBody_operands fin hb hp]
  · refine ⟨hbusy, s.rejected c w b (cand0 b + 2 * n), ⟨hbusy, base_rejected hb, .inr ⟨hp, n + 1, rfl⟩⟩, fun fin => ?_⟩
    rw [elementBody_search, searchBody_loop fin hb hp hx, testCandidate_rejected (hrej n) (by rw [capReached, hcap])]

/-- A search with its base there finds a candidate, exhausts its cap, or never ends (R162, R163, R169). -/
theorem elementOutcome_search (hbusy : v.flags.busy = true) (hb : w.base v.derived = some b) :
    ElementOutcome c w.element v := by
  by_cases hcap : ∃ m, c.iterCap = some m ∧ ∀ j < m, c.primeOracle (cand0 b + 2 * j) = false
  · obtain ⟨m, hm, hrej⟩ := hcap
    obtain ⟨u, hu⟩ := elementFails_exhausted hm hbusy hb hrej
    exact .fails _ u hu
  by_cases hfound : ∃ k, c.primeOracle (cand0 b + 2 * k) = true
  · have hrej : ∀ j < Nat.find hfound, c.primeOracle (cand0 b + 2 * j) = false :=
      fun j hj => Bool.eq_false_iff.mpr (Nat.find_min hfound hj)
    have hallows : CapAllows c (Nat.find hfound) := fun m hm => by
      by_contra hle
      exact hcap ⟨m, hm, fun j hj => hrej j (by omega)⟩
    exact .leads _ (elementLeads_search hbusy hb ⟨rfl, Nat.find_spec hfound, hrej⟩ hallows)
  · have hrej : SearchHasNoResult c b := fun k => Bool.eq_false_iff.mpr fun h => hfound ⟨k, h⟩
    have hnone : c.iterCap = none := Option.eq_none_iff_forall_ne_some.mpr fun m hm => hcap ⟨m, hm, fun j _ => hrej j⟩
    exact .hangs _ (goesOnWithin_searches hnone hrej) fun q hq => ⟨hbusy, hb, .inl hq⟩

end

/-! ### Every element -/

/-- With its sources there a step command's element comes out in one of the three ways. -/
theorem elementOutcome_of_sources (c : Config) {i : Instr} {e : Element} {v : State} (he : Instr.element i = some e)
    (hb : v.flags.busy = true) (hm : ∀ r ∈ sources i v, r.2 = true) : ElementOutcome c e v := by
  cases i <;> cases he <;>
    simp only [sources, List.forall_mem_cons, List.not_mem_nil, IsEmpty.forall_iff, implies_true, and_true,
      Option.isSome_iff_exists] at hm
  case mkey =>
    obtain ⟨seed, hseed⟩ := exists_input (b := .seed) hm.1
    obtain ⟨did, hdid⟩ := exists_input (b := .did) hm.2
    exact .leads _ (elementLeads_mkey hb hseed hdid)
  case psec =>
    obtain ⟨hpeer, mk, hmk⟩ := hm
    obtain ⟨peer, hpeer⟩ := exists_input (b := .peer) hpeer
    exact .leads _ (elementLeads_psec hb hpeer hmk)
  case pgen =>
    obtain ⟨hpeer, mk, hmk⟩ := hm
    obtain ⟨peer, hpeer⟩ := exists_input (b := .peer) hpeer
    cases hlegal : keySizeLegal c v.keySize.toNat
    · exact .fails _ v (elementFails_of_step fun q hq fin =>
        pgenBody_illegal c fin (s := { v with seq := q }) hpeer hmk hq hlegal)
    · exact .leads _ (elementLeads_pgen hb hpeer hmk hlegal)
  case qgen =>
    obtain ⟨hpeer, ⟨pbase, hpbase⟩, l, hl⟩ := hm
    obtain ⟨peer, hpeer⟩ := exists_input (b := .peer) hpeer
    exact .leads _ (elementLeads_qgen hb hpeer hpbase hl)
  case psrch =>
    obtain ⟨b, hbase⟩ := hm
    exact elementOutcome_search (w := .p) hb hbase
  case qsrch =>
    obtain ⟨b, hbase⟩ := hm
    exact elementOutcome_search (w := .q) hb hbase
  case rsaasm =>
    obtain ⟨⟨p, hp⟩, q, hq⟩ := hm
    cases hr : rsaParts p q with
    | error f => exact .fails f v (elementFails_of_step fun _ _ fin => rsaasmBody_error fin hp hq hr)
    | ok r => exact .leads _ (elementLeads_rsaasm hb hp hq hr)
  case rsaexp =>
    obtain ⟨⟨p, hp⟩, ⟨q, hq⟩, ⟨n, hn⟩, ⟨d, hd⟩, ⟨dp, hdp⟩, ⟨dq, hdq⟩, ⟨qi, hqi⟩, l, hl⟩ := hm
    exact .leads _ (elementLeads_rsaexp hb hp hq hn hd hdp hdq hqi hl)
  case ecred =>
    obtain ⟨ps, hps⟩ := hm
    exact .leads _ (elementLeads_ecred hb hps)
  case ecmul =>
    obtain ⟨d, hd⟩ := hm
    cases hxy : mulPoint d ecG with
    | infinity => exact .fails _ v (elementFails_of_step fun _ _ fin => ecmulBody_infinity fin hd hxy)
    | affine x y => exact .leads _ (elementLeads_ecmul hb hd hxy)
  case ecexp =>
    obtain ⟨⟨d, hd⟩, ⟨x, hx⟩, y, hy⟩ := hm
    exact .leads _ (elementLeads_ecexp hb hd hx hy)

/-- A step command's element comes out in one of the three ways. -/
theorem elementOutcome (c : Config) {i : Instr} {e : Element} {v : State} (he : Instr.element i = some e)
    (hb : v.flags.busy = true) : ElementOutcome c e v := by
  cases hm : firstMissing (sources i v) with
  | none => exact elementOutcome_of_sources c he hb ((firstMissing_eq_none_iff _).mp hm)
  | some m => exact .fails _ v (elementFails_missing he hm)

/-! ## The command that runs an element -/

/-- From `s` on, as long as the element runs, a step of command `i` is one of the element, with `fin` at its end. -/
structure Drives (c : Config) (i : Instr) (e : Element) (fin : State → State) (s : State) : Prop where
  busy : s.flags.busy = true
  step : ∀ u, EngineKeeps s u → commandStep c i u = elementBody c e fin u

section
variable {c : Config} {i : Instr} {e : Element} {fin : State → State} {s t u : State}

theorem drives_command (he : Instr.element i = some e) (hb : s.flags.busy = true) : Drives c i e complete s :=
  ⟨hb, fun u hk => commandStep_busy c i e u he (hk.busy.trans hb)⟩

theorem drives_gen {kt : Bytes} {k : Kind} (hb : s.flags.busy = true) (ht : s.input .ktype = some kt)
    (hk : matchKeyType kt = some k) (he : elementAt k s.seq.gidx = some e) : Drives c .gen e (advancePc k) s :=
  ⟨hb, fun _ hu => commandStep_gen_element (hu.busy.trans hb) ((hu.input .ktype).trans ht) hk (hu.gidx ▸ he)⟩

/-- The command still drives the element after a step that leaves the engine running. -/
theorem Drives.next (hd : Drives c i e fin s) (hb : t.flags.busy = true) (h : ∀ fin, elementBody c e fin s = t) :
    commandStep c i s = t ∧ Drives c i e fin t :=
  have hk := engineKeeps_of_step hb (h id)
  ⟨(hd.step s (.refl s)).trans (h fin), hb, fun u hu => hd.step u (hk.trans hu)⟩

/-- An element that reaches its end hands the command's run on to what stands there. -/
theorem ElementRun.engineRunWith_iff (h : ElementRun c e s u) (hd : Drives c i e fin s) :
    EngineRunWith c i s t ↔ EngineRunWith c i (fin u) t := by
  induction h with
  | ends h _ => rw [engineRunWith_busy hd.busy, hd.step _ (.refl _), h]
  | goesOn h hb _ ih =>
    obtain ⟨hstep, hd'⟩ := hd.next hb h
    rw [engineRunWith_busy hd.busy, hstep, ih hd']

/-- An element that raises ends the command's run. -/
theorem ElementFault.engineRunWith (h : ElementFault c e s t) (hd : Drives c i e fin s) : EngineRunWith c i s t := by
  induction h with
  | raises h hb =>
    rw [engineRunWith_busy hd.busy, hd.step _ (.refl _), h]
    exact .idle _ hb
  | goesOn h hb _ ih =>
    obtain ⟨hstep, hd'⟩ := hd.next hb h
    rw [engineRunWith_busy hd.busy, hstep]
    exact ih hd'

/-- An element that goes on for ever keeps the command from ending. -/
theorem GoesOnWithin.not_engineRunWith {P : State → Prop} (hP : GoesOnWithin c e P) (hs : P s)
    (hd : Drives c i e fin s) : ¬ EngineRunWith c i s t := by
  intro hr
  induction hr with
  | idle s hb => rw [hd.busy] at hb; cases hb
  | turn s t _ _ ih =>
    obtain ⟨-, u, hu, hstep⟩ := hP s hs
    obtain ⟨hcommand, hd'⟩ := hd.next (hP u hu).1 hstep
    rw [hcommand] at ih
    exact ih hu hd'

end

/-! ## A script's commands, one after the other -/

/-- What R225 compares: `OUT`, `FAULT`, `OVF` and `ERR`. -/
def State.outcome (s : State) : Out × Bool × Bool × Err := (s.out, s.flags.fault, s.flags.ovf, s.err)

/-- A running engine outside the fault state, under the key type `kt`. -/
structure Working (kt : Bytes) (v : State) : Prop where
  busy : v.flags.busy = true
  done : v.flags.done = false
  fault : v.flags.fault = false
  ktype : v.input .ktype = some kt

/-- The idle engine `w` accepts a command into `v`, the sequencer apart. -/
structure AcceptsInto (w v : State) : Prop where
  ready : Ready w
  into : started w = { v with seq := w.seq }

section
variable {c : Config} {i : Instr} {is : List Instr} {e : Element} {kt : Bytes} {u v w : State}

theorem ElementLeads.working (h : ElementLeads c e v u) (hv : Working kt v) : Working kt u := by
  obtain ⟨q, hrun⟩ := h { v.seq with phase := .operands } rfl
  have hk := hrun.keeps
  exact ⟨hk.busy.trans hv.busy, hk.done.trans hv.done, hk.fault.trans hv.fault, (hk.input .ktype).trans hv.ktype⟩

/-- A completed step command leaves the engine ready for the next one. -/
theorem acceptsInto_complete (hu : Working kt u) (q : Seq) : AcceptsInto (complete { u with seq := q }) u := by
  have hflags : ({ u.flags with busy := true, done := false } : Flags) = u.flags := by rw [← hu.busy, ← hu.done]
  refine ⟨⟨rfl, hu.fault⟩, ?_⟩
  simp [started, complete, hflags]

theorem AcceptsInto.outcome_eq (h : AcceptsInto w v) : w.outcome = v.outcome :=
  show (started w).outcome = _ by rw [h.into]; rfl

/-- Acceptance of a step command starts its element at the operand checks (R107). -/
theorem AcceptsInto.runsTo_iff (h : AcceptsInto w v) (he : Instr.element i = some e) :
    ∃ q : Seq, q.phase = .operands ∧ ∀ t, RunsTo c i w t ↔ EngineRunWith c i { v with seq := q } t := by
  have hclr : i ≠ .clr := by rintro rfl; cases he
  have hwipe : i ≠ .wipe := by rintro rfl; cases he
  let q : Seq := { w.seq with cur := opcode i, sub := opcode i, gidx := 0, phase := .operands }
  have hq : { started w with seq := q } = { v with seq := q } := congrArg (fun x : State => { x with seq := q }) h.into
  refine ⟨q, rfl, fun t => ?_⟩
  rw [← hq, runsTo_accepted hclr hwipe h.ready, ← engineRunWith_busy rfl]
  rfl

theorem scriptRunsTo_cons {y x : State} (h : RunsTo c i w y) :
    ScriptRunsTo c (i :: is) w x ↔ ScriptRunsTo c is y x := by
  refine ⟨fun ⟨y', hy', hrest⟩ => ?_, fun hrest => ⟨y, h, hrest⟩⟩
  rwa [engineRunWith_unique h hy'] at hrest

/-- A script goes on past a command whose element reaches its end. -/
theorem AcceptsInto.script_leads (hw : AcceptsInto w v) (hv : Working kt v) (he : Instr.element i = some e)
    (h : ElementLeads c e v u) :
    ∃ w', AcceptsInto w' u ∧ ∀ x, ScriptRunsTo c (i :: is) w x ↔ ScriptRunsTo c is w' x := by
  obtain ⟨q, hq, hrun⟩ := hw.runsTo_iff (c := c) he
  obtain ⟨q', helement⟩ := h q hq
  refine ⟨complete { u with seq := q' }, acceptsInto_complete (h.working hv) q', fun x => scriptRunsTo_cons ?_⟩
  rw [hrun, helement.engineRunWith_iff (drives_command he hv.busy)]
  exact .idle _ rfl

/-- In the fault state the engine drops the rest of the script (R241). -/
theorem scriptRunsTo_dropped (his : ∀ j ∈ is, (Instr.element j).isSome) (hb : w.flags.busy = false)
    (hf : w.flags.fault = true) : ∃ x, ScriptRunsTo c is w x ∧ x.outcome = w.outcome := by
  induction is generalizing w with
  | nil => exact ⟨w, rfl, rfl⟩
  | cons i is ih =>
    obtain ⟨hi, his⟩ := List.forall_mem_cons.mp his
    have hclr : i ≠ .clr := by rintro rfl; cases hi
    have hwipe : i ≠ .wipe := by rintro rfl; cases hi
    have hdrop : RunsTo c i w (dropWrite w) := by
      rw [RunsTo, commandStep_idle c i w hclr hwipe hb, accept_fault i w hf]
      exact .idle _ hb
    obtain ⟨x, hx, hout⟩ := ih his (w := dropWrite w) hb hf
    exact ⟨x, (scriptRunsTo_cons hdrop).mpr hx, hout⟩

/-- A command whose element raises leaves its fault at the script's end. -/
theorem AcceptsInto.script_fails {f : Cause} (hw : AcceptsInto w v) (hv : Working kt v) (he : Instr.element i = some e)
    (h : ElementFails c e v f u) (his : ∀ j ∈ is, (Instr.element j).isSome) :
    ∃ x, ScriptRunsTo c (i :: is) w x ∧ x.outcome = (raise f u).outcome := by
  obtain ⟨q, hq, hrun⟩ := hw.runsTo_iff (c := c) he
  obtain ⟨q', helement⟩ := h q hq
  have hfault := (hrun _).mpr (helement.engineRunWith (drives_command he hv.busy))
  obtain ⟨x, hx, hout⟩ := scriptRunsTo_dropped (c := c) his (w := raise f { u with seq := q' }) rfl rfl
  exact ⟨x, (scriptRunsTo_cons hfault).mpr hx, hout⟩

/-- A script does not end when one of its commands does not. -/
theorem AcceptsInto.script_hangs {P : State → Prop} (hw : AcceptsInto w v) (hv : Working kt v)
    (he : Instr.element i = some e) (hP : GoesOnWithin c e P)
    (h : ∀ q : Seq, q.phase = .operands → P { v with seq := q }) (x : State) : ¬ ScriptRunsTo c (i :: is) w x := by
  rintro ⟨y, hy, -⟩
  obtain ⟨q, hq, hrun⟩ := hw.runsTo_iff (c := c) he
  exact hP.not_engineRunWith (h q hq) (drives_command he hv.busy) ((hrun y).mp hy)

end

/-! ## GEN beside the script -/

/-- Two runs agree: both end, with the same outcome, or neither does. -/
def Agree (A B : State → Prop) : Prop :=
  (∃ g u, A g ∧ B u ∧ u.outcome = g.outcome) ∨ ((∀ g, ¬ A g) ∧ ∀ u, ¬ B u)

/-- GEN stands at the operand checks of a place of its sequence from which the script has `is` to come. -/
structure GenBefore (k : Kind) (is : List Instr) (q : Seq) : Prop where
  phase : q.phase = .operands
  ne_zero : q.gidx ≠ 0
  le : q.gidx.toNat ≤ (stepScript k).length
  rest : (stepScript k).drop q.gidx.toNat = is

section
variable {c : Config} {k : Kind} {i : Instr} {is : List Instr} {e : Element} {kt : Bytes} {u v w : State} {q : Seq}

theorem GenBefore.element (h : GenBefore k (i :: is) q) :
    ∃ e, Instr.element i = some e ∧ elementAt k q.gidx = some e := by
  refine exists_element h.ne_zero ?_
  rw [← Nat.add_zero q.gidx.toNat, ← List.getElem?_drop, h.rest]
  rfl

theorem GenBefore.next (h : GenBefore k (i :: is) q) {q' : Seq} (hp : q'.phase = .operands)
    (hg : q'.gidx = q.gidx + 1) : GenBefore k is q' := by
  have hlt : q.gidx.toNat < (stepScript k).length := by
    have hlen := congrArg List.length h.rest
    rw [List.length_drop, List.length_cons] at hlen
    omega
  refine ⟨hp, hg ▸ next_ne_zero h.le, ?_, ?_⟩
  · rw [hg, toNat_next h.le]; exact hlt
  · rw [hg, toNat_next h.le, ← List.drop_drop, h.rest]; rfl

/-- GEN goes on past an element that reaches its end (R217). -/
theorem gen_leads (hv : Working kt v) (hk : matchKeyType kt = some k) (he : elementAt k q.gidx = some e)
    (hq : q.phase = .operands) (h : ElementLeads c e v u) :
    ∃ q' : Seq, q'.phase = .operands ∧ q'.gidx = q.gidx + 1 ∧
      ∀ g, EngineRunWith c .gen { v with seq := q } g ↔ EngineRunWith c .gen { u with seq := q' } g := by
  obtain ⟨q', hrun⟩ := h q hq
  have hgidx : q'.gidx = q.gidx := hrun.keeps.gidx
  refine ⟨(advancePc k { u with seq := q' }).seq, rfl, congrArg (· + 1) hgidx, fun g => ?_⟩
  exact hrun.engineRunWith_iff (drives_gen hv.busy hv.ktype hk he)

/-- After the last of the step commands GEN scrubs and completes, which keeps the outcome (R219, R221). -/
theorem gen_ends (hv : Working kt v) (hk : matchKeyType kt = some k) (h : GenBefore k [] q) :
    ∃ g, EngineRunWith c .gen { v with seq := q } g ∧ g.outcome = v.outcome := by
  have hlen : q.gidx.toNat = (stepScript k).length := le_antisymm h.le (List.drop_eq_nil_iff.mp h.rest)
  obtain ⟨q', -, hgidx, hrun⟩ := gen_leads (c := c) hv hk (elementAt_scrub hlen) h.phase (elementLeads_scrub hv.busy)
  let s : State := { v with derived := Derived.invalid, seq := q' }
  have hend : elementAt k s.seq.gidx = none := by
    refine elementAt_end ?_
    show q'.gidx.toNat = _
    rw [hgidx, toNat_next h.le, hlen]
  have h0 : s.seq.gidx ≠ 0 := by
    show q'.gidx ≠ 0
    rw [hgidx]; exact next_ne_zero h.le
  have hin : s.input .ktype = some kt := hv.ktype
  have hstep : commandStep c .gen s = complete s := by
    rw [commandStep_gen_busy c s hv.busy, genBody, if_neg h0, genElement, hin, need_some, hk]
    simp only [hend]
  refine ⟨complete s, (hrun _).mpr (.turn s _ hv.busy ?_), rfl⟩
  rw [hstep]
  exact .idle _ rfl

/-- From a place of its sequence on GEN agrees with the rest of the script: each element comes out the same way in
both. -/
theorem agree_of_genBefore (hk : matchKeyType kt = some k) (his : ∀ j ∈ is, (Instr.element j).isSome)
    (hv : Working kt v) (hw : AcceptsInto w v) (hq : GenBefore k is q) :
    Agree (EngineRunWith c .gen { v with seq := q }) (ScriptRunsTo c is w) := by
  induction is generalizing v w q with
  | nil =>
    obtain ⟨g, hg, hout⟩ := gen_ends (c := c) hv hk hq
    exact .inl ⟨g, w, hg, rfl, hw.outcome_eq.trans hout.symm⟩
  | cons i is ih =>
    obtain ⟨e, he, hat⟩ := hq.element
    have hd : Drives c .gen e (advancePc k) { v with seq := q } := drives_gen hv.busy hv.ktype hk hat
    obtain ⟨-, his⟩ := List.forall_mem_cons.mp his
    cases elementOutcome c he hv.busy with
    | leads u h =>
      obtain ⟨w', hw', hscript⟩ := hw.script_leads (is := is) hv he h
      obtain ⟨q', hp, hgidx, hgen⟩ := gen_leads hv hk hat hq.phase h
      simpa only [Agree, hscript, hgen] using ih his (h.working hv) hw' (hq.next hp hgidx)
    | fails f u h =>
      obtain ⟨x, hx, hout⟩ := hw.script_fails hv he h his
      obtain ⟨q', hfault⟩ := h q hq.phase
      exact .inl ⟨_, x, hfault.engineRunWith hd, hx, hout⟩
    | hangs P hP h =>
      exact .inr ⟨fun g => hP.not_engineRunWith (h q hq.phase) hd, hw.script_hangs hv he hP h⟩

end

end Sys2Proof.Machine

namespace Sys2Proof.Machine

/-! ## The start of GEN beside the start of the script -/

section
variable {c : Config} {k : Kind} {s : State} {kt : Bytes} {f : Cause}

/-- What GEN's start clears and what CLR clears is the same (R215, R220). -/
theorem acceptsInto_clr (hs : Ready s) : AcceptsInto (clr s) (started (clearDerivedState s)) := by
  rw [clr_idle hs.1]
  exact ⟨⟨hs.1, rfl⟩, rfl⟩

theorem working_cleared (ht : s.input .ktype = some kt) : Working kt (started (clearDerivedState s)) :=
  ⟨rfl, rfl, rfl, ht⟩

theorem isSome_element_of_mem_tail : ∀ j ∈ (stepScript k).tail, (Instr.element j).isSome := by
  cases k <;> decide

theorem genBefore_first {q : Seq} (hp : q.phase = .operands) (hg : q.gidx = 1) :
    GenBefore k (stepScript k).tail q where
  phase := hp
  ne_zero := by rw [hg]; decide
  le := by rw [hg]; cases k <;> decide
  rest := by rw [hg]; exact List.drop_one

/-- With GEN's checks passed its run is that of its sequence, from the first place on. -/
theorem agree_of_checks_passed (hs : Ready s) (ht : s.input .ktype = some kt) (hk : matchKeyType kt = some k)
    (hpass : ∀ q : Seq, genChecks c { started (clearDerivedState s) with seq := q } =
      setPc k 1 { started (clearDerivedState s) with seq := q }) :
    Agree (RunsTo c .gen s) (ScriptRunsTo c (stepScript k).tail (clr s)) := by
  let v : State := started (clearDerivedState s)
  let q : Seq := (setPc k 1 { v with seq := { s.seq.cleared with cur := opcode .gen, sub := opcode .gen } }).seq
  have hrun : ∀ g, RunsTo c .gen s g ↔ EngineRunWith c .gen { v with seq := q } g := fun g => by
    rw [runsTo_gen hs, genBody_accept c hs, clearDerivedState_accept_gen hs, hpass]
    rfl
  simpa only [Agree, hrun] using
    agree_of_genBefore hk isSome_element_of_mem_tail (working_cleared ht) (acceptsInto_clr hs) (genBefore_first rfl rfl)

/-- A fault of GEN's checks is the script's fault when the script ends with no record, `OVF` at 0 and the same `ERR`. -/
theorem agree_of_checks_failed (hs : Ready s)
    (hfail : ∀ q : Seq, genChecks c { started (clearDerivedState s) with seq := q } =
      raise f { started (clearDerivedState s) with seq := q })
    (hscript : ∃ x, ScriptRunsTo c (stepScript k).tail (clr s) x ∧ x.outcome = (.none, true, false, f.err)) :
    Agree (RunsTo c .gen s) (ScriptRunsTo c (stepScript k).tail (clr s)) := by
  obtain ⟨x, hx, hout⟩ := hscript
  exact .inl ⟨_, x, runsTo_gen_failed hs hfail, hx, hout⟩

/-- What MKEY makes of a cleared engine (R150). -/
def keyed (c : Config) (mk : Bytes) (s : State) : State :=
  { started (clearDerivedState s) with
    derived := { Derived.invalid with mk := some mk }
    counters := roundsAfter c 1 ⟨0, 0, 0⟩ }

theorem firstMissing_append (l l' : List (Reg × Bool)) :
    firstMissing (l ++ l') = (firstMissing l).or (firstMissing l') := by
  simp [firstMissing, List.find?_append, Option.map_or]

/-- After MKEY the script comes to a command that reads what MKEY leaves alone, PEER or `KEYSIZE`. -/
theorem script_fails_after_mkey {i : Instr} {is : List Instr} {e : Element} (hs : Ready s)
    (ht : s.input .ktype = some kt) (hm : firstMissing (sources .mkey s) = none) (he : Instr.element i = some e)
    (his : ∀ j ∈ is, (Instr.element j).isSome) (hfails : ∀ mk, ElementFails c e (keyed c mk s) f (keyed c mk s)) :
    ∃ x, ScriptRunsTo c (.mkey :: i :: is) (clr s) x ∧ x.outcome = (.none, true, false, f.err) := by
  have hv := working_cleared ht
  have hvalid := (firstMissing_eq_none_iff _).mp hm
  obtain ⟨seed, hseed⟩ := exists_input (b := .seed) (hvalid _ (.head _))
  obtain ⟨did, hdid⟩ := exists_input (b := .did) (hvalid _ (.tail _ (.head _)))
  have hmkey := elementLeads_mkey (c := c) hv.busy hseed hdid
  obtain ⟨w, hw, hscript⟩ := (acceptsInto_clr hs).script_leads (is := i :: is) hv (i := .mkey) rfl hmkey
  obtain ⟨x, hx, hout⟩ := hw.script_fails (hmkey.working hv) he (hfails _) his
  exact ⟨x, (hscript x).mpr hx, hout⟩

/-- The script reports a missing input as GEN's checks do: SEED and DID by MKEY, PEER by PGEN or PSEC, which read it
first (R150, R156, R194). -/
theorem script_missing {r : Reg} (hs : Ready s) (ht : s.input .ktype = some kt)
    (hr : firstMissing (sources .mkey s ++ [(.peer, s.peer.valid)]) = some r) :
    ∃ x, ScriptRunsTo c (stepScript k).tail (clr s) x ∧
      x.outcome = (.none, true, false, (Cause.unwrittenOperand r.index).err) := by
  have his := isSome_element_of_mem_tail (k := k)
  rw [firstMissing_append] at hr
  cases hm : firstMissing (sources .mkey s) with
  | some m =>
    obtain rfl : m = r := by simpa [hm] using hr
    have hfails : ElementFails c .mkey (started (clearDerivedState s)) _ _ := elementFails_missing (i := .mkey) rfl hm
    cases k <;>
      exact (acceptsInto_clr hs).script_fails (working_cleared ht) rfl hfails fun j hj => his j (.tail _ hj)
  | none =>
    have hpeer : ∀ l, firstMissing ((.peer, s.peer.valid) :: l) = some r := fun l => by
      rw [← List.singleton_append, firstMissing_append]
      rw [hm, Option.none_or] at hr
      rw [hr, Option.some_or]
    cases k with
    | rsa =>
      exact script_fails_after_mkey hs ht hm rfl (fun j hj => his j (.tail _ (.tail _ hj))) fun mk =>
        elementFails_missing (i := .pgen) rfl (hpeer _)
    | ec =>
      exact script_fails_after_mkey hs ht hm rfl (fun j hj => his j (.tail _ (.tail _ hj))) fun mk =>
        elementFails_missing (i := .psec) rfl (hpeer _)

/-- The script reports an illegal key size by PGEN (R156, R235). -/
theorem script_illegal {peer : Bytes} (hs : Ready s) (ht : s.input .ktype = some kt)
    (hm : firstMissing (sources .mkey s) = none) (hpeer : s.input .peer = some peer)
    (hlegal : keySizeLegal c s.keySize.toNat = false) :
    ∃ x, ScriptRunsTo c (stepScript .rsa).tail (clr s) x ∧
      x.outcome = (.none, true, false, Cause.invalidKeySize.err) :=
  script_fails_after_mkey hs ht hm rfl (fun j hj => isSome_element_of_mem_tail (k := .rsa) j (.tail _ (.tail _ hj)))
    fun mk => elementFails_of_step fun q hq fin =>
      pgenBody_illegal c fin (s := { keyed c mk s with seq := q }) hpeer rfl hq hlegal

/-- GEN agrees with the script after its CLR: its checks report what the script would run into, or its sequence is the
script's. -/
theorem agree_gen (hs : Ready s) (ht : s.input .ktype = some kt) (hk : matchKeyType kt = some k) :
    Agree (RunsTo c .gen s) (ScriptRunsTo c (stepScript k).tail (clr s)) := by
  cases hm : firstMissing (sources .mkey s ++ [(.peer, s.peer.valid)]) with
  | some r => exact agree_of_checks_failed hs (fun _ => genChecks_missing ht hk hm) (script_missing hs ht hm)
  | none =>
    have hvalid := (firstMissing_eq_none_iff _).mp hm
    have hpeer := hvalid (.peer, s.peer.valid) (by simp)
    have hchecks := fun q : Seq => genChecks_inputs (c := c)
      (s := { started (clearDerivedState s) with seq := q }) ht hk
      (hvalid (.seed, s.seed.valid) (by simp [sources])) (hvalid (.did, s.did.valid) (by simp [sources])) hpeer
    by_cases hillegal : k = .rsa ∧ keySizeLegal c s.keySize.toNat = false
    · obtain ⟨rfl, hlegal⟩ := hillegal
      rw [firstMissing_append, Option.or_eq_none_iff] at hm
      obtain ⟨peer, hpeer⟩ := exists_input (b := .peer) hpeer
      exact agree_of_checks_failed hs (fun q => (hchecks q).trans (if_pos ⟨rfl, hlegal⟩))
        (script_illegal hs ht hm.1 hpeer hlegal)
    · exact agree_of_checks_passed hs ht hk fun q => (hchecks q).trans (if_neg hillegal)

/-- The script's first command is performed in the accepting step (R107, R220). -/
theorem runsTo_clr (hs : Ready s) : RunsTo c .clr s (clr s) :=
  .idle _ (acceptsInto_clr hs).ready.1

/-- A script has one end. -/
theorem scriptRunsTo_unique {is : List Instr} {w x y : State} (hx : ScriptRunsTo c is w x)
    (hy : ScriptRunsTo c is w y) : y = x := by
  induction is generalizing w with
  | nil => exact hy.trans hx.symm
  | cons i is ih =>
    obtain ⟨u, hu, hx⟩ := hx
    exact ih hx ((scriptRunsTo_cons hu).mp hy)

/-- GEN agrees with the whole script of its key type. -/
theorem agree_gen_script (hs : Ready s) (ht : s.input .ktype = some kt) (hk : matchKeyType kt = some k) :
    Agree (RunsTo c .gen s) (ScriptRunsTo c (stepScript k) s) := by
  have hclr : ∀ u, ScriptRunsTo c (stepScript k) s u ↔ ScriptRunsTo c (stepScript k).tail (clr s) u := fun u => by
    cases k <;> exact scriptRunsTo_cons (runsTo_clr hs)
  simpa only [Agree, hclr] using agree_gen hs ht hk

end

/-- Settles O47: the two agree, and each has one end. -/
theorem genAgreesWithScript : Obligations.GenAgreesWithScript := by
  intro c s kt k hs ht hk
  obtain ⟨g, u, hg, hu, hout⟩ | ⟨hgen, hscript⟩ := agree_gen_script (c := c) hs ht hk
  · refine ⟨fun _ _ => ⟨u, hu⟩, fun _ _ => ⟨g, hg⟩, fun g' u' hg' hu' => ?_⟩
    rw [engineRunWith_unique hg hg', scriptRunsTo_unique hu hu']
    simpa [State.outcome] using hout
  · exact ⟨fun g hg => absurd hg (hgen g), fun u hu => absurd hu (hscript u), fun g _ hg => absurd hg (hgen g)⟩

end Sys2Proof.Machine

namespace Sys2Proof.Machine

/-! ## Leaving the fault state, and the reset event -/

/-- A step keeps the fault state with its `ERR`, or leaves it (R241). No command but CLR and WIPE is performed there: the
write of another's word is dropped. -/
theorem Moves.fault_kept_or_left {c : Config} {u t : State} (h : Moves c u t) (hb : u.flags.busy = false)
    (hf : u.flags.fault = true) : (t.flags.fault = true ∧ t.err = u.err) ∨ t.flags.fault = false := by
  have hkept : (u.flags.fault = true ∧ u.err = u.err) ∨ u.flags.fault = false := .inl ⟨hf, rfl⟩
  cases h with
  | idle _ ht | drop ht | keySize _ _ ht | bytes _ _ _ _ _ ht => rw [ht]; exact hkept
  | read off ht => rw [ht, hostRead_eq]; exact hkept
  | length b v _ ht =>
    rw [ht, writeLength]
    split
    · exact .inl (by simp [hf])
    · exact hkept
  | engine _ hb' => rw [hb] at hb'; cases hb'
  | illegal _ _ hf' => rw [hf] at hf'; cases hf'
  | command _ i _ _ _ ht =>
    rw [ht]
    obtain rfl | rfl | ⟨hclr, hwipe, -⟩ := Instr.element_cases i
    · rw [commandStep, clr_idle hb]; exact .inr rfl
    · rw [commandStep, wipe_idle hb]; exact .inr rfl
    · rw [commandStep_idle c i u hclr hwipe hb, accept_fault i u hf]; exact hkept
  | reset ht => rw [ht]; exact .inr rfl

/-- In the fault state every word but CLR's and WIPE's is dropped (R107, R241). -/
theorem writeCommand_fault (run : Instr → State → Host.Outcome State Fault Refusal) {s : State} {w : Word}
    (hf : s.flags.fault = true) (hw : leavesFault w = false) : writeCommand run w s = .next (dropWrite s) :=
  if_pos ⟨hf, hw⟩

/-- `FAULT` of an idle engine falls only by reset and by the words of CLR and WIPE. -/
theorem step_fault_falls {s t : State} (h : step s = .next t) (hb : s.flags.busy = false)
    (hf : s.flags.fault = true) (ht : t.flags.fault = false) : (∃ rest, s.host.script = .reset :: rest) ∨
      ∃ w rest, s.host.script = .write 0x0000 w :: rest ∧ (w = encode .clr ∨ w = encode .wipe) := by
  have hne : t.flags.fault ≠ s.flags.fault := by rw [hf, ht]; decide
  obtain hreset | ⟨w, rest, hscript, -, hw⟩ | ⟨p, hq⟩ := step_script_cases h
  · exact .inl hreset
  · refine .inr ⟨w, rest, hscript, by_contra fun hother => hne ?_⟩
    rw [writeCommand_fault _ (by exact hf) (leavesFault_eq_false_iff.mpr (not_or.mp hother))] at hw
    cases hw
    rfl
  · exfalso
    cases hq with
    | engine _ hb' => exact absurd hb (by simpa using hb')
    | read off ht => exact hne (by rw [ht, hostRead_eq])
    | drop ht => exact hne (by rw [ht]; rfl)
    | inputs _ hflags => exact hne (by rw [hflags])

/-- Settles O23: in the fault state `BUSY` is 0, and a step that does not keep `FAULT` and `ERR` lets `FAULT` fall. -/
theorem faultLeftOnlyByClrWipeReset : Obligations.FaultLeftOnlyByClrWipeReset := by
  intro s t hinv hf hst
  have hb : s.flags.busy = false := Bool.of_not_eq_true fun hb => by
    obtain ⟨-, hf'⟩ := hinv.busyAlone hb
    rw [hf] at hf'; cases hf'
  obtain ⟨p, hm⟩ := step_moves s t hst
  exact (hm.fault_kept_or_left hb hf).imp_right (step_fault_falls hst hb hf)

/-- Settles O19: the move is `resetEvent`, which leaves `BUSY` at 0. -/
theorem resetEventFromAnyState : Obligations.ResetEvent := fun s =>
  ⟨step_withMove s .reset, (step_yield (resetEvent s)).trans (engineTurn_idle exec rfl)⟩

end Sys2Proof.Machine
